-- ==== Sys2Proof/Word.lean ====
section
/-! DEFINITION. The word types of the block: bytes, pin levels, colours, the two byte-addressed spaces. -/

namespace Sys2Proof

/-- A byte, 8 bits (00_scope.md section 5). -/
abbrev Byte := BitVec 8

/-- The level of a one-bit pin: 0 or 1 (R23, R24). -/
abbrev Level := BitVec 1

/-- A colour: a 16-bit pattern, compared and moved whole (R8). -/
abbrev Colour := BitVec 16

/-- The byte-addressed spaces an operation can name (R40): the frame buffer `FB` and the transmit buffer `TX`.
The other two spaces of R40 are no byte arrays of the block: `ROM` is indexed by entry and `DEV` has no read
path. DESIGN CHOICE (log 27). -/
inductive Space where
  | fb
  | tx
  deriving DecidableEq, Repr

end Sys2Proof
end

