-- ==== Sys2Proof/Config.lean ====
section
/-! DEFINITION. The configuration record `CFG` (00_scope.md R5), the instance that `State.reset` is built
with, and the free values of U3. -/

namespace Sys2Proof

/-- "boolean flag selecting BGR vs RGB channel order" (R5, D11). -/
inductive ColorOrder where
  | rgb
  | bgr
  deriving DecidableEq, Repr, Inhabited

/-- The reset line's logical value (R25). -/
inductive RstLine where
  | asserted
  | deasserted
  deriving DecidableEq, Repr, Inhabited

/-- The type of `GLYPH_W`: an integer in 1..8 (R5, R136, D31), so that no instance has another glyph width. -/
abbrev GlyphWidth := { n : Nat // 1 ≤ n ∧ n ≤ 8 }

/-- `CFG`: the constants of one instance, set when it is constructed and written by no operation (R5, R35).
Every value that the spec leaves OPEN is a field here, so that a statement over all states holds for every
value of it (U1, U2, U19, U20, U23). -/
structure Cfg where
  /-- `W`, native width in pixels. -/
  w : Nat
  /-- `H`, native height in pixels. -/
  h : Nat
  /-- `ROTATION` in degrees; any number is allowed (D10). -/
  rotation : Nat
  /-- `COLOR_ORDER`. -/
  colorOrder : ColorOrder
  /-- `OFFSET_X`, 0..255. -/
  offsetX : Byte
  /-- `OFFSET_Y`, 0..255. -/
  offsetY : Byte
  /-- `P_FRMCTR1`. -/
  pFrmctr1 : List Byte
  /-- `P_FRMCTR2`. -/
  pFrmctr2 : List Byte
  /-- `P_FRMCTR3`. -/
  pFrmctr3 : List Byte
  /-- `P_INVCTR`, length 1. -/
  pInvctr : List Byte
  /-- `P_PWCTR1`. -/
  pPwctr1 : List Byte
  /-- `P_PWCTR2`. -/
  pPwctr2 : List Byte
  /-- `P_PWCTR3`. -/
  pPwctr3 : List Byte
  /-- `P_PWCTR4`. -/
  pPwctr4 : List Byte
  /-- `P_PWCTR5`. -/
  pPwctr5 : List Byte
  /-- `P_VMCTR1`, length 1. -/
  pVmctr1 : List Byte
  /-- `OPC_NORON`. -/
  opcNoron : Byte
  /-- `T_RST_ASSERT`, milliseconds. -/
  tRstAssert : Nat
  /-- `T_RST_RELEASE`, milliseconds. -/
  tRstRelease : Nat
  /-- `T_SWRESET`, milliseconds. -/
  tSwreset : Nat
  /-- `T_SLPOUT`, milliseconds. -/
  tSlpout : Nat
  /-- `BURST_CHUNK`; 0 sends the burst as one data transaction. -/
  burstChunk : Nat
  /-- `RST_ACTIVE_LEVEL`: the electrical level of the asserted reset pin (R25). -/
  rstActiveLevel : Level
  /-- `SPI_MODE`: bit-level format below the model's level (D1); read by no operation. -/
  spiMode : BitVec 2
  /-- `SPI_MSB_FIRST`: as `spiMode`. -/
  spiMsbFirst : Level
  /-- `FONT`: the triples (character code, row, column) whose pixel is set (R136); every other is clear.
  DESIGN CHOICE (log 20). -/
  font : List (Nat × Nat × Nat)
  /-- `GLYPH_W`, 1..8. -/
  glyphW : GlyphWidth
  /-- `GLYPH_ADV`. -/
  glyphAdv : Int
  deriving DecidableEq, Repr

/-- The instance that `State.reset` is constructed with. DESIGN CHOICE (log 1): the spec leaves the parameters
OPEN; these are the configuration of program P1 of 95_test_vectors.md (a 2 x 2 panel, the illustrative set TP1,
the defaults of R5, an empty font). No statement rests on them. -/
def Config.resetCfg : Cfg where
  w := 2
  h := 2
  rotation := 0
  colorOrder := .rgb
  offsetX := 0
  offsetY := 0
  pFrmctr1 := [0x01, 0x2C, 0x2D]
  pFrmctr2 := [0x01, 0x2C, 0x2D]
  pFrmctr3 := [0x01, 0x2C, 0x2D, 0x01, 0x2C, 0x2D]
  pInvctr := [0x07]
  pPwctr1 := [0xA2, 0x02, 0x84]
  pPwctr2 := [0xC5]
  pPwctr3 := [0x0A, 0x00]
  pPwctr4 := [0x8A, 0x2A]
  pPwctr5 := [0x8A, 0xEE]
  pVmctr1 := [0x0E]
  opcNoron := 0x13
  tRstAssert := 5
  tRstRelease := 5
  tSwreset := 150
  tSlpout := 500
  burstChunk := 0
  rstActiveLevel := 0
  spiMode := 0
  spiMsbFirst := 1
  font := []
  glyphW := ⟨8, by decide⟩
  glyphAdv := 8

/-- FREE VALUE (log 6): the level of `CS` after the n-th transport failure, which R102 and U3 leave
unspecified. -/
opaque Config.freeCs : Nat → Level

/-- FREE VALUE (log 6): the level of `DC` after the n-th transport failure (R102, U3). -/
opaque Config.freeDc : Nat → Level

/-- FREE VALUE (log 6): the reset line after the n-th transport failure (U3). -/
opaque Config.freeRst : Nat → RstLine

end Sys2Proof
end

