-- ==== Sys2Proof/Syntax.lean ====
section
/-! DEFINITION. The operations of spec/opcode_table.json, one constructor per row. -/

namespace Sys2Proof

/-- The twenty wire commands of R74, then the six request codes of R82. A wire command has no operand: its
payload is a constant, a parameter of the configuration, or taken from the machine's state (R89). -/
inductive Instr where
  /-- R180 -/
  | swreset
  /-- R181 -/
  | slpout
  /-- R182 -/
  | noron
  /-- R183 -/
  | invoff
  /-- R184 -/
  | dispon
  /-- R185 -/
  | caset
  /-- R186 -/
  | raset
  /-- R187 -/
  | ramwr
  /-- R188 -/
  | madctl
  /-- R189 -/
  | colmod
  /-- R190 -/
  | frmctr1
  /-- R191 -/
  | frmctr2
  /-- R192 -/
  | frmctr3
  /-- R193 -/
  | invctr
  /-- R194 -/
  | pwctr1
  /-- R195 -/
  | pwctr2
  /-- R196 -/
  | pwctr3
  /-- R197 -/
  | pwctr4
  /-- R198 -/
  | pwctr5
  /-- R199 -/
  | vmctr1
  /-- R157 -/
  | init
  /-- R163 -/
  | present
  /-- R100: `c`, the command byte. -/
  | sendCommand (c : Byte)
  /-- R101: `s`, the byte string, of length at least 1. -/
  | sendData (s : List Byte)
  /-- R111, R112: the inclusive bounds of a logical rectangle, 8 bits each. -/
  | setWindow (x0 y0 x1 y1 : Byte)
  /-- R146: destination, source, and the length in bytes (`TLEN` has 18 bits, R21). -/
  | swapBytes (dst src : Space) (n : BitVec 18)
  deriving DecidableEq, Repr

end Sys2Proof
end

