-- ==== Sys2Proof/WellFormed.lean ====
section
/-! DEFINITION. Which operations are well formed. -/

namespace Sys2Proof

/-- A data transaction carries at least one byte (R72, R101) and no more than the byte counter `BI` of 18 bits
can count (R21). Nothing else is checked: the other operands are in range by their types, and the
preconditions of `SWAP_BYTES` are checked when it runs (R147). -/
def Instr.wf : Instr → Bool
  | .sendData s => decide (1 ≤ s.length) && decide (s.length < 2 ^ 18)
  | _ => true

end Sys2Proof
end

