-- ==== Sys2Proof/Decode.lean ====
section
/-! DEFINITION. Decoder and encoder of the two code spaces of 30_encoding.md: the wire opcodes (R74) and the
request codes (R82). -/

namespace Sys2Proof

/-- The two code spaces: the 8-bit opcodes of the wire commands (R74) and the 4-bit codes by which the host
selects an operation and the micro-sequencer dispatches its micro-operations (R82). -/
inductive Format where
  | wire
  | req
  deriving DecidableEq, Repr

/-- Why a byte string is no operation. -/
inductive DecodeError where
  /-- No byte at all. -/
  | empty
  /-- A byte outside the opcode map (R84). -/
  | reservedOpcode (b : Byte)
  /-- A code that R82 does not assign (R83). -/
  | reservedCode (b : Byte)
  /-- An operand is missing. -/
  | truncated
  /-- An operand field of the model's layout holds a value the layout does not use. -/
  | badOperand
  deriving DecidableEq, Repr

/-- What decoding gives: an operation and the bytes after it, or a named error. -/
inductive Decoded where
  | ok (i : Instr) (rest : List Byte)
  | error (e : DecodeError)
  deriving DecidableEq, Repr

/-- The opcode map of R74, all 8 bits matched. NORON stands under the default of `OPC_NORON`, the word that
spec/opcode_table.json gives the row; the byte the command puts on the wire is the parameter (R182). PRESUMED
(log 12): 0x13 is the spec's default from general knowledge. -/
def wireTable : List (Byte × Instr) :=
  [(0x01, .swreset), (0x11, .slpout), (0x13, .noron), (0x20, .invoff), (0x29, .dispon),
   (0x2A, .caset), (0x2B, .raset), (0x2C, .ramwr), (0x36, .madctl), (0x3A, .colmod),
   (0xB1, .frmctr1), (0xB2, .frmctr2), (0xB3, .frmctr3), (0xB4, .invctr),
   (0xC0, .pwctr1), (0xC1, .pwctr2), (0xC2, .pwctr3), (0xC3, .pwctr4), (0xC4, .pwctr5),
   (0xC5, .vmctr1)]

/-- The command a wire byte stands for (R74), none for a reserved byte (R84). -/
def decodeWire (b : Byte) : Option Instr :=
  (wireTable.find? fun row => row.1 == b).map fun row => row.2

/-- The request a 4-bit code of the host stands for (R82): only INIT and PRESENT are requestable; every other
code is an illegal request (R83). -/
def decodeRequest (code : BitVec 4) : Option Instr :=
  if code = 0x1 then some .init
  else if code = 0x2 then some .present
  else none

/-- The number written by three bytes, most significant first. -/
def readBE24 (a b c : Byte) : Nat := a.toNat * 65536 + b.toNat * 256 + c.toNat

/-- A number below 2^24 as three bytes, most significant first. -/
def bytesBE24 (n : Nat) : List Byte :=
  [BitVec.ofNat 8 (n / 65536), BitVec.ofNat 8 (n / 256), BitVec.ofNat 8 n]

/-- The space operands of `SWAP_BYTES` in one byte: bit 0 the destination, bit 1 the source, and 0 the block's
own use `SWAP_BYTES(TX, FB, n)`. -/
def decodeSpaces (b : Byte) : Option (Space × Space) :=
  if b = 0 then some (.tx, .fb)
  else if b = 1 then some (.fb, .fb)
  else if b = 2 then some (.tx, .tx)
  else if b = 3 then some (.fb, .tx)
  else none

/-- The byte that `decodeSpaces` reads as these two operands. -/
def spacesByte : Space → Space → Byte
  | .tx, .fb => 0
  | .fb, .fb => 1
  | .tx, .tx => 2
  | .fb, .tx => 3

/-- The operands of `SEND_DATA`: three bytes of length minus one, then the string. -/
def decodeSendData : List Byte → Decoded
  | l2 :: l1 :: l0 :: r =>
    if 2 ^ 18 ≤ readBE24 l2 l1 l0 + 1 then .error .badOperand
    else if r.length < readBE24 l2 l1 l0 + 1 then .error .truncated
    else .ok (.sendData (r.take (readBE24 l2 l1 l0 + 1))) (r.drop (readBE24 l2 l1 l0 + 1))
  | _ => .error .truncated

/-- The operands of `SWAP_BYTES`: the byte of the two spaces, then three bytes of length. -/
def decodeSwapBytes : List Byte → Decoded
  | sp :: n2 :: n1 :: n0 :: r =>
    match decodeSpaces sp with
    | none => .error .badOperand
    | some (dst, src) =>
      if 2 ^ 18 ≤ readBE24 n2 n1 n0 then .error .badOperand
      else .ok (.swapBytes dst src (BitVec.ofNat 18 (readBE24 n2 n1 n0))) r
  | _ => .error .truncated

/-- The operand of `SEND_COMMAND`: the command byte. -/
def decodeSendCommand : List Byte → Decoded
  | c :: r => .ok (.sendCommand c) r
  | [] => .error .truncated

/-- The operands of `SET_WINDOW`: the four bounds. -/
def decodeSetWindow : List Byte → Decoded
  | x0 :: y0 :: x1 :: y1 :: r => .ok (.setWindow x0 y0 x1 y1) r
  | _ => .error .truncated

/-- An operation of the request code space (R82), the code in the low four bits of the first byte, its
operands in the bytes after it. DESIGN CHOICE (log 12): the spec says the operands are "not part of the code"
and gives them no layout. -/
def decodeReq (code : Byte) (r : List Byte) : Decoded :=
  if code = 0x1 then .ok .init r
  else if code = 0x2 then .ok .present r
  else if code = 0xC then decodeSendCommand r
  else if code = 0xD then decodeSendData r
  else if code = 0xE then decodeSetWindow r
  else if code = 0xF then decodeSwapBytes r
  else .error (.reservedCode code)

/-- The decoder: the operation that begins a byte string, and the bytes after it. -/
def decode : Format → List Byte → Decoded
  | _, [] => .error .empty
  | .wire, b :: r =>
    match decodeWire b with
    | some i => .ok i r
    | none => .error (.reservedOpcode b)
  | .req, b :: r => decodeReq b r

/-- The code space an operation belongs to. -/
def Instr.format : Instr → Format
  | .swreset => .wire
  | .slpout => .wire
  | .noron => .wire
  | .invoff => .wire
  | .dispon => .wire
  | .caset => .wire
  | .raset => .wire
  | .ramwr => .wire
  | .madctl => .wire
  | .colmod => .wire
  | .frmctr1 => .wire
  | .frmctr2 => .wire
  | .frmctr3 => .wire
  | .invctr => .wire
  | .pwctr1 => .wire
  | .pwctr2 => .wire
  | .pwctr3 => .wire
  | .pwctr4 => .wire
  | .pwctr5 => .wire
  | .vmctr1 => .wire
  | .init => .req
  | .present => .req
  | .sendCommand _ => .req
  | .sendData _ => .req
  | .setWindow _ _ _ _ => .req
  | .swapBytes _ _ _ => .req

/-- The first byte of an operation: its opcode (R74) or its request code (R82). -/
def Instr.code : Instr → Byte
  | .swreset => 0x01
  | .slpout => 0x11
  | .noron => 0x13
  | .invoff => 0x20
  | .dispon => 0x29
  | .caset => 0x2A
  | .raset => 0x2B
  | .ramwr => 0x2C
  | .madctl => 0x36
  | .colmod => 0x3A
  | .frmctr1 => 0xB1
  | .frmctr2 => 0xB2
  | .frmctr3 => 0xB3
  | .invctr => 0xB4
  | .pwctr1 => 0xC0
  | .pwctr2 => 0xC1
  | .pwctr3 => 0xC2
  | .pwctr4 => 0xC3
  | .pwctr5 => 0xC4
  | .vmctr1 => 0xC5
  | .init => 0x1
  | .present => 0x2
  | .sendCommand _ => 0xC
  | .sendData _ => 0xD
  | .setWindow _ _ _ _ => 0xE
  | .swapBytes _ _ _ => 0xF

/-- The operand bytes after the first byte. -/
def Instr.operandBytes : Instr → List Byte
  | .sendCommand c => [c]
  | .sendData s => bytesBE24 (s.length - 1) ++ s
  | .setWindow x0 y0 x1 y1 => [x0, y0, x1, y1]
  | .swapBytes dst src n => spacesByte dst src :: bytesBE24 n.toNat
  | _ => []

/-- The encoder: the bytes of a well-formed operation. -/
def encode (i : Instr) : List Byte := i.code :: i.operandBytes

/-- The bytes of an instruction whose bits are `w`, numbered as spec/opcode_table.json numbers them: byte `k`
is bits `8k+7 .. 8k`. Bits above `nbits` are 0, up to the longest operand field (`SWAP_BYTES`: five bytes). -/
def tableBytes (nbits w : Nat) : List Byte :=
  (List.range 8).map fun k => BitVec.ofNat 8 (w % 2 ^ nbits / 256 ^ k)

/-- The code space of a table word: a word shorter than a byte is a request code (R82, 4 bits); a word of one
byte is a wire opcode where the opcode map has it, else a request code. DESIGN CHOICE (log 13): as one byte,
INIT and SWRESET are both 0x01, and the byte reads as SWRESET. -/
def tableFormat (nbits w : Nat) : Format :=
  if nbits < 8 then .req
  else if (decodeWire (BitVec.ofNat 8 w)).isSome then .wire
  else .req

/-- The instruction the decoder reads from a table word. -/
def decodeTableWord (nbits w : Nat) : Option Instr :=
  match decode (tableFormat nbits w) (tableBytes nbits w) with
  | .ok i _ => some i
  | .error _ => none

end Sys2Proof
end

