-- ==== Sys2Proof/Machine/State.lean ====
section
/-! DEFINITION. The machine's state as plain data (10_state.md), its reset, its faults and refusals. -/

namespace Sys2Proof.Machine

/-- The controller's state (R11): "Uninitialized → Initializing → Ready". -/
inductive Ctrl where
  | uninitialized
  | initializing
  | ready
  deriving DecidableEq, Repr

/-- `ERR`, the outcome of the last request (R13, R214). Value 7 is reserved and never held. -/
inductive Err where
  /-- 0 NONE -/
  | none
  /-- 1 TRANSPORT_FAILURE -/
  | transportFailure
  /-- 2 NOT_READY -/
  | notReady
  /-- 3 WINDOW_RANGE -/
  | windowRange
  /-- 4 ILLEGAL_REQUEST -/
  | illegalRequest
  /-- 5 DEAD -/
  | dead
  /-- 6 BAD_SWAP -/
  | badSwap
  deriving DecidableEq, Repr

/-- An event of the trace (R27). -/
inductive Event where
  /-- `CS(l)`: the device-select pin is driven to level `l`. -/
  | cs (l : Level)
  /-- `DC(l)`: the mode pin is driven to level `l`. -/
  | dc (l : Level)
  /-- `RST(a)`: the reset line is asserted or deasserted. -/
  | rst (a : RstLine)
  /-- `BYTE(b)`: a byte is shifted out. -/
  | byte (b : Byte)
  /-- `DELAY(t)`: a wait of at least `t` milliseconds. -/
  | delay (t : Nat)
  deriving DecidableEq, Repr

/-- The working registers of the window computer, 9 bits each (R19): `x[0]` WX0, `x[1]` WY0, `x[2]` WX1,
`x[3]` WY1, `x[4]` OX, `x[5]` OY. -/
structure WinRegs where
  wx0 : BitVec 9
  wy0 : BitVec 9
  wx1 : BitVec 9
  wy1 : BitVec 9
  ox : BitVec 9
  oy : BitVec 9
  deriving DecidableEq, Repr

/-- A byte memory (R28, R29): the bytes that hold a value, by rising offset. An unlisted byte holds no value
(R36; log 4). -/
abbrev Memory := List Host.Cell

/-- The canonical form: offsets strictly rising. Since an unlisted byte reads as no value, no entry can equal
what an unlisted byte reads as. -/
abbrev Memory.wf (m : Memory) : Prop := m.Pairwise fun c d => c.1 < d.1

/-- The bus environment's next failure (R102, U4, U5): `after` transactions succeed, then one fails, having let
out `sent` of its bytes (all of them, when it has fewer). -/
structure BusFailure where
  after : Nat
  sent : Nat
  deriving DecidableEq, Repr

/-- The host's drawing primitives (R88), with the operands of 42_framebuffer.md: signed coordinates of any
magnitude (D37), a 16-bit colour. -/
inductive Draw where
  /-- R126 -/
  | fill (c : Colour)
  /-- R127 -/
  | pixel (x y : Int) (c : Colour)
  /-- R128 -/
  | hline (x y w : Int) (c : Colour)
  /-- R129 -/
  | vline (x y h : Int) (c : Colour)
  /-- R130 -/
  | line (x0 y0 x1 y1 : Int) (c : Colour)
  /-- R131 -/
  | rect (x y w h : Int) (c : Colour)
  /-- R132 -/
  | fillRect (x y w h : Int) (c : Colour)
  /-- R136: a string is a list of character codes. -/
  | text (s : List Nat) (x y : Int) (c : Colour)
  deriving DecidableEq, Repr

/-- What the machine is asked to do next. The first four are the host's (R156, R226). -/
inductive Action where
  /-- A request code on the request port (R156). -/
  | request (code : BitVec 4)
  /-- A drawing primitive (R125). -/
  | draw (d : Draw)
  /-- The store primitive `FbWrite(x, y, c)` (R43). -/
  | fbWrite (x y : Int) (c : Colour)
  /-- The load primitive `FbRead(x, y)` (R44). -/
  | fbRead (x y : Int)
  /-- The bytes of one operation, decoded and evaluated alone: no host action. DESIGN CHOICE (log 11): R82 lets
  the micro-sequencer dispatch by the code, and 41_address_window.md and 43_transcoder.md let a model evaluate a
  micro-operation alone. -/
  | dispatch (f : Format) (bytes : List Byte)
  deriving DecidableEq, Repr

/-- The state of one instance (R10). -/
structure State where
  /-- `CFG`, R5, R35. -/
  cfg : Cfg
  /-- `STATE`, R11. -/
  ctrl : Ctrl
  /-- `FATAL`, R12. -/
  fatal : Bool
  /-- `ERR`, R13. -/
  err : Err
  /-- `BUSY`, R22. -/
  busy : Bool
  /-- `SEQ_PC`, R20. -/
  seqPc : BitVec 6
  /-- `x[0..5]`, R19. -/
  x : WinRegs
  /-- `TI`, R21. -/
  ti : BitVec 18
  /-- `TLEN`, R21. -/
  tlen : BitVec 18
  /-- `BI`, R21. -/
  bi : BitVec 18
  /-- `DT`, R32. -/
  dt : Nat
  /-- `FB`, R28. -/
  fb : Memory
  /-- `TX`, R29. -/
  tx : Memory
  /-- `CS`, R23. -/
  cs : Level
  /-- `DC`, R24. -/
  dc : Level
  /-- `RST`, R25. -/
  rst : RstLine
  /-- `TR`, R27, oldest event first. -/
  tr : List Event
  /-- MODEL'S OWN (log 5): the bus environment's schedule; `none`, no transaction fails. -/
  bus : Option BusFailure
  /-- MODEL'S OWN (log 6): how many times free pin levels were drawn. -/
  draws : Nat
  /-- MODEL'S OWN (log 15): the pending actions, oldest first. -/
  inbox : List Action
  /-- MODEL'S OWN (log 21): the word the last `FbRead` returned to the host. -/
  readData : Option Colour
  deriving DecidableEq, Repr

/-- A new instance with this configuration: reset of the block is its construction (R235), with the values of
R36. DESIGN CHOICE, unsafe (log 2, log 3): `x`, `TI`, `TLEN`, `BI` and `DC`, which R36 leaves without value,
are 0. DESIGN CHOICE (log 5, log 6, log 15, log 21): the model's own fields. -/
def State.construct (cfg : Cfg) : State where
  cfg := cfg
  ctrl := .uninitialized
  fatal := false
  err := .none
  busy := false
  seqPc := 0
  x := ⟨0, 0, 0, 0, 0, 0⟩
  ti := 0
  tlen := 0
  bi := 0
  dt := 0
  fb := []
  tx := []
  cs := 1
  dc := 0
  rst := .deasserted
  tr := []
  bus := none
  draws := 0
  inbox := []
  readData := none

/-- The machine right after reset (R36), for the instance of log 1. -/
def State.reset : State := State.construct Config.resetCfg

/-- Why a run stops with a fault. -/
inductive Fault where
  /-- A byte of `FB` or `TX` is read that nothing has written since reset (R36: "a read before a write is
  refused, never a chosen value"). Raised by `SWAP_BYTES`, `PRESENT`, `RAMWR` and `FbRead`. Safe. -/
  | unwritten (sp : Space)
  /-- A host action while `BUSY` = 1, for which the model has no move (R22, U17). Raised by requests, drawing
  and `FbRead`, and by INIT and PRESENT. Safe. -/
  | hostWhileBusy
  deriving DecidableEq, Repr

/-- Why the model gives no meaning. -/
inductive Refusal where
  /-- No meaning yet for this row of the opcode table. Raised by `exec`'s refused arms alone. Safe. -/
  | notModelled (mnemonic : String)
  /-- The configuration is not well formed: no such instance exists (R6, U16). Raised by the step. Safe. -/
  | badConfig
  /-- A data transaction of no byte (R72, U13). Raised by `SEND_DATA`. Safe. -/
  | emptyData
  /-- `FbRead` outside the logical screen (R44). Raised by the host's `FbRead`. Safe. -/
  | readOutside
  /-- A burst run alone after a window with `x0 > x1` or `y0 > y1` (R119: "the model refuses to state anything
  about a burst that follows it"; U11). Raised by `RAMWR` and `SEND_DATA`. Safe. -/
  | unorderedWindow
  /-- `RAMWR` run alone with no CASET and RASET directly before it (R187: "RAMWR is never sent without a CASET and a
  RASET directly before it"). Raised by `RAMWR`. Safe. -/
  | noWindow
  /-- A burst run alone of another length than the window demands (R187, R247, U11: "refuse"). Raised by `RAMWR` and
  `SEND_DATA`. Safe. -/
  | burstLength
  /-- The bytes of a dispatch are no operation (R83, R84). Raised by the dispatch action. Safe. -/
  | undecodable (e : DecodeError)
  deriving DecidableEq, Repr

end Sys2Proof.Machine
end

