-- ==== Sys2Proof/Machine/Operands.lean ====
section
/-! DEFINITION. Values derived from the configuration (10_state.md R14 to R18), well-formedness (R6), and the
payloads of the wire commands (30_encoding.md R75 to R81). -/

namespace Sys2Proof

/-- R14: `ROT_EFF`; an invalid rotation behaves as 0. -/
def Cfg.rotEff (c : Cfg) : Nat :=
  if c.rotation = 90 then 90
  else if c.rotation = 180 then 180
  else if c.rotation = 270 then 270
  else 0

/-- R15: `SWAPPED`. -/
def Cfg.swapped (c : Cfg) : Bool := decide (c.rotation = 90) || decide (c.rotation = 270)

/-- R16: `LW`. -/
def Cfg.lw (c : Cfg) : Nat := if c.swapped then c.h else c.w

/-- R16: `LH`. -/
def Cfg.lh (c : Cfg) : Nat := if c.swapped then c.w else c.h

/-- R17: `OX_EFF`. -/
def Cfg.oxEff (c : Cfg) : Byte := if c.swapped then c.offsetY else c.offsetX

/-- R17: `OY_EFF`. -/
def Cfg.oyEff (c : Cfg) : Byte := if c.swapped then c.offsetX else c.offsetY

/-- R18: `NPIX`. -/
def Cfg.npix (c : Cfg) : Nat := c.w * c.h

/-- R18: `NBYTES`. -/
def Cfg.nbytes (c : Cfg) : Nat := 2 * c.npix

/-- R80: `base(ROT_EFF)`. -/
def Cfg.madctlBase (c : Cfg) : Byte :=
  if c.rotEff = 90 then 0x60
  else if c.rotEff = 180 then 0x00
  else if c.rotEff = 270 then 0xA0
  else 0xC0

/-- R80: `MADCTL_VAL`, the table lookup followed by the OR of 0x08 for BGR (R9 (4)). -/
def Cfg.madctlVal (c : Cfg) : Byte :=
  match c.colorOrder with
  | .rgb => c.madctlBase
  | .bgr => c.madctlBase ||| 0x08

/-- The lengths R5's table demands of the payload parameters. -/
def Cfg.payloadsOk (c : Cfg) : Bool :=
  decide (1 ≤ c.pFrmctr1.length) && decide (1 ≤ c.pFrmctr2.length) && decide (1 ≤ c.pFrmctr3.length) &&
  decide (c.pInvctr.length = 1) &&
  decide (1 ≤ c.pPwctr1.length) && decide (1 ≤ c.pPwctr2.length) && decide (1 ≤ c.pPwctr3.length) &&
  decide (1 ≤ c.pPwctr4.length) && decide (1 ≤ c.pPwctr5.length) &&
  decide (c.pVmctr1.length = 1)

/-- R6: `CFG_OK`. -/
def Cfg.ok (c : Cfg) : Bool :=
  decide (1 ≤ c.w) && decide (c.w ≤ 256) && decide (1 ≤ c.h) && decide (c.h ≤ 256) &&
  decide (c.lw - 1 + c.oxEff.toNat ≤ 255) && decide (c.lh - 1 + c.oyEff.toNat ≤ 255) &&
  c.payloadsOk

/-- R136: `FONT(ch, r, q)`. -/
def Cfg.fontAt (c : Cfg) (ch r q : Nat) : Bool := c.font.contains (ch, r, q)

namespace Machine

/-- R75: the CASET payload, assembled from the working registers: bytes 1 and 3 are `x[0][7:0]` and `x[2][7:0]`.
DESIGN CHOICE, unsafe (log 28): for a register above 255, where R75's "bit 8 is known to be 0" does not hold and
no rule speaks, the same assembly is applied. -/
def casetPayload (x : WinRegs) : List Byte := [0x00, x.wx0.setWidth 8, 0x00, x.wx1.setWidth 8]

/-- R76: the RASET payload: bytes 1 and 3 are `x[1][7:0]` and `x[3][7:0]`. DESIGN CHOICE, unsafe (log 28): as
`casetPayload` for a register above 255. -/
def rasetPayload (x : WinRegs) : List Byte := [0x00, x.wy0.setWidth 8, 0x00, x.wy1.setWidth 8]

/-- R78: the COLMOD payload. -/
def colmodPayload : List Byte := [0x05]

/-- R80, R188: the MADCTL payload. -/
def madctlPayload (c : Cfg) : List Byte := [c.madctlVal]

/-- R112 steps 1 and 2: the effective offsets, then the four 9-bit sums. -/
def windowRegs (c : Cfg) (x0 y0 x1 y1 : Byte) : WinRegs where
  wx0 := x0.setWidth 9 + c.oxEff.setWidth 9
  wy0 := y0.setWidth 9 + c.oyEff.setWidth 9
  wx1 := x1.setWidth 9 + c.oxEff.setWidth 9
  wy1 := y1.setWidth 9 + c.oyEff.setWidth 9
  ox := c.oxEff.setWidth 9
  oy := c.oyEff.setWidth 9

/-- R146: the two bytes of every pair exchanged; a lone last byte is dropped (R148). -/
def swapPairs : List Byte → List Byte
  | a :: b :: r => b :: a :: swapPairs r
  | _ => []

/-- R167: a byte string cut into pieces of `n` bytes, the last one shorter; at most `fuel` pieces. -/
def cutChunks : Nat → Nat → List Byte → List (List Byte)
  | 0, _, _ => []
  | fuel + 1, n, s => if s = [] then [] else s.take n :: cutChunks fuel n (s.drop n)

/-- R166: the data strings of the burst of `s`: one string when `BURST_CHUNK` is 0, else pieces of
`BURST_CHUNK` bytes. -/
def burstChunks (n : Nat) (s : List Byte) : List (List Byte) :=
  if n = 0 then [s] else cutChunks s.length n s

/-- R41: the byte offset of pixel `(x, y)` of the logical screen. -/
def pixelOffset (c : Cfg) (x y : Nat) : Nat := 2 * (y * c.lw + x)

/-- R43: whether `(x, y)` lies inside the logical screen. -/
def onScreen (c : Cfg) (x y : Int) : Bool :=
  decide (0 ≤ x) && decide (x < c.lw) && decide (0 ≤ y) && decide (y < c.lh)

end Machine

end Sys2Proof
end

