-- ==== Sys2Proof/Machine/Ops.lean ====
section
/-! DEFINITION. The named operations every meaning is made of: memory, trace and pins, the delay, the bus
environment, taking an error, and the sequencing of sub-operations. -/

namespace Sys2Proof.Machine

/-! ## Memory (20_memory.md) -/

/-- The byte at an offset; `none` where nothing has been written (R36). -/
def Memory.read : Memory → Nat → Option Byte
  | [], _ => none
  | c :: m, a => if c.1 = a then some c.2 else Memory.read m a

/-- The memory with the byte at an offset replaced; the canonical form is kept. -/
def Memory.write : Memory → Nat → Byte → Memory
  | [], a, b => [(a, b)]
  | c :: m, a, b =>
    if a < c.1 then (a, b) :: c :: m
    else if c.1 = a then (a, b) :: m
    else c :: Memory.write m a b

/-- `MemRead(S:a, n)`: `n` bytes in address order; `none` when one of them was never written. -/
def Memory.readBytes (m : Memory) : Nat → Nat → Option (List Byte)
  | _, 0 => some []
  | a, n + 1 =>
    match m.read a with
    | none => none
    | some b => (m.readBytes (a + 1) n).map (b :: ·)

/-- `MemWrite(S:a, n, v)` for a byte string. -/
def Memory.writeBytes (m : Memory) : Nat → List Byte → Memory
  | _, [] => m
  | a, b :: s => (m.write a b).writeBytes (a + 1) s

/-- R45: a 16-bit word read little-endian. -/
def Memory.readWord (m : Memory) (a : Nat) : Option Colour :=
  match m.read a, m.read (a + 1) with
  | some lo, some hi => some (hi ++ lo)
  | _, _ => none

/-- R42, R45: a 16-bit word stored little-endian, `v[7:0]` at `a` and `v[15:8]` at `a + 1`. -/
def Memory.writeWord (m : Memory) (a : Nat) (v : Colour) : Memory :=
  (m.write a (v.extractLsb' 0 8)).write (a + 1) (v.extractLsb' 8 8)

/-- The memory of a space (R40). -/
def State.mem (s : State) : Space → Memory
  | .fb => s.fb
  | .tx => s.tx

/-- The state with the memory of a space replaced. -/
def State.setMem (s : State) : Space → Memory → State
  | .fb, m => { s with fb := m }
  | .tx, m => { s with tx := m }

/-! ## Trace and pins -/

/-- `emit(e)`: the event is appended to the trace (R27), and the pin it drives takes its level (R23 to R25). -/
def State.emit (s : State) (e : Event) : State :=
  match e with
  | .cs l => { s with cs := l, tr := s.tr ++ [e] }
  | .dc l => { s with dc := l, tr := s.tr ++ [e] }
  | .rst a => { s with rst := a, tr := s.tr ++ [e] }
  | .byte _ => { s with tr := s.tr ++ [e] }
  | .delay _ => { s with tr := s.tr ++ [e] }

/-- `for i in 0 .. len(s)-1: emit(BYTE(s[i]))` (R102). -/
def State.emitBytes (s : State) : List Byte → State
  | [] => s
  | b :: r => (s.emit (.byte b)).emitBytes r

/-- R25: the electrical level of the reset pin. -/
def State.rstLevel (s : State) : Level :=
  match s.rst with
  | .asserted => s.cfg.rstActiveLevel
  | .deasserted => ~~~s.cfg.rstActiveLevel

/-- `Delay(t)` (R32, R250): the timer is loaded, the wait is recorded whatever `t` is, and the sequencer goes
on when the timer has counted down to 0. -/
def State.delay (s : State) (t : Nat) : State :=
  { ({ s with dt := t } : State).emit (.delay t) with dt := 0 }

/-! ## The bus environment (R102) -/

/-- Whether the environment answers *fail* for the next transaction. -/
def State.busFails (s : State) : Bool :=
  match s.bus with
  | some f => decide (f.after = 0)
  | none => false

/-- How many of `n` bytes the environment lets out in the next transaction: all of them on *ok*, an
unconstrained prefix on *fail*. -/
def State.bytesOut (s : State) (n : Nat) : Nat :=
  match s.bus with
  | some f => if f.after = 0 then min f.sent n else n
  | none => n

/-- The schedule after one more successful transaction. -/
def State.busNext (s : State) : Option BusFailure :=
  match s.bus with
  | some f => some { f with after := f.after - 1 }
  | none => none

/-! ## Errors (60_exceptions.md) -/

/-- TAKING AN ERROR (R217): `ERR` records it and control goes back to the host; there is no vector, no saved
state and no mode change. `Dead` and `IllegalRequest` are raised at the handshake and change nothing but `ERR`
(R209, R211). The others end a running request, so `BUSY` returns to 0 (R206 to R208, R210). A transport
failure also sets `FATAL` (R206), and the pins have no defined level afterwards: each takes a free value (R102,
U3; log 6). There is no return instruction (R219): the next request is handled in the state left here. -/
def State.takeError (s : State) (e : Err) : State :=
  match e with
  | .dead => { s with err := .dead }
  | .illegalRequest => { s with err := .illegalRequest }
  | .transportFailure =>
    { s with
      err := .transportFailure, fatal := true, busy := false
      cs := Config.freeCs s.draws, dc := Config.freeDc s.draws, rst := Config.freeRst s.draws
      draws := s.draws + 1 }
  | .none => { s with err := .none, busy := false }
  | .notReady => { s with err := .notReady, busy := false }
  | .windowRange => { s with err := .windowRange, busy := false }
  | .badSwap => { s with err := .badSwap, busy := false }

/-- How a sub-operation ends. -/
inductive Result where
  /-- It ran to its end. -/
  | done (s : State)
  /-- It raised an error, which has been taken; the callers end too. -/
  | raised (s : State)
  /-- The machine stops. -/
  | fault (f : Fault)
  /-- The model gives no meaning. -/
  | refused (r : Refusal)
  deriving DecidableEq, Repr

/-- `call F; G`: an error raised inside `F` propagates out (00_scope.md section 6). -/
def Result.bind (r : Result) (k : State → Result) : Result :=
  match r with
  | .done s => k s
  | .raised s => .raised s
  | .fault f => .fault f
  | .refused x => .refused x

/-- `raise E`. -/
def State.raise (s : State) (e : Err) : Result := .raised (s.takeError e)

/-- The outcome of an operation run alone: an error that was taken is a next state. -/
def Result.toOutcome : Result → Host.Outcome State Fault Refusal
  | .done s => .next s
  | .raised s => .next s
  | .fault f => .fault f
  | .refused r => .refused r

/-- `Xfer(s)` (R102): the bytes that the environment lets out, then the failure if it answers *fail*. -/
def xfer (bytes : List Byte) (s : State) : Result :=
  if s.busFails then
    (s.emitBytes (bytes.take (s.bytesOut bytes.length))).raise .transportFailure
  else
    .done { s.emitBytes bytes with bus := s.busNext }

/-- One transaction (R70): select, mode, bytes, deselect, in this order (D3). After a failure `CS(1)` is not
emitted. -/
def transaction (mode : Level) (bytes : List Byte) (s : State) : Result :=
  (xfer bytes ((s.emit (.cs 0)).emit (.dc mode))).bind fun s1 => .done (s1.emit (.cs 1))

/-- A micro-operation or wire command run alone (log 11): an instance that met a fatal error emits nothing more
(R102) and answers `Dead` (R211). -/
def runAlone (op : State → Result) (s : State) : Host.Outcome State Fault Refusal :=
  if s.fatal then .next (s.takeError .dead) else (op s).toOutcome

end Sys2Proof.Machine
end

