-- ==== Sys2Proof/Machine/Flags.lean ====
section
/-! DEFINITION. Flags and status: `BUSY`, `ERR`, `STATE` and the one range check, and the window that the
trace says was sent last, with
the length it demands of its burst. The block has no arithmetic condition codes (R33). -/

namespace Sys2Proof.Machine

/-- R13, R214: the number in the three-bit field `ERR`. -/
def Err.code : Err → BitVec 3
  | .none => 0
  | .transportFailure => 1
  | .notReady => 2
  | .windowRange => 3
  | .illegalRequest => 4
  | .dead => 5
  | .badSwap => 6

/-- R11: the number in the two-bit field `STATE`. -/
def Ctrl.code : Ctrl → BitVec 2
  | .uninitialized => 0
  | .initializing => 1
  | .ready => 2

/-- R113: whether one of the four sums exceeds 255. -/
def WinRegs.outOfRange (x : WinRegs) : Bool :=
  decide (255 < x.wx0.toNat) || decide (255 < x.wy0.toNat) ||
  decide (255 < x.wx1.toNat) || decide (255 < x.wy1.toNat)

/-! ## The window sent last: a function of the trace (R31), kept in no register (log 30, log 31) -/

/-- What a trace has sent so far: the level of the mode line, and the commands with their data bytes, newest
first. -/
structure WireLog where
  mode : Level
  commands : List (Byte × List Byte)
  deriving DecidableEq, Repr

/-- One more event. A byte sent in command mode begins a command, one sent in data mode belongs to the newest
command (R70, R73). -/
def WireLog.add (w : WireLog) (e : Event) : WireLog :=
  match e with
  | .dc l => { w with mode := l }
  | .byte b =>
    if w.mode = 0 then { w with commands := (b, []) :: w.commands }
    else
      match w.commands with
      | [] => w
      | c :: r => { w with commands := (c.1, c.2 ++ [b]) :: r }
  | .cs _ => w
  | .rst _ => w
  | .delay _ => w

/-- What the whole trace has sent. -/
def wireLog (tr : List Event) : WireLog := tr.foldl WireLog.add ⟨0, []⟩

/-- The data bytes of the newest command `o`; none where it was never sent. -/
def newestPayload (o : Byte) : List (Byte × List Byte) → List Byte
  | [] => []
  | c :: r => if c.1 = o then c.2 else newestPayload o r

/-- Whether a payload carries two 16-bit big-endian bounds (R75, R76), the first above the second. -/
def boundsUnordered : List Byte → Bool
  | [h0, l0, h1, l1] => decide ((h1 ++ l1 : BitVec 16) < (h0 ++ l0 : BitVec 16))
  | _ => false

/-- R115: how many columns or rows the two 16-bit big-endian inclusive bounds of a payload span; `none` where it
carries no such bounds or they are unordered. -/
def boundsCount : List Byte → Option Nat
  | [h0, l0, h1, l1] =>
    if (h0 ++ l0 : BitVec 16).toNat ≤ (h1 ++ l1 : BitVec 16).toNat then
      some ((h1 ++ l1 : BitVec 16).toNat - (h0 ++ l0 : BitVec 16).toNat + 1)
    else none
  | _ => none

/-- R115: the bytes of the pixels of the window of these two payloads. -/
def windowCount (caset raset : List Byte) : Option Nat :=
  match boundsCount caset, boundsCount raset with
  | some columns, some rows => some (2 * (columns * rows))
  | _, _ => none

/-- R119: whether the window sent last has `x0 > x1` or `y0 > y1`. -/
def State.unordered (s : State) : Bool :=
  boundsUnordered (newestPayload 0x2A (wireLog s.tr).commands) ||
  boundsUnordered (newestPayload 0x2B (wireLog s.tr).commands)

/-- R115, R247: the length in bytes that the window sent last demands of a burst; `none` where no ordered window was
sent. -/
def State.windowBytes (s : State) : Option Nat :=
  windowCount (newestPayload 0x2A (wireLog s.tr).commands) (newestPayload 0x2B (wireLog s.tr).commands)

/-- R187: whether the newest two commands are CASET and then RASET. -/
def State.afterWindow (s : State) : Bool :=
  match (wireLog s.tr).commands with
  | r :: c :: _ => decide (r.1 = 0x2B) && decide (c.1 = 0x2A)
  | _ => false

/-- Whether a data transaction would be part of a burst: the newest command is RAMWR (R251). -/
def State.inBurst (s : State) : Bool :=
  match (wireLog s.tr).commands with
  | [] => false
  | c :: _ => decide (c.1 = 0x2C)

/-- R247: whether a data transaction of `n` bytes may be sent. In a burst into a window, one data transaction is the
whole burst where `BURST_CHUNK` is 0, and a chunk that must not pass its end where it is not (R166, R167). -/
def State.burstFits (s : State) (n : Nat) : Bool :=
  match (wireLog s.tr).commands, s.windowBytes with
  | c :: _, some m =>
    if c.1 = 0x2C then
      if s.cfg.burstChunk = 0 then decide (c.2.length + n = m) else decide (c.2.length + n ≤ m)
    else true
  | _, _ => true

/-- R156 (3): a request is accepted. -/
def State.accept (s : State) : State := { s with busy := true }

/-- R156 (3): a request ends without error. -/
def State.finish (s : State) : State := { s with err := .none, busy := false }

/-- The end of a request: `ERR` is 0 on success, else the error that was taken stands. -/
def Result.endRequest : Result → Host.Outcome State Fault Refusal
  | .done s => .next s.finish
  | .raised s => .next s
  | .fault f => .fault f
  | .refused r => .refused r

/-- R156: an accepted request, run to its end. While `BUSY` = 1 the host has no move (R22, U17); after a fatal
failure the request is refused with `Dead` (R211). -/
def request (body : State → Result) (s : State) : Host.Outcome State Fault Refusal :=
  if s.busy then .fault .hostWhileBusy
  else if s.fatal then .next (s.takeError .dead)
  else (body s.accept).endRequest

end Sys2Proof.Machine
end

