-- ==== Sys2Proof/Machine/CommandChannel.lean ====
section
/-! DEFINITION. CommandChannel: SEND_COMMAND and SEND_DATA (40_command_channel.md). -/

namespace Sys2Proof.Machine

/-- R100: one command byte, sent as it is. -/
def sendCommand (c : Byte) (s : State) : Result := transaction 0 [c] s

/-- R101: a byte string under one assertion of `CS`; `BI` counts the bytes that go out. A string of no byte is
refused (D5). `BI` at the end: DEDUCED (log 7). For a string of 2^18 bytes or more, which R9 (3) and D39 rule out
and R5 and R6 allow, `BI` holds the count modulo 2^18: DESIGN CHOICE, unsafe (log 29). -/
def sendData (bytes : List Byte) (s : State) : Result :=
  if bytes = [] then .refused .emptyData
  else transaction 1 bytes { s with bi := BitVec.ofNat 18 (s.bytesOut bytes.length) }

/-- R73: a wire command with its payload. -/
def sendWire (c : Byte) (payload : List Byte) (s : State) : Result :=
  (sendCommand c s).bind fun s1 => sendData payload s1

/-- The data transactions of a burst, one after another (R166, R167). -/
def sendAll : List (List Byte) → State → Result
  | [], s => .done s
  | d :: r, s => (sendData d s).bind fun s1 => sendAll r s1

/-- R166: the pixel burst, the whole of `TX` in increasing offset order. -/
def burst (s : State) : Result :=
  match s.tx.readBytes 0 s.cfg.nbytes with
  | none => .fault (.unwritten .tx)
  | some bytes => sendAll (burstChunks s.cfg.burstChunk bytes) s

/-- SEND_COMMAND, R100. -/
def execSendCommand (c : Byte) (s : State) : Host.Outcome State Fault Refusal :=
  runAlone (sendCommand c) s

/-- SEND_DATA, R101. In a burst that follows a window with `x0 > x1` or `y0 > y1` it is refused (R119, U11;
log 30), and so it is in a burst that would be of another length than the window sent last demands (R247, U11;
log 31). -/
def execSendData (bytes : List Byte) (s : State) : Host.Outcome State Fault Refusal :=
  runAlone (fun t =>
    if bytes ≠ [] ∧ t.inBurst = true ∧ t.unordered = true then .refused .unorderedWindow
    else if bytes ≠ [] ∧ t.burstFits bytes.length = false then .refused .burstLength
    else sendData bytes t) s

end Sys2Proof.Machine
end

