-- ==== Sys2Proof/Machine/AddressWindow.lean ====
section
/-! DEFINITION. AddressWindow: SET_WINDOW (41_address_window.md). -/

namespace Sys2Proof.Machine

/-- R112 steps 3 and 4: column-set, row-set, then the memory-write command; five transactions (R114). -/
def sendWindow (s : State) : Result :=
  (sendWire 0x2A (casetPayload s.x) s).bind fun s1 =>
    (sendWire 0x2B (rasetPayload s1.x) s1).bind fun s2 =>
      sendCommand 0x2C s2

/-- R112: all six working registers are written from `CFG` and the operands, the range is checked before
anything is emitted (R113), and the window is sent. The bounds are not compared with each other or with the
logical screen: the payloads are sent as computed (R119). -/
def setWindow (x0 y0 x1 y1 : Byte) (s : State) : Result :=
  let s1 : State := { s with x := windowRegs s.cfg x0 y0 x1 y1 }
  if s1.x.outOfRange then s1.raise .windowRange else sendWindow s1

/-- SET_WINDOW, R112. -/
def execSetWindow (x0 y0 x1 y1 : Byte) (s : State) : Host.Outcome State Fault Refusal :=
  runAlone (setWindow x0 y0 x1 y1) s

end Sys2Proof.Machine
end

