-- ==== Sys2Proof/Machine/Transcoder.lean ====
section
/-! DEFINITION. Transcoder: SWAP_BYTES (43_transcoder.md). -/

namespace Sys2Proof.Machine

/-- R146, in the closed form R150 allows. The preconditions of R147 (two distinct arrays, `n` within both) are
checked first; violated, they raise BAD_SWAP and nothing is written (R210; log 10). `2*floor(n/2)` bytes are
read and written, a lone last byte is neither read nor written (R148). `TI` ends at `2*floor(n/2)`. -/
def swapBytes (dst src : Space) (n : Nat) (s : State) : Result :=
  if dst = src ∨ s.cfg.nbytes < n then s.raise .badSwap
  else
    match (s.mem src).readBytes 0 (2 * (n / 2)) with
    | none => .fault (.unwritten src)
    | some bytes =>
      .done { s.setMem dst ((s.mem dst).writeBytes 0 (swapPairs bytes)) with
        tlen := BitVec.ofNat 18 n, ti := BitVec.ofNat 18 (2 * (n / 2)) }

/-- SWAP_BYTES, R146. -/
def execSwapBytes (dst src : Space) (n : BitVec 18) (s : State) : Host.Outcome State Fault Refusal :=
  runAlone (swapBytes dst src n.toNat) s

end Sys2Proof.Machine
end

