-- ==== Sys2Proof/Machine/DisplayController.lean ====
section
/-! DEFINITION. DisplayController: INIT, PRESENT and the initialisation ROM (44_display_controller.md). -/

namespace Sys2Proof.Machine

/-- A delay parameter name (R86). -/
inductive DelayParam where
  | rstAssert
  | rstRelease
  | swreset
  | slpout
  deriving DecidableEq, Repr

/-- An opcode of a `CMD` entry (R86): 8 bits, or the parameter `OPC_NORON`. -/
inductive CmdCode where
  | byte (o : Byte)
  | noron
  deriving DecidableEq, Repr

/-- The payload of a `DATA` entry (R86): a payload parameter, or a computed one-byte payload. -/
inductive PayloadParam where
  | frmctr1
  | frmctr2
  | frmctr3
  | invctr
  | pwctr1
  | pwctr2
  | pwctr3
  | pwctr4
  | pwctr5
  | vmctr1
  | madctlVal
  | colmod
  deriving DecidableEq, Repr

/-- An entry of the INIT ROM (R86). -/
inductive RomEntry where
  | rstAssert
  | rstDeassert
  | delay (p : DelayParam)
  | cmd (o : CmdCode)
  | data (p : PayloadParam)
  | clearFb
  | presentBody
  | stop
  deriving DecidableEq, Repr

/-- R158: the 38 entries, by `SEQ_PC`. -/
def rom : List RomEntry :=
  [.rstAssert, .delay .rstAssert, .rstDeassert, .delay .rstRelease,
   .cmd (.byte 0x01), .delay .swreset, .cmd (.byte 0x11), .delay .slpout,
   .cmd (.byte 0xB1), .data .frmctr1, .cmd (.byte 0xB2), .data .frmctr2,
   .cmd (.byte 0xB3), .data .frmctr3, .cmd (.byte 0xB4), .data .invctr,
   .cmd (.byte 0xC0), .data .pwctr1, .cmd (.byte 0xC1), .data .pwctr2,
   .cmd (.byte 0xC2), .data .pwctr3, .cmd (.byte 0xC3), .data .pwctr4,
   .cmd (.byte 0xC4), .data .pwctr5, .cmd (.byte 0xC5), .data .vmctr1,
   .cmd (.byte 0x20), .cmd (.byte 0x36), .data .madctlVal, .cmd (.byte 0x3A), .data .colmod,
   .cmd .noron, .cmd (.byte 0x29), .clearFb, .presentBody, .stop]

/-- The value of a delay parameter. -/
def DelayParam.value (c : Cfg) : DelayParam → Nat
  | .rstAssert => c.tRstAssert
  | .rstRelease => c.tRstRelease
  | .swreset => c.tSwreset
  | .slpout => c.tSlpout

/-- The opcode byte of a `CMD` entry. -/
def CmdCode.value (c : Cfg) : CmdCode → Byte
  | .byte o => o
  | .noron => c.opcNoron

/-- The bytes of a `DATA` entry. -/
def PayloadParam.value (c : Cfg) : PayloadParam → List Byte
  | .frmctr1 => c.pFrmctr1
  | .frmctr2 => c.pFrmctr2
  | .frmctr3 => c.pFrmctr3
  | .invctr => c.pInvctr
  | .pwctr1 => c.pPwctr1
  | .pwctr2 => c.pPwctr2
  | .pwctr3 => c.pPwctr3
  | .pwctr4 => c.pPwctr4
  | .pwctr5 => c.pPwctr5
  | .vmctr1 => c.pVmctr1
  | .madctlVal => madctlPayload c
  | .colmod => colmodPayload

/-- R165: every byte of `FB` becomes 0x00; no event. -/
def clearFb (s : State) : State :=
  { s with fb := s.fb.writeBytes 0 (List.replicate s.cfg.nbytes 0x00) }

/-- R164: the full-screen window (R117), the transcoding, the burst. -/
def presentBody (s : State) : Result :=
  (setWindow 0 0 (BitVec.ofNat 8 (s.cfg.lw - 1)) (BitVec.ofNat 8 (s.cfg.lh - 1)) s).bind fun s1 =>
    (swapBytes .tx .fb s1.cfg.nbytes s1).bind burst

/-- R159: what each kind of entry does. -/
def perform (e : RomEntry) (s : State) : Result :=
  match e with
  | .rstAssert => .done (s.emit (.rst .asserted))
  | .rstDeassert => .done (s.emit (.rst .deasserted))
  | .delay p => .done (s.delay (p.value s.cfg))
  | .cmd o => sendCommand (o.value s.cfg) s
  | .data p => sendData (p.value s.cfg) s
  | .clearFb => .done (clearFb s)
  | .presentBody => presentBody s
  | .stop => .done s

/-- R157's loop over the entries from `SEQ_PC` on (D36): `END` stops it, and every other entry that completes
without error advances `SEQ_PC` by one (R20). An error leaves `SEQ_PC` at the failing entry (R162). -/
def runRom : List RomEntry → State → Result
  | [], s => .done s
  | e :: r, s =>
    if e = .stop then .done s
    else (perform e s).bind fun s1 => runRom r { s1 with seqPc := s1.seqPc + 1 }

/-- R157: the initialisation sequence. It has no test of `STATE`: DEDUCED (log 17). -/
def initBody (s : State) : Result :=
  (runRom rom { s with ctrl := .initializing, seqPc := 0 }).bind fun s1 => .done { s1 with ctrl := .ready }

/-- R163: only valid in Ready state. -/
def presentRequest (s : State) : Result :=
  if s.ctrl = .ready then presentBody s else s.raise .notReady

/-- INIT, R157. -/
def execInit (s : State) : Host.Outcome State Fault Refusal := request initBody s

/-- PRESENT, R163. -/
def execPresent (s : State) : Host.Outcome State Fault Refusal := request presentRequest s

end Sys2Proof.Machine
end

