-- ==== Sys2Proof/Machine/WireCommands.lean ====
section
/-! DEFINITION. The wire command set (45_wire_commands.md): what the block puts on the wire for each command,
with the settle delay that its rule makes follow it (log 18). -/

namespace Sys2Proof.Machine

/-- R180: `CMD(0x01)`, then the settle delay. -/
def execSwreset (s : State) : Host.Outcome State Fault Refusal :=
  runAlone (fun t => (sendCommand 0x01 t).bind fun u => .done (u.delay u.cfg.tSwreset)) s

/-- R181: `CMD(0x11)`, then the long settle delay. -/
def execSlpout (s : State) : Host.Outcome State Fault Refusal :=
  runAlone (fun t => (sendCommand 0x11 t).bind fun u => .done (u.delay u.cfg.tSlpout)) s

/-- R182: `CMD(OPC_NORON)`. -/
def execNoron (s : State) : Host.Outcome State Fault Refusal :=
  runAlone (sendCommand s.cfg.opcNoron) s

/-- R183. -/
def execInvoff (s : State) : Host.Outcome State Fault Refusal :=
  runAlone (sendCommand 0x20) s

/-- R184. -/
def execDispon (s : State) : Host.Outcome State Fault Refusal :=
  runAlone (sendCommand 0x29) s

/-- R185, R75: the column bounds of the working registers. Run alone while a register is above 255 (a
`WindowRange` leaves it so, R113), it sends the low 8 bits: DESIGN CHOICE, unsafe (log 28). -/
def execCaset (s : State) : Host.Outcome State Fault Refusal :=
  runAlone (sendWire 0x2A (casetPayload s.x)) s

/-- R186, R76: the row bounds of the working registers. A register above 255: as `execCaset` (log 28). -/
def execRaset (s : State) : Host.Outcome State Fault Refusal :=
  runAlone (sendWire 0x2B (rasetPayload s.x)) s

/-- R187, R73, R166: `CMD(0x2C)`, then the burst. After a window with `x0 > x1` or `y0 > y1` it is refused (R119,
U11; log 30), and so it is where no CASET and RASET are directly before it (R187), or they demand a burst of another
length than `NBYTES` (R247, U11; log 31). -/
def execRamwr (s : State) : Host.Outcome State Fault Refusal :=
  runAlone (fun t =>
    if t.unordered then .refused .unorderedWindow
    else if t.afterWindow = false then .refused .noWindow
    else if t.windowBytes ≠ some t.cfg.nbytes then .refused .burstLength
    else (sendCommand 0x2C t).bind burst) s

/-- R188. -/
def execMadctl (s : State) : Host.Outcome State Fault Refusal :=
  runAlone (sendWire 0x36 (madctlPayload s.cfg)) s

/-- R189. -/
def execColmod (s : State) : Host.Outcome State Fault Refusal :=
  runAlone (sendWire 0x3A colmodPayload) s

/-- R190. -/
def execFrmctr1 (s : State) : Host.Outcome State Fault Refusal :=
  runAlone (sendWire 0xB1 s.cfg.pFrmctr1) s

/-- R191. -/
def execFrmctr2 (s : State) : Host.Outcome State Fault Refusal :=
  runAlone (sendWire 0xB2 s.cfg.pFrmctr2) s

/-- R192. -/
def execFrmctr3 (s : State) : Host.Outcome State Fault Refusal :=
  runAlone (sendWire 0xB3 s.cfg.pFrmctr3) s

/-- R193. -/
def execInvctr (s : State) : Host.Outcome State Fault Refusal :=
  runAlone (sendWire 0xB4 s.cfg.pInvctr) s

/-- R194. -/
def execPwctr1 (s : State) : Host.Outcome State Fault Refusal :=
  runAlone (sendWire 0xC0 s.cfg.pPwctr1) s

/-- R195. -/
def execPwctr2 (s : State) : Host.Outcome State Fault Refusal :=
  runAlone (sendWire 0xC1 s.cfg.pPwctr2) s

/-- R196. -/
def execPwctr3 (s : State) : Host.Outcome State Fault Refusal :=
  runAlone (sendWire 0xC2 s.cfg.pPwctr3) s

/-- R197. -/
def execPwctr4 (s : State) : Host.Outcome State Fault Refusal :=
  runAlone (sendWire 0xC3 s.cfg.pPwctr4) s

/-- R198. -/
def execPwctr5 (s : State) : Host.Outcome State Fault Refusal :=
  runAlone (sendWire 0xC4 s.cfg.pPwctr5) s

/-- R199. -/
def execVmctr1 (s : State) : Host.Outcome State Fault Refusal :=
  runAlone (sendWire 0xC5 s.cfg.pVmctr1) s

end Sys2Proof.Machine
end

