-- ==== Sys2Proof/Machine/Dispatch.lean ====
section
/-! DEFINITION. exec: one arm per row of spec/opcode_table.json. -/

namespace Sys2Proof.Machine

def exec (i : Instr) (s : State) : Host.Outcome State Fault Refusal :=
  match i with
  | .swreset => Sys2Proof.Machine.execSwreset s
  | .slpout => Sys2Proof.Machine.execSlpout s
  | .noron => Sys2Proof.Machine.execNoron s
  | .invoff => Sys2Proof.Machine.execInvoff s
  | .dispon => Sys2Proof.Machine.execDispon s
  | .caset => Sys2Proof.Machine.execCaset s
  | .raset => Sys2Proof.Machine.execRaset s
  | .ramwr => Sys2Proof.Machine.execRamwr s
  | .madctl => Sys2Proof.Machine.execMadctl s
  | .colmod => Sys2Proof.Machine.execColmod s
  | .frmctr1 => Sys2Proof.Machine.execFrmctr1 s
  | .frmctr2 => Sys2Proof.Machine.execFrmctr2 s
  | .frmctr3 => Sys2Proof.Machine.execFrmctr3 s
  | .invctr => Sys2Proof.Machine.execInvctr s
  | .pwctr1 => Sys2Proof.Machine.execPwctr1 s
  | .pwctr2 => Sys2Proof.Machine.execPwctr2 s
  | .pwctr3 => Sys2Proof.Machine.execPwctr3 s
  | .pwctr4 => Sys2Proof.Machine.execPwctr4 s
  | .pwctr5 => Sys2Proof.Machine.execPwctr5 s
  | .vmctr1 => Sys2Proof.Machine.execVmctr1 s
  | .init => Sys2Proof.Machine.execInit s
  | .present => Sys2Proof.Machine.execPresent s
  | .sendCommand c => Sys2Proof.Machine.execSendCommand c s
  | .sendData bytes => Sys2Proof.Machine.execSendData bytes s
  | .setWindow x0 y0 x1 y1 => Sys2Proof.Machine.execSetWindow x0 y0 x1 y1 s
  | .swapBytes dst src n => Sys2Proof.Machine.execSwapBytes dst src n s

end Sys2Proof.Machine
end

