-- ==== Sys2Proof/Machine/FrameBuffer.lean ====
section
/-! DEFINITION. The host's access to the frame buffer: FbWrite, FbRead and the drawing primitives
(20_memory.md R43, R44; 42_framebuffer.md). -/

namespace Sys2Proof.Machine

/-- R43: one pixel, clipped. -/
def fbWrite (x y : Int) (c : Colour) (s : State) : State :=
  if onScreen s.cfg x y then
    { s with fb := s.fb.writeWord (pixelOffset s.cfg x.toNat y.toNat) c }
  else s

/-- `for i in 0 .. n-1` over a signed bound: no iteration when `n <= 0`. -/
def forUpTo (n : Int) (body : Int → State → State) (s : State) : State :=
  (List.range n.toNat).foldl (fun t (i : Nat) => body i t) s

/-- R128. -/
def drawHline (x y w : Int) (c : Colour) (s : State) : State :=
  forUpTo w (fun i => fbWrite (x + i) y c) s

/-- R129. -/
def drawVline (x y h : Int) (c : Colour) (s : State) : State :=
  forUpTo h (fun j => fbWrite x (y + j) c) s

/-- R132. -/
def drawFillRect (x y w h : Int) (c : Colour) (s : State) : State :=
  forUpTo h (fun j => drawHline x (y + j) w c) s

/-- R126. -/
def drawFill (c : Colour) (s : State) : State :=
  forUpTo s.cfg.lh (fun y => forUpTo s.cfg.lw (fun x => fbWrite x y c)) s

/-- R131. -/
def drawRect (x y w h : Int) (c : Colour) (s : State) : State :=
  if w ≤ 0 ∨ h ≤ 0 then s
  else
    drawVline (x + w - 1) y h c (drawVline x y h c (drawHline x (y + h - 1) w c (drawHline x y w c s)))

/-- R130's loop; `fuel` is the number of pixels still to visit. -/
def lineLoop (dx dy sx sy x1 y1 : Int) (c : Colour) : Nat → Int → Int → Int → State → State
  | 0, _, _, _, s => s
  | fuel + 1, x0, y0, err, s =>
    let s1 := fbWrite x0 y0 c s
    if x0 = x1 ∧ y0 = y1 then s1
    else
      let e2 := 2 * err
      let stepX := decide (dy ≤ e2)
      let stepY := decide (e2 ≤ dx)
      let err1 := if stepX then err + dy else err
      let err2 := if stepY then err1 + dx else err1
      lineLoop dx dy sx sy x1 y1 c fuel (if stepX then x0 + sx else x0) (if stepY then y0 + sy else y0) err2 s1

/-- R130: the variant of D30. It visits `max(|x1-x0|, |y1-y0|) + 1` pixels, which bounds the loop. -/
def drawLine (x0 y0 x1 y1 : Int) (c : Colour) (s : State) : State :=
  let dx : Int := (x1 - x0).natAbs
  let dy : Int := -((y1 - y0).natAbs : Int)
  let sx : Int := if x0 < x1 then 1 else -1
  let sy : Int := if y0 < y1 then 1 else -1
  lineLoop dx dy sx sy x1 y1 c (max (x1 - x0).natAbs (y1 - y0).natAbs + 1) x0 y0 (dx + dy) s

/-- R136: the set pixels of one glyph whose top-left pixel is `(x, y)`, in 8 rows and `GLYPH_W` (1..8) columns. -/
def drawGlyph (ch : Nat) (x y : Int) (c : Colour) (s : State) : State :=
  forUpTo 8 (fun r => forUpTo s.cfg.glyphW.val (fun q t =>
    if t.cfg.fontAt ch r.toNat q.toNat then fbWrite (x + q) (y + r) c t else t)) s

/-- R136: the characters in order, advancing by `GLYPH_ADV`. -/
def drawText : List Nat → Int → Int → Colour → State → State
  | [], _, _, _, s => s
  | ch :: r, x, y, c, s => drawText r (x + s.cfg.glyphAdv) y c (drawGlyph ch x y c s)

/-- A drawing primitive (R125): it changes nothing but `FB`, emits nothing and raises nothing. -/
def draw (d : Draw) (s : State) : State :=
  match d with
  | .fill c => drawFill c s
  | .pixel x y c => fbWrite x y c s
  | .hline x y w c => drawHline x y w c s
  | .vline x y h c => drawVline x y h c s
  | .line x0 y0 x1 y1 c => drawLine x0 y0 x1 y1 c s
  | .rect x y w h c => drawRect x y w h c s
  | .fillRect x y w h c => drawFillRect x y w h c s
  | .text str x y c => drawText str x y c s

/-- R44: the word of one pixel goes back to the host; outside the screen the read is refused. -/
def fbRead (x y : Int) (s : State) : Host.Outcome State Fault Refusal :=
  if onScreen s.cfg x y then
    match s.fb.readWord (pixelOffset s.cfg x.toNat y.toNat) with
    | some v => .next { s with readData := some v }
    | none => .fault (.unwritten .fb)
  else .refused .readOutside

end Sys2Proof.Machine
end

