-- ==== Sys2Proof/Machine/Requests.lean ====
section
/-! DEFINITION. The host's actions (R156, R226) and the stand-alone dispatch. -/

namespace Sys2Proof.Machine

/-- R156: the request handshake, in the order of R216: no move while `BUSY` = 1, then `Dead`, then
`IllegalRequest` (R83, R209), then the operation. -/
def handshake (code : BitVec 4) (s : State) : Host.Outcome State Fault Refusal :=
  if s.busy then .fault .hostWhileBusy
  else if s.fatal then .next (s.takeError .dead)
  else
    match decodeRequest code with
    | some i => exec i s
    | none => .next (s.takeError .illegalRequest)

/-- Fetch, decode and execute: the operation that begins the bytes of a dispatch. -/
def dispatchBytes (f : Format) (bytes : List Byte) (s : State) : Host.Outcome State Fault Refusal :=
  match decode f bytes with
  | .ok i _ => exec i s
  | .error e => .refused (.undecodable e)

/-- One action. The host touches `FB` only while `BUSY` = 0 (R46), whatever `STATE` and `FATAL` are. DESIGN CHOICE
(log 25). -/
def act (a : Action) (s : State) : Host.Outcome State Fault Refusal :=
  match a with
  | .request code => handshake code s
  | .draw d => if s.busy then .fault .hostWhileBusy else .next (draw d s)
  | .fbWrite x y c => if s.busy then .fault .hostWhileBusy else .next (fbWrite x y c s)
  | .fbRead x y => if s.busy then .fault .hostWhileBusy else fbRead x y s
  | .dispatch f bytes => dispatchBytes f bytes s

/-- The step of a well-formed instance: the oldest pending action; with none pending, nothing happens (R237; log 14). -/
def nextAction (s : State) : Host.Outcome State Fault Refusal :=
  match s.inbox with
  | [] => .next s
  | a :: r => act a { s with inbox := r }

/-- The state with the bytes of one operation placed at the head of the pending actions. -/
def placeDispatch (s : State) (f : Format) (bytes : List Byte) : State :=
  { s with inbox := .dispatch f bytes :: s.inbox }

end Sys2Proof.Machine
end

