-- ==== Sys2Proof/Machine/Step.lean ====
section
/-! DEFINITION. The step: one pending action of a well-formed instance. -/

namespace Sys2Proof.Machine

/-- One step. An instance whose configuration is not well formed does not exist, and the model gives it no
behaviour (R6; log 16). -/
def step (s : State) : Host.Outcome State Fault Refusal :=
  if s.cfg.ok then nextAction s else .refused .badConfig

/-- `s` with the instruction of a table word placed where the step takes its next one from (log 15). -/
def State.withFetchWord (s : State) (nbits w : Nat) : State :=
  placeDispatch s (tableFormat nbits w) (tableBytes nbits w)

end Sys2Proof.Machine
end

