-- ==== Sys2Proof/Safety.lean ====
section
/-! DEFINITION. The terms claims are stated in: event sequences, the bus environment's answers, framing of the
trace, and the invariant of the machine. -/

namespace Sys2Proof

/-- R167: how many data transactions the burst is: one, or `ceil(NBYTES / BURST_CHUNK)`. -/
def Cfg.burstCount (c : Cfg) : Nat :=
  if c.burstChunk = 0 then 1 else (c.nbytes + c.burstChunk - 1) / c.burstChunk

/-- R167: the length of the burst's last data transaction. -/
def Cfg.lastChunk (c : Cfg) : Nat :=
  if c.burstChunk = 0 then c.nbytes else c.nbytes - (c.burstCount - 1) * c.burstChunk

namespace Machine

/-! ## Event sequences (45_wire_commands.md) -/

/-- `CMD(o)`. -/
def cmdEvents (o : Byte) : List Event := [.cs 0, .dc 0, .byte o, .cs 1]

/-- `DAT(b0,...,bn)`. -/
def datEvents (s : List Byte) : List Event := [.cs 0, .dc 1] ++ s.map .byte ++ [.cs 1]

/-- The events of a wire command with its payload (R73). -/
def wireEvents (o : Byte) (payload : List Byte) : List Event := cmdEvents o ++ datEvents payload

/-- R114: the events of one `SET_WINDOW` whose working registers are `x`. -/
def windowEvents (x : WinRegs) : List Event :=
  wireEvents 0x2A (casetPayload x) ++ wireEvents 0x2B (rasetPayload x) ++ cmdEvents 0x2C

/-- R166, R167: the events of the burst of the bytes `s`. -/
def burstEvents (c : Cfg) (s : List Byte) : List Event := (burstChunks c.burstChunk s).flatMap datEvents

/-- R117: the working registers of the full-screen window. -/
def fullWindow (c : Cfg) : WinRegs :=
  windowRegs c 0 0 (BitVec.ofNat 8 (c.lw - 1)) (BitVec.ofNat 8 (c.lh - 1))

/-- R164: the events of a present whose transcoded bytes are `s`. -/
def presentEvents (c : Cfg) (s : List Byte) : List Event := windowEvents (fullWindow c) ++ burstEvents c s

/-- R158, R159: the events of ROM entries 0 to 7. -/
def resetEvents (c : Cfg) : List Event :=
  [.rst .asserted, .delay c.tRstAssert, .rst .deasserted, .delay c.tRstRelease] ++
  cmdEvents 0x01 ++ [.delay c.tSwreset] ++ cmdEvents 0x11 ++ [.delay c.tSlpout]

/-- R158, R159: the events of ROM entries 8 to 15. -/
def frameRateEvents (c : Cfg) : List Event :=
  wireEvents 0xB1 c.pFrmctr1 ++ wireEvents 0xB2 c.pFrmctr2 ++ wireEvents 0xB3 c.pFrmctr3 ++
  wireEvents 0xB4 c.pInvctr

/-- R158, R159: the events of ROM entries 16 to 27. -/
def powerEvents (c : Cfg) : List Event :=
  wireEvents 0xC0 c.pPwctr1 ++ wireEvents 0xC1 c.pPwctr2 ++ wireEvents 0xC2 c.pPwctr3 ++
  wireEvents 0xC3 c.pPwctr4 ++ wireEvents 0xC4 c.pPwctr5 ++ wireEvents 0xC5 c.pVmctr1

/-- R158, R159: the events of ROM entries 28 to 34. -/
def modeEvents (c : Cfg) : List Event :=
  cmdEvents 0x20 ++ wireEvents 0x36 [c.madctlVal] ++ wireEvents 0x3A [0x05] ++
  cmdEvents c.opcNoron ++ cmdEvents 0x29

/-- R158, R159: the events of ROM entries 0 to 34. -/
def setupEvents (c : Cfg) : List Event :=
  resetEvents c ++ frameRateEvents c ++ powerEvents c ++ modeEvents c

/-- R170: the exact event list of a complete INIT. -/
def initEvents (c : Cfg) : List Event := setupEvents c ++ presentEvents c (List.replicate c.nbytes 0x00)

/-- The bytes of an event sequence sent while the mode line is at level `m`; `cur` is the level before the
sequence. -/
def bytesInMode (m : Level) : Level → List Event → List Byte
  | _, [] => []
  | _, .dc l :: r => bytesInMode m l r
  | cur, .byte b :: r => if cur = m then b :: bytesInMode m cur r else bytesInMode m cur r
  | cur, .cs _ :: r => bytesInMode m cur r
  | cur, .rst _ :: r => bytesInMode m cur r
  | cur, .delay _ :: r => bytesInMode m cur r

/-- The command bytes of an event sequence (R70: mode 0). -/
def commandBytes (e : List Event) : List Byte := bytesInMode 0 1 e

/-- The data bytes of an event sequence (R70: mode 1). -/
def dataBytes (e : List Event) : List Byte := bytesInMode 1 0 e

/-- R102: what reaches the trace of an event sequence when `k` of its transactions succeed and the next one
fails after `j` of its bytes: its later bytes, its `CS(1)` and everything after are missing. -/
def cutEvents : Nat → Nat → List Event → List Event
  | _, _, [] => []
  | 0, j, .cs l :: r => if l = 1 then [] else .cs l :: cutEvents 0 j r
  | k + 1, j, .cs l :: r => if l = 1 then .cs l :: cutEvents k j r else .cs l :: cutEvents (k + 1) j r
  | 0, 0, .byte _ :: r => cutEvents 0 0 r
  | 0, j + 1, .byte b :: r => .byte b :: cutEvents 0 j r
  | k + 1, j, .byte b :: r => .byte b :: cutEvents (k + 1) j r
  | k, j, .dc m :: r => .dc m :: cutEvents k j r
  | k, j, .rst a :: r => .rst a :: cutEvents k j r
  | k, j, .delay t :: r => .delay t :: cutEvents k j r

/-- R162: the ROM entry that performs transaction `k` (from 0) of an INIT: entries 4 and 6, then 8 to 34, then
the closing present. -/
def entryOfTransaction (k : Nat) : Nat :=
  if k = 0 then 4 else if k = 1 then 6 else if k < 29 then k + 6 else 36

/-! ## The bus environment -/

/-- Whether a schedule answers *ok* for the next `n` transactions. -/
def busAllows : Option BusFailure → Nat → Bool
  | some f, n => decide (n ≤ f.after)
  | none, _ => true

/-- A schedule after `n` successful transactions. -/
def busDrop : Option BusFailure → Nat → Option BusFailure
  | some f, n => some { f with after := f.after - n }
  | none, _ => none

/-- The environment answers *ok* for the next `n` transactions. -/
def State.busOk (s : State) (n : Nat) : Bool := busAllows s.bus n

/-- The schedule after `n` successful transactions. -/
def State.busAfter (s : State) (n : Nat) : Option BusFailure := busDrop s.bus n

/-! ## Framing of the trace (R103) -/

/-- Where a trace stands: between transactions, after `CS(0)`, or inside a transaction after `DC`. -/
inductive Phase where
  | idle
  | selected
  | opened
  deriving DecidableEq, Repr

/-- R70, R103: one event; `none` where the discipline forbids it. -/
def Phase.next : Phase → Event → Option Phase
  | .idle, .cs l => if l = 0 then some .selected else none
  | .idle, .delay _ => some .idle
  | .idle, .rst _ => some .idle
  | .idle, .dc _ => none
  | .idle, .byte _ => none
  | .selected, .dc _ => some .opened
  | .selected, .cs _ => none
  | .selected, .byte _ => none
  | .selected, .delay _ => none
  | .selected, .rst _ => none
  | .opened, .byte _ => some .opened
  | .opened, .cs l => if l = 1 then some .idle else none
  | .opened, .dc _ => none
  | .opened, .delay _ => none
  | .opened, .rst _ => none

/-- The phase after a sequence of events, `none` when the discipline is broken somewhere. -/
def Phase.after : Phase → List Event → Option Phase
  | p, [] => some p
  | p, e :: r =>
    match p.next e with
    | some q => q.after r
    | none => none

/-! ## The frame buffer -/

/-- The colour of pixel `(x, y)` of `FB`, none where it was never written (R41, R44). -/
def State.pixel (s : State) (x y : Nat) : Option Colour := s.fb.readWord (pixelOffset s.cfg x y)

/-- Every byte of `FB` holds a value. -/
def State.fbFull (s : State) : Prop := ∀ a, a < s.cfg.nbytes → (s.fb.read a).isSome = true

/-- Every byte a memory lists lies inside a space of `n` bytes (R40). -/
def Memory.within (m : Memory) (n : Nat) : Prop := ∀ c ∈ m, c.1 < n

/-! ## The invariant -/

/-- What holds between any two host actions. -/
structure State.Inv (s : State) : Prop where
  /-- R6: only well-formed instances exist. -/
  cfgOk : s.cfg.ok = true
  /-- R22: no operation is running between steps. -/
  notBusy : s.busy = false
  /-- R161: Initializing is seen only after a failed INIT. -/
  initializingFatal : s.ctrl = .initializing → s.fatal = true
  /-- R12, R13: `FATAL` goes with TRANSPORT_FAILURE, then DEAD. -/
  fatalErr : s.fatal = true ↔ (s.err = .transportFailure ∨ s.err = .dead)
  /-- R23: between transactions `CS` is deasserted. -/
  csIdle : s.fatal = false → s.cs = 1
  /-- R25, R160: outside INIT the reset line is deasserted. -/
  rstIdle : s.fatal = false → s.rst = .deasserted
  /-- R32: no delay is running. -/
  timerIdle : s.dt = 0
  /-- R20: `SEQ_PC` holds 0 to 37. -/
  pcRange : s.seqPc.toNat ≤ 37
  /-- Canonical form of `FB`. -/
  fbWf : s.fb.wf
  /-- Canonical form of `TX`. -/
  txWf : s.tx.wf
  /-- R28, R43: `FB` has bytes only at offsets below `NBYTES`. -/
  fbWithin : s.fb.within s.cfg.nbytes
  /-- R29: the same of `TX`. -/
  txWithin : s.tx.within s.cfg.nbytes
  /-- R36, R240: in Ready every byte of `FB` holds a value. -/
  readyFull : s.ctrl = .ready → s.fbFull
  /-- R103: the trace is framed, closed unless a transport failure cut its last transaction. -/
  framed : Phase.idle.after s.tr = some (if s.fatal then .opened else .idle)

end Machine

end Sys2Proof
end

