-- ==== Sys2Proof/Certificates/Slice0/Obligations.lean ====
section
/-! DEFINITION. The statements for the provers, each from the rules of spec/ its docstring names. -/

open Sys2Proof Sys2Proof.Machine

/-! ## Configuration (10_state.md R14 to R18, 30_encoding.md R79, R80, 00_scope.md R6) -/

/-- R14, R15, R16, R17. That an invalid rotation exchanges nothing is the inference R14 marks as derived from
R15. -/
def Obligations.DerivedRotationSizeAndOffset : Prop :=
  ∀ c : Cfg,
    ((c.rotation = 0 ∨ c.rotation = 90 ∨ c.rotation = 180 ∨ c.rotation = 270) → c.rotEff = c.rotation) ∧
    (¬(c.rotation = 0 ∨ c.rotation = 90 ∨ c.rotation = 180 ∨ c.rotation = 270) →
      c.rotEff = 0 ∧ c.swapped = false) ∧
    (c.swapped = true → c.lw = c.h ∧ c.lh = c.w ∧ c.oxEff = c.offsetY ∧ c.oyEff = c.offsetX) ∧
    (c.swapped = false → c.lw = c.w ∧ c.lh = c.h ∧ c.oxEff = c.offsetX ∧ c.oyEff = c.offsetY)

/-- R15. The third clause, bit 5 of MADCTL_VAL, is the inference R15 marks as derived from R80. -/
def Obligations.SwappedIsBitFiveOfMadctl : Prop :=
  ∀ c : Cfg,
    (c.swapped = true ↔ c.rotation = 90 ∨ c.rotation = 270) ∧
    (c.swapped = true ↔ c.rotEff = 90 ∨ c.rotEff = 270) ∧
    c.madctlVal.getLsbD 5 = c.swapped

/-- R18. -/
def Obligations.FrameSizeIgnoresRotation : Prop :=
  ∀ c : Cfg,
    c.npix = c.w * c.h ∧ c.nbytes = 2 * c.npix ∧ c.lw * c.lh = c.w * c.h ∧
    (c.w ≤ 256 → c.h ≤ 256 → c.nbytes ≤ 131072 ∧ c.nbytes < 2 ^ 18)

/-- R80: the table, row by row; the last clause is the closed form, an inference R80 marks as derived from the
table. -/
def Obligations.MadctlLookupTable : Prop :=
  ∀ c : Cfg,
    (c.rotation = 0 → c.madctlVal = if c.colorOrder = .bgr then 0xC8 else 0xC0) ∧
    (c.rotation = 90 → c.madctlVal = if c.colorOrder = .bgr then 0x68 else 0x60) ∧
    (c.rotation = 180 → c.madctlVal = if c.colorOrder = .bgr then 0x08 else 0x00) ∧
    (c.rotation = 270 → c.madctlVal = if c.colorOrder = .bgr then 0xA8 else 0xA0) ∧
    (c.rotation ≠ 0 → c.rotation ≠ 90 → c.rotation ≠ 180 → c.rotation ≠ 270 →
      c.madctlVal = if c.colorOrder = .bgr then 0xC8 else 0xC0) ∧
    c.madctlVal = c.madctlBase ||| (if c.colorOrder = .bgr then 0x08 else 0x00)

/-- R6: the conditions of CFG_OK one by one, and that an instance that breaks them is given no behaviour. -/
def Obligations.IllFormedConfigurationRefused : Prop :=
  (∀ c : Cfg, c.ok = true ↔
    (1 ≤ c.w ∧ c.w ≤ 256) ∧ (1 ≤ c.h ∧ c.h ≤ 256) ∧
    c.lw - 1 + c.oxEff.toNat ≤ 255 ∧ c.lh - 1 + c.oyEff.toNat ≤ 255 ∧
    c.pFrmctr1 ≠ [] ∧ c.pFrmctr2 ≠ [] ∧ c.pFrmctr3 ≠ [] ∧ c.pInvctr.length = 1 ∧
    c.pPwctr1 ≠ [] ∧ c.pPwctr2 ≠ [] ∧ c.pPwctr3 ≠ [] ∧ c.pPwctr4 ≠ [] ∧ c.pPwctr5 ≠ [] ∧
    c.pVmctr1.length = 1) ∧
  ∀ s : State, s.cfg.ok = false → step s = .refused .badConfig

/-! ## Reset (R36, R235, R237) -/

/-- R36, R235: the values the spec gives. The registers R36 leaves without value are not mentioned: their reset
value is the model's (log 2, log 3). -/
def Obligations.ConstructionLeavesTheResetValues : Prop :=
  ∀ c : Cfg,
    (State.construct c).cfg = c ∧ (State.construct c).ctrl = .uninitialized ∧
    (State.construct c).fatal = false ∧ (State.construct c).err = .none ∧ (State.construct c).busy = false ∧
    (State.construct c).seqPc = 0 ∧ (State.construct c).dt = 0 ∧ (State.construct c).cs = 1 ∧
    (State.construct c).rst = .deasserted ∧ (State.construct c).tr = [] ∧
    (∀ a, (State.construct c).fb.read a = none) ∧ (∀ a, (State.construct c).tx.read a = none)

/-- R237: nothing happens until the host asks for something. -/
def Obligations.NothingHappensUnasked : Prop :=
  ∀ s : State, s.cfg.ok = true → s.inbox = [] → step s = .next s

/-! ## Encoding (30_encoding.md R74, R82, R83) -/

/-- No bit of an encoding is dropped. The layout of the operands is the model's (log 12). -/
def Obligations.DecodeOfEncode : Prop :=
  ∀ (i : Instr) (rest : List Byte), i.wf = true → decode i.format (encode i ++ rest) = .ok i rest

/-- Where decoding succeeds, the bytes are the encoding of what it gives. -/
def Obligations.DecodedBytesAreTheEncoding : Prop :=
  ∀ (f : Format) (bytes : List Byte) (i : Instr) (rest : List Byte),
    decode f bytes = .ok i rest → i.wf = true ∧ i.format = f ∧ bytes = encode i ++ rest

/-- R74, R82: words written out from the tables. -/
def Obligations.TableWordsDecode : Prop :=
  decodeTableWord 8 0b00000001 = some .swreset ∧ decodeTableWord 8 0b00101010 = some .caset ∧
  decodeTableWord 8 0b10110001 = some .frmctr1 ∧ decodeTableWord 8 0b11000101 = some .vmctr1 ∧
  decodeTableWord 4 0b0001 = some .init ∧ decodeTableWord 4 0b0010 = some .present ∧
  decodeTableWord 4 0b1110 = some (.setWindow 0 0 0 0) ∧
  decodeTableWord 4 0b1111 = some (.swapBytes .tx .fb 0) ∧
  decodeTableWord 8 0b00000000 = none ∧ decodeTableWord 8 0b11000110 = none

/-! ## The step and the request handshake (R156, R216) -/

/-- The dispatch of one operation (log 11) runs the operation its bytes decode to, and a table word placed by
withFetchWord is the next thing to run (log 15). -/
def Obligations.StepRunsDecodedInstruction : Prop :=
  ∀ s : State, s.cfg.ok = true →
    (∀ (f : Format) (bytes rest : List Byte) (i : Instr) (r : List Action),
      s.inbox = .dispatch f bytes :: r → decode f bytes = .ok i rest → step s = exec i { s with inbox := r }) ∧
    ∀ (nbits w : Nat) (i : Instr), decodeTableWord nbits w = some i → step (s.withFetchWord nbits w) = exec i s

/-- R156, R82: the request codes 0x1 and 0x2 run INIT and PRESENT. -/
def Obligations.RequestCodesRunInitAndPresent : Prop :=
  ∀ (s : State) (r : List Action), s.cfg.ok = true → s.busy = false → s.fatal = false →
    (s.inbox = .request 0x1 :: r → step s = exec .init { s with inbox := r }) ∧
    (s.inbox = .request 0x2 :: r → step s = exec .present { s with inbox := r })

/-- R209: an unassigned or internal code. -/
def Obligations.IllegalRequestChangesOnlyErr : Prop :=
  ∀ (s : State) (code : BitVec 4) (r : List Action), s.cfg.ok = true → s.busy = false → s.fatal = false →
    s.inbox = .request code :: r → code ≠ 0x1 → code ≠ 0x2 →
    step s = .next { s with inbox := r, err := .illegalRequest }

/-- R211, R216 (1): after a fatal failure every request, whatever its code, is refused with DEAD. That the
refusal is a next state is the model's reading (log 9). -/
def Obligations.DeadInstanceAnswersDead : Prop :=
  ∀ (s : State) (code : BitVec 4) (r : List Action), s.cfg.ok = true → s.busy = false → s.fatal = true →
    s.inbox = .request code :: r → step s = .next { s with inbox := r, err := .dead }

/-- R22, U17: no move for the host while BUSY = 1. -/
def Obligations.BusyBlocksTheHost : Prop :=
  ∀ (s : State) (a : Action) (r : List Action), s.cfg.ok = true → s.busy = true → s.inbox = a :: r →
    (∀ f bytes, a ≠ .dispatch f bytes) → step s = .fault .hostWhileBusy

/-! ## Wire commands (45_wire_commands.md) -/

/-- R180, R181: each followed by its settle delay. -/
def Obligations.ResetAndWakeThenSettleDelay : Prop :=
  ∀ s : State, s.fatal = false → s.busOk 1 = true →
    exec .swreset s = .next { s with
      cs := 1, dc := 0, dt := 0, tr := s.tr ++ cmdEvents 0x01 ++ [.delay s.cfg.tSwreset], bus := s.busAfter 1 } ∧
    exec .slpout s = .next { s with
      cs := 1, dc := 0, dt := 0, tr := s.tr ++ cmdEvents 0x11 ++ [.delay s.cfg.tSlpout], bus := s.busAfter 1 }

/-- R182, R183, R184. -/
def Obligations.PlainCommandsSendTheirOpcode : Prop :=
  ∀ s : State, s.fatal = false → s.busOk 1 = true →
    exec .noron s = .next { s with
      cs := 1, dc := 0, tr := s.tr ++ cmdEvents s.cfg.opcNoron, bus := s.busAfter 1 } ∧
    exec .invoff s = .next { s with cs := 1, dc := 0, tr := s.tr ++ cmdEvents 0x20, bus := s.busAfter 1 } ∧
    exec .dispon s = .next { s with cs := 1, dc := 0, tr := s.tr ++ cmdEvents 0x29, bus := s.busAfter 1 }

/-- R190, R191, R192. BI at the end of a data transaction is log 7, for a payload of 2^18 bytes or more log 29. -/
def Obligations.FrameRateCommandsSendTheirPayload : Prop :=
  ∀ s : State, s.fatal = false → s.busOk 2 = true →
    (s.cfg.pFrmctr1 ≠ [] → exec .frmctr1 s = .next { s with
      cs := 1, dc := 1, bi := BitVec.ofNat 18 s.cfg.pFrmctr1.length
      tr := s.tr ++ cmdEvents 0xB1 ++ datEvents s.cfg.pFrmctr1, bus := s.busAfter 2 }) ∧
    (s.cfg.pFrmctr2 ≠ [] → exec .frmctr2 s = .next { s with
      cs := 1, dc := 1, bi := BitVec.ofNat 18 s.cfg.pFrmctr2.length
      tr := s.tr ++ cmdEvents 0xB2 ++ datEvents s.cfg.pFrmctr2, bus := s.busAfter 2 }) ∧
    (s.cfg.pFrmctr3 ≠ [] → exec .frmctr3 s = .next { s with
      cs := 1, dc := 1, bi := BitVec.ofNat 18 s.cfg.pFrmctr3.length
      tr := s.tr ++ cmdEvents 0xB3 ++ datEvents s.cfg.pFrmctr3, bus := s.busAfter 2 })

/-- R194 to R198. BI: log 7, log 29. -/
def Obligations.PowerCommandsSendTheirPayload : Prop :=
  ∀ s : State, s.fatal = false → s.busOk 2 = true →
    (s.cfg.pPwctr1 ≠ [] → exec .pwctr1 s = .next { s with
      cs := 1, dc := 1, bi := BitVec.ofNat 18 s.cfg.pPwctr1.length
      tr := s.tr ++ cmdEvents 0xC0 ++ datEvents s.cfg.pPwctr1, bus := s.busAfter 2 }) ∧
    (s.cfg.pPwctr2 ≠ [] → exec .pwctr2 s = .next { s with
      cs := 1, dc := 1, bi := BitVec.ofNat 18 s.cfg.pPwctr2.length
      tr := s.tr ++ cmdEvents 0xC1 ++ datEvents s.cfg.pPwctr2, bus := s.busAfter 2 }) ∧
    (s.cfg.pPwctr3 ≠ [] → exec .pwctr3 s = .next { s with
      cs := 1, dc := 1, bi := BitVec.ofNat 18 s.cfg.pPwctr3.length
      tr := s.tr ++ cmdEvents 0xC2 ++ datEvents s.cfg.pPwctr3, bus := s.busAfter 2 }) ∧
    (s.cfg.pPwctr4 ≠ [] → exec .pwctr4 s = .next { s with
      cs := 1, dc := 1, bi := BitVec.ofNat 18 s.cfg.pPwctr4.length
      tr := s.tr ++ cmdEvents 0xC3 ++ datEvents s.cfg.pPwctr4, bus := s.busAfter 2 }) ∧
    (s.cfg.pPwctr5 ≠ [] → exec .pwctr5 s = .next { s with
      cs := 1, dc := 1, bi := BitVec.ofNat 18 s.cfg.pPwctr5.length
      tr := s.tr ++ cmdEvents 0xC4 ++ datEvents s.cfg.pPwctr5, bus := s.busAfter 2 })

/-- R193, R199: one payload byte each. BI: log 7. -/
def Obligations.OneByteCommandsSendTheirPayload : Prop :=
  ∀ (s : State) (b : Byte), s.fatal = false → s.busOk 2 = true →
    (s.cfg.pInvctr = [b] → exec .invctr s = .next { s with
      cs := 1, dc := 1, bi := 1, tr := s.tr ++ cmdEvents 0xB4 ++ datEvents [b], bus := s.busAfter 2 }) ∧
    (s.cfg.pVmctr1 = [b] → exec .vmctr1 s = .next { s with
      cs := 1, dc := 1, bi := 1, tr := s.tr ++ cmdEvents 0xC5 ++ datEvents [b], bus := s.busAfter 2 })

/-- R188, R189. BI: log 7. -/
def Obligations.OrientationAndColourModeCommands : Prop :=
  ∀ s : State, s.fatal = false → s.busOk 2 = true →
    exec .madctl s = .next { s with
      cs := 1, dc := 1, bi := 1, tr := s.tr ++ cmdEvents 0x36 ++ datEvents [s.cfg.madctlVal]
      bus := s.busAfter 2 } ∧
    exec .colmod s = .next { s with
      cs := 1, dc := 1, bi := 1, tr := s.tr ++ cmdEvents 0x3A ++ datEvents [0x05], bus := s.busAfter 2 }

/-- R75, R76: the bounds come from the working registers, byte 1 and byte 3. That a register above 255 sends its
low 8 bits too is the model's choice (log 28). BI: log 7. -/
def Obligations.WindowBoundCommandsSendTheRegisters : Prop :=
  ∀ s : State, s.fatal = false → s.busOk 2 = true →
    exec .caset s = .next { s with
      cs := 1, dc := 1, bi := 4
      tr := s.tr ++ cmdEvents 0x2A ++
        datEvents [0x00, s.x.wx0.extractLsb' 0 8, 0x00, s.x.wx1.extractLsb' 0 8]
      bus := s.busAfter 2 } ∧
    exec .raset s = .next { s with
      cs := 1, dc := 1, bi := 4
      tr := s.tr ++ cmdEvents 0x2B ++
        datEvents [0x00, s.x.wy0.extractLsb' 0 8, 0x00, s.x.wy1.extractLsb' 0 8]
      bus := s.busAfter 2 }

/-- R187, R166: the memory-write command, then the whole of TX; R36: a byte of TX that nothing has written stops
it (log 4); R119: after a window with unordered bounds it is refused (log 30); R187, R247: so it is where no CASET and
RASET are directly before it or they do not demand NBYTES bytes (log 31). BI: log 7. -/
def Obligations.RamwrSendsTheTransmitBuffer : Prop :=
  ∀ s : State, s.fatal = false →
    (s.unordered = true → exec .ramwr s = .refused .unorderedWindow) ∧
    (s.unordered = false → s.afterWindow = false → exec .ramwr s = .refused .noWindow) ∧
    (s.unordered = false → s.afterWindow = true → s.windowBytes ≠ some s.cfg.nbytes →
      exec .ramwr s = .refused .burstLength) ∧
    (∀ l : List Byte, s.afterWindow = true → s.windowBytes = some s.cfg.nbytes → s.busOk (1 + s.cfg.burstCount) = true →
      s.tx.readBytes 0 s.cfg.nbytes = some l →
      exec .ramwr s = .next { s with
        cs := 1, dc := 1, bi := BitVec.ofNat 18 s.cfg.lastChunk
        tr := s.tr ++ cmdEvents 0x2C ++ burstEvents s.cfg l, bus := s.busAfter (1 + s.cfg.burstCount) }) ∧
    ∀ a, s.afterWindow = true → s.windowBytes = some s.cfg.nbytes → a < s.cfg.nbytes → s.tx.read a = none →
      s.busOk 1 = true →
      exec .ramwr s = .fault (.unwritten .tx)

/-! ## CommandChannel (40_command_channel.md) -/

/-- R100: one command transaction, whatever the byte. -/
def Obligations.SendCommandEvents : Prop :=
  ∀ (s : State) (c : Byte), s.fatal = false → s.busOk 1 = true →
    exec (.sendCommand c) s = .next { s with
      cs := 1, dc := 0, tr := s.tr ++ [.cs 0, .dc 0, .byte c, .cs 1], bus := s.busAfter 1 }

/-- R101, R72: one data transaction under a single assertion of CS; a data transaction of zero bytes is
refused; R119: a non-empty one in a burst after a window with unordered bounds is refused (log 30); R247: so is one in
a burst that would be of another length than the window sent last demands (log 31; chunks of a burst left short,
log 32). BI: log 7, for 2^18 bytes or more log 29. -/
def Obligations.SendDataEvents : Prop :=
  ∀ s : State, s.fatal = false →
    (∀ l : List Byte, l ≠ [] → s.inBurst = true → s.unordered = true →
      exec (.sendData l) s = .refused .unorderedWindow) ∧
    (∀ l : List Byte, l ≠ [] → (s.inBurst = false ∨ s.unordered = false) → s.burstFits l.length = false →
      exec (.sendData l) s = .refused .burstLength) ∧
    (∀ l : List Byte, l ≠ [] → (s.inBurst = false ∨ s.unordered = false) → s.burstFits l.length = true →
      s.busOk 1 = true →
      exec (.sendData l) s = .next { s with
        cs := 1, dc := 1, bi := BitVec.ofNat 18 l.length
        tr := s.tr ++ [.cs 0, .dc 1] ++ l.map .byte ++ [.cs 1], bus := s.busAfter 1 }) ∧
    exec (.sendData []) s = .refused .emptyData

/-- R102, R206: a failing transaction leaves a prefix of its bytes, no CS(1), FATAL and ERR. The pins hold free
values (log 6): the equation holds for every value of them. A SEND_DATA that is refused before its transaction
begins (R119, R247; log 30, log 31) is set apart. BI: log 7, for 2^18 bytes or more log 29. -/
def Obligations.FailedTransactionIsFatal : Prop :=
  ∀ (s : State) (k : Nat), s.fatal = false → s.bus = some ⟨0, k⟩ →
    (∀ c : Byte, exec (.sendCommand c) s = .next { s with
      err := .transportFailure, fatal := true, busy := false
      cs := Config.freeCs s.draws, dc := Config.freeDc s.draws, rst := Config.freeRst s.draws
      draws := s.draws + 1, tr := s.tr ++ [.cs 0, .dc 0] ++ ([c].take k).map .byte }) ∧
    (∀ l : List Byte, l ≠ [] → (s.inBurst = false ∨ s.unordered = false) → s.burstFits l.length = true →
      exec (.sendData l) s = .next { s with
      err := .transportFailure, fatal := true, busy := false
      cs := Config.freeCs s.draws, dc := Config.freeDc s.draws, rst := Config.freeRst s.draws
      draws := s.draws + 1, bi := BitVec.ofNat 18 (min k l.length)
      tr := s.tr ++ [.cs 0, .dc 1] ++ (l.take k).map .byte })

/-- R12, R206: FATAL is set by a transport failure and by nothing else. -/
def Obligations.OnlyTransportFailureSetsFatal : Prop :=
  ∀ (i : Instr) (s t : State), s.fatal = false → exec i s = .next t → t.fatal = true →
    t.err = .transportFailure ∧ t.busy = false ∧ s.bus ≠ none

/-- R102, R211: an instance that met a fatal error emits nothing more, whatever operation is asked of it. The
answer DEAD is the model's: as a next state for INIT and PRESENT, where R211 calls it a refusal (log 9), and to an
operation run alone (log 11). -/
def Obligations.DeadInstanceRunsNothing : Prop :=
  ∀ (i : Instr) (s : State), s.fatal = true → s.busy = false → exec i s = .next { s with err := .dead }

/-! ## AddressWindow (41_address_window.md) -/

/-- R112, R120: the offset-corrected bounds, in five transactions, ordered or not; R119: exactly after unordered
operands the burst that follows is refused, by RAMWR and by SEND_DATA (log 30); R115, R247: ordered operands demand a
burst of two bytes for each pixel of the window, and none longer, to be sent by SEND_DATA, since the window has sent
its RAMWR (R187; log 31). BI: log 7. -/
def Obligations.SetWindowSendsCorrectedBounds : Prop :=
  ∀ (s : State) (x0 y0 x1 y1 : Byte), s.fatal = false → s.busOk 5 = true →
    x0.toNat + s.cfg.oxEff.toNat ≤ 255 → x1.toNat + s.cfg.oxEff.toNat ≤ 255 →
    y0.toNat + s.cfg.oyEff.toNat ≤ 255 → y1.toNat + s.cfg.oyEff.toNat ≤ 255 →
    (∀ t, exec (.setWindow x0 y0 x1 y1) s = .next t →
      ((x1 < x0 ∨ y1 < y0) → exec .ramwr t = .refused .unorderedWindow ∧
        ∀ l : List Byte, l ≠ [] → exec (.sendData l) t = .refused .unorderedWindow) ∧
      (x0 ≤ x1 → y0 ≤ y1 → t.unordered = false ∧ exec .ramwr t = .refused .noWindow ∧
        t.windowBytes = some (2 * ((x1.toNat - x0.toNat + 1) * (y1.toNat - y0.toNat + 1))) ∧
        t.burstFits (2 * ((x1.toNat - x0.toNat + 1) * (y1.toNat - y0.toNat + 1))) = true ∧
        ∀ n, 2 * ((x1.toNat - x0.toNat + 1) * (y1.toNat - y0.toNat + 1)) < n → t.burstFits n = false)) ∧
    exec (.setWindow x0 y0 x1 y1) s = .next { s with
      x := {
        wx0 := BitVec.ofNat 9 (x0.toNat + s.cfg.oxEff.toNat), wy0 := BitVec.ofNat 9 (y0.toNat + s.cfg.oyEff.toNat)
        wx1 := BitVec.ofNat 9 (x1.toNat + s.cfg.oxEff.toNat), wy1 := BitVec.ofNat 9 (y1.toNat + s.cfg.oyEff.toNat)
        ox := BitVec.ofNat 9 s.cfg.oxEff.toNat, oy := BitVec.ofNat 9 s.cfg.oyEff.toNat }
      cs := 1, dc := 0, bi := 4
      tr := s.tr ++
        cmdEvents 0x2A ++ datEvents [0x00, BitVec.ofNat 8 (x0.toNat + s.cfg.oxEff.toNat),
          0x00, BitVec.ofNat 8 (x1.toNat + s.cfg.oxEff.toNat)] ++
        cmdEvents 0x2B ++ datEvents [0x00, BitVec.ofNat 8 (y0.toNat + s.cfg.oyEff.toNat),
          0x00, BitVec.ofNat 8 (y1.toNat + s.cfg.oyEff.toNat)] ++
        cmdEvents 0x2C
      bus := s.busAfter 5 }

/-- R113, R208: a bound above 255 raises before anything is emitted; the registers keep the 9-bit sums. -/
def Obligations.WindowOutOfRangeEmitsNothing : Prop :=
  ∀ (s : State) (x0 y0 x1 y1 : Byte), s.fatal = false →
    (255 < x0.toNat + s.cfg.oxEff.toNat ∨ 255 < x1.toNat + s.cfg.oxEff.toNat ∨
      255 < y0.toNat + s.cfg.oyEff.toNat ∨ 255 < y1.toNat + s.cfg.oyEff.toNat) →
    exec (.setWindow x0 y0 x1 y1) s = .next { s with
      x := {
        wx0 := BitVec.ofNat 9 (x0.toNat + s.cfg.oxEff.toNat), wy0 := BitVec.ofNat 9 (y0.toNat + s.cfg.oyEff.toNat)
        wx1 := BitVec.ofNat 9 (x1.toNat + s.cfg.oxEff.toNat), wy1 := BitVec.ofNat 9 (y1.toNat + s.cfg.oyEff.toNat)
        ox := BitVec.ofNat 9 s.cfg.oxEff.toNat, oy := BitVec.ofNat 9 s.cfg.oyEff.toNat }
      err := .windowRange, busy := false }

/-! ## Transcoder (43_transcoder.md) -/

/-- R146: the pairs exchanged, the rest of the destination and all of the source unchanged, nothing else
written; R36: a byte to be read that nothing has written stops it (log 4). -/
def Obligations.SwapBytesExchangesPairs : Prop :=
  ∀ (s : State) (dst src : Space) (n : BitVec 18), s.fatal = false → dst ≠ src → n.toNat ≤ s.cfg.nbytes →
    ((∀ a, a < 2 * (n.toNat / 2) → ((s.mem src).read a).isSome = true) →
      ∃ t : State, exec (.swapBytes dst src n) s = .next t ∧
        t = { s.setMem dst (t.mem dst) with tlen := n, ti := BitVec.ofNat 18 (2 * (n.toNat / 2)) } ∧
        (∀ i, i < n.toNat / 2 →
          (t.mem dst).read (2 * i) = (s.mem src).read (2 * i + 1) ∧
          (t.mem dst).read (2 * i + 1) = (s.mem src).read (2 * i)) ∧
        ∀ a, 2 * (n.toNat / 2) ≤ a → (t.mem dst).read a = (s.mem dst).read a) ∧
    ∀ a, a < 2 * (n.toNat / 2) → (s.mem src).read a = none →
      exec (.swapBytes dst src n) s = .fault (.unwritten src)

/-- R147, R210: aliased arrays or a length beyond the arrays: nothing is written. That the refusal is the error
BAD_SWAP in a next state is the model's reading (log 10). -/
def Obligations.BadSwapWritesNothing : Prop :=
  ∀ (s : State) (dst src : Space) (n : BitVec 18), s.fatal = false → (dst = src ∨ s.cfg.nbytes < n.toNat) →
    exec (.swapBytes dst src n) s = .next { s with err := .badSwap, busy := false }

/-- R149: swapped into `dst` and from there into a third array, the bytes of all whole pairs are the original
ones. The model has two arrays (log 27), so the second swap is made in any state `u` that agrees with `t` on the
swapped bytes, CFG and FATAL: its array `src` is the third one, and holds any bytes or none. -/
def Obligations.SwapBytesIsAnInvolution : Prop :=
  ∀ (s : State) (dst src : Space) (n : BitVec 18), s.fatal = false → dst ≠ src → n.toNat ≤ s.cfg.nbytes →
    (∀ a, a < 2 * (n.toNat / 2) → ((s.mem src).read a).isSome = true) →
    ∃ t : State, exec (.swapBytes dst src n) s = .next t ∧
      ∀ u : State, u.mem dst = t.mem dst → u.cfg = t.cfg → u.fatal = t.fatal →
        ∃ v : State, exec (.swapBytes src dst n) u = .next v ∧
          ∀ a, a < 2 * (n.toNat / 2) → (v.mem src).read a = (s.mem src).read a

/-- R48: after the block's own swap TX holds every word of FB in big-endian order. -/
def Obligations.TransmitBufferIsBigEndian : Prop :=
  ∀ s : State, s.fatal = false → s.cfg.ok = true → s.fbFull →
    ∃ t : State, exec (.swapBytes .tx .fb (BitVec.ofNat 18 s.cfg.nbytes)) s = .next t ∧
      ∀ (k : Nat) (c : Colour), k < s.cfg.npix → s.fb.readWord (2 * k) = some c →
        t.tx.read (2 * k) = some (c.extractLsb' 8 8) ∧ t.tx.read (2 * k + 1) = some (c.extractLsb' 0 8)

/-! ## DisplayController (44_display_controller.md) -/

/-- R163, R164: window, transcoding, burst, and nothing else; R36: a byte of FB that nothing has written stops it
after the window (log 4). BI: log 7. -/
def Obligations.PresentSendsTheWholeFrame : Prop :=
  ∀ s : State, s.cfg.ok = true → s.busy = false → s.fatal = false → s.ctrl = .ready →
    (∀ l : List Byte, s.busOk (5 + s.cfg.burstCount) = true → s.fb.readBytes 0 s.cfg.nbytes = some l →
      exec .present s = .next { s with
        err := .none, busy := false, x := fullWindow s.cfg
        ti := BitVec.ofNat 18 s.cfg.nbytes, tlen := BitVec.ofNat 18 s.cfg.nbytes
        bi := BitVec.ofNat 18 s.cfg.lastChunk, tx := s.tx.writeBytes 0 (swapPairs l), cs := 1, dc := 1
        tr := s.tr ++ presentEvents s.cfg (swapPairs l), bus := s.busAfter (5 + s.cfg.burstCount) }) ∧
    ∀ a, a < s.cfg.nbytes → s.fb.read a = none → s.busOk 5 = true → exec .present s = .fault (.unwritten .fb)

/-- R77: the burst is the content of TX and carries every pixel of FB, more significant byte first, row-major. -/
def Obligations.PresentSendsEveryPixelBigEndian : Prop :=
  ∀ s : State, s.cfg.ok = true → s.busy = false → s.fatal = false → s.ctrl = .ready → s.fbFull →
    s.busOk (5 + s.cfg.burstCount) = true →
    ∃ (t : State) (b : List Byte), exec .present s = .next t ∧ t.fb = s.fb ∧
      t.tr = s.tr ++ windowEvents (fullWindow s.cfg) ++ burstEvents s.cfg b ∧ b.length = s.cfg.nbytes ∧
      dataBytes (burstEvents s.cfg b) = b ∧ (∀ a, a < s.cfg.nbytes → t.tx.read a = b[a]?) ∧
      ∀ (x y : Nat) (c : Colour), x < s.cfg.lw → y < s.cfg.lh → s.pixel x y = some c →
        b[2 * (y * s.cfg.lw + x)]? = some (c.extractLsb' 8 8) ∧
        b[2 * (y * s.cfg.lw + x) + 1]? = some (c.extractLsb' 0 8)

/-- R166, R167: how the burst is cut, for every chunk size. -/
def Obligations.BurstIsCutIntoChunks : Prop :=
  ∀ (c : Cfg) (l : List Byte), l.length = c.nbytes →
    (burstChunks c.burstChunk l).flatten = l ∧
    (c.burstChunk = 0 → burstChunks c.burstChunk l = [l]) ∧
    (0 < c.burstChunk →
      (burstChunks c.burstChunk l).length = (c.nbytes + c.burstChunk - 1) / c.burstChunk ∧
      ∀ (i : Nat) (d : List Byte), (burstChunks c.burstChunk l)[i]? = some d →
        1 ≤ d.length ∧ d.length ≤ c.burstChunk ∧
        (i + 1 < (burstChunks c.burstChunk l).length → d.length = c.burstChunk))

/-- R163, R134: two presents of an unchanged frame buffer emit the same events. -/
def Obligations.RepeatedPresentsAreIdentical : Prop :=
  ∀ s : State, s.cfg.ok = true → s.busy = false → s.fatal = false → s.ctrl = .ready → s.fbFull →
    s.busOk (2 * (5 + s.cfg.burstCount)) = true →
    ∃ (t u : State) (e : List Event), exec .present s = .next t ∧ exec .present t = .next u ∧ e ≠ [] ∧
      t.tr = s.tr ++ e ∧ u.tr = t.tr ++ e

/-- R207. -/
def Obligations.PresentBeforeReadyFailsFast : Prop :=
  ∀ s : State, s.busy = false → s.fatal = false → s.ctrl ≠ .ready →
    exec .present s = .next { s with err := .notReady }

/-- R157 to R160, R165: the whole sequence, from Uninitialized or Ready (R169). BI: log 7. -/
def Obligations.InitRunsTheWholeSequence : Prop :=
  ∀ s : State, s.cfg.ok = true → s.busy = false → s.fatal = false → s.ctrl ≠ .initializing →
    s.busOk (34 + s.cfg.burstCount) = true →
    exec .init s = .next { s with
      ctrl := .ready, err := .none, busy := false, seqPc := 37, x := fullWindow s.cfg
      ti := BitVec.ofNat 18 s.cfg.nbytes, tlen := BitVec.ofNat 18 s.cfg.nbytes
      bi := BitVec.ofNat 18 s.cfg.lastChunk, dt := 0
      fb := s.fb.writeBytes 0 (List.replicate s.cfg.nbytes 0x00)
      tx := s.tx.writeBytes 0 (List.replicate s.cfg.nbytes 0x00)
      cs := 1, dc := 1, rst := .deasserted, tr := s.tr ++ initEvents s.cfg
      bus := s.busAfter (34 + s.cfg.burstCount) }

/-- R240: what a successful INIT establishes in the block. -/
def Obligations.InitEstablishesABlackFrame : Prop :=
  ∀ s : State, s.cfg.ok = true → s.busy = false → s.fatal = false → s.ctrl ≠ .initializing →
    s.busOk (34 + s.cfg.burstCount) = true →
    ∃ t : State, exec .init s = .next t ∧ t.ctrl = .ready ∧ t.err = .none ∧ t.fatal = false ∧
      (∀ a, a < t.cfg.nbytes → t.fb.read a = some 0x00 ∧ t.tx.read a = some 0x00) ∧
      ∀ x y, x < t.cfg.lw → y < t.cfg.lh → t.pixel x y = some 0x0000

/-- R200: the commands that PRESENT and INIT append to the trace, in order. -/
def Obligations.CommandsOfInitAndPresent : Prop :=
  ∀ s : State, s.cfg.ok = true → s.busy = false → s.fatal = false →
    (s.ctrl = .ready → s.fbFull → s.busOk (5 + s.cfg.burstCount) = true →
      ∃ (t : State) (e : List Event), exec .present s = .next t ∧ t.tr = s.tr ++ e ∧
        commandBytes e = [0x2A, 0x2B, 0x2C]) ∧
    (s.ctrl ≠ .initializing → s.busOk (34 + s.cfg.burstCount) = true →
      ∃ (t : State) (e : List Event), exec .init s = .next t ∧ t.tr = s.tr ++ e ∧
        commandBytes e =
          [0x01, 0x11, 0xB1, 0xB2, 0xB3, 0xB4, 0xC0, 0xC1, 0xC2, 0xC3, 0xC4, 0xC5, 0x20, 0x36, 0x3A,
            s.cfg.opcNoron, 0x29, 0x2A, 0x2B, 0x2C])

/-- R102, R163, R206: a transport failure inside PRESENT cuts its events and nothing else follows. -/
def Obligations.FailureInsidePresent : Prop :=
  ∀ (s : State) (k j : Nat) (l : List Byte), s.cfg.ok = true → s.busy = false → s.fatal = false →
    s.ctrl = .ready → s.fb.readBytes 0 s.cfg.nbytes = some l → s.bus = some ⟨k, j⟩ → k < 5 + s.cfg.burstCount →
    ∃ t : State, exec .present s = .next t ∧ t.err = .transportFailure ∧ t.fatal = true ∧ t.busy = false ∧
      t.ctrl = .ready ∧ t.fb = s.fb ∧ t.cfg = s.cfg ∧ t.seqPc = s.seqPc ∧
      t.tx = (if k < 5 then s.tx else s.tx.writeBytes 0 (swapPairs l)) ∧
      t.tr = s.tr ++ cutEvents k j (presentEvents s.cfg (swapPairs l))

/-- R162: a transport failure inside INIT. -/
def Obligations.FailureInsideInit : Prop :=
  ∀ (s : State) (k j : Nat), s.cfg.ok = true → s.busy = false → s.fatal = false → s.ctrl ≠ .initializing →
    s.bus = some ⟨k, j⟩ → k < 34 + s.cfg.burstCount →
    ∃ t : State, exec .init s = .next t ∧ t.err = .transportFailure ∧ t.fatal = true ∧ t.busy = false ∧
      t.ctrl = .initializing ∧ t.cfg = s.cfg ∧ t.seqPc = BitVec.ofNat 6 (entryOfTransaction k) ∧
      t.fb = (if k < 29 then s.fb else s.fb.writeBytes 0 (List.replicate s.cfg.nbytes 0x00)) ∧
      t.tr = s.tr ++ cutEvents k j (initEvents s.cfg)

/-! ## Frame buffer (20_memory.md, 42_framebuffer.md) -/

/-- R43, R42: the two bytes of the pixel, or nothing. -/
def Obligations.FbWriteStoresOnePixel : Prop :=
  ∀ (s : State) (x y : Int) (c : Colour) (r : List Action), s.cfg.ok = true → s.busy = false →
    s.inbox = .fbWrite x y c :: r →
    (∀ px py : Nat, x = px → y = py → px < s.cfg.lw → py < s.cfg.lh →
      ∃ m : Memory, step s = .next { s with inbox := r, fb := m } ∧
        2 * (py * s.cfg.lw + px) + 1 < s.cfg.nbytes ∧
        m.read (2 * (py * s.cfg.lw + px)) = some (c.extractLsb' 0 8) ∧
        m.read (2 * (py * s.cfg.lw + px) + 1) = some (c.extractLsb' 8 8) ∧
        ∀ a, a ≠ 2 * (py * s.cfg.lw + px) → a ≠ 2 * (py * s.cfg.lw + px) + 1 → m.read a = s.fb.read a) ∧
    ((x < 0 ∨ y < 0 ∨ (s.cfg.lw : Int) ≤ x ∨ (s.cfg.lh : Int) ≤ y) → step s = .next { s with inbox := r })

/-- R44, R45, R50: FbRead returns the little-endian word and changes nothing; outside it is refused; R36: a pixel
of which a byte holds no value stops it (log 4). -/
def Obligations.FbReadReturnsThePixel : Prop :=
  ∀ (s : State) (x y : Int) (r : List Action), s.cfg.ok = true → s.busy = false → s.inbox = .fbRead x y :: r →
    (∀ (px py : Nat) (lo hi : Byte), x = px → y = py → px < s.cfg.lw → py < s.cfg.lh →
      s.fb.read (2 * (py * s.cfg.lw + px)) = some lo → s.fb.read (2 * (py * s.cfg.lw + px) + 1) = some hi →
      step s = .next { s with
        inbox := r, readData := some (BitVec.ofNat 16 (lo.toNat + 256 * hi.toNat)) }) ∧
    (∀ px py : Nat, x = px → y = py → px < s.cfg.lw → py < s.cfg.lh →
      (s.fb.read (2 * (py * s.cfg.lw + px)) = none ∨ s.fb.read (2 * (py * s.cfg.lw + px) + 1) = none) →
      step s = .fault (.unwritten .fb)) ∧
    ((x < 0 ∨ y < 0 ∨ (s.cfg.lw : Int) ≤ x ∨ (s.cfg.lh : Int) ≤ y) → step s = .refused .readOutside)

/-- R125, R135: a drawing primitive changes nothing but FB, and no byte outside it. -/
def Obligations.DrawingChangesOnlyTheFrameBuffer : Prop :=
  ∀ (s : State) (d : Draw) (r : List Action), s.cfg.ok = true → s.busy = false → s.inbox = .draw d :: r →
    ∃ m : Memory, step s = .next { s with inbox := r, fb := m } ∧
      (draw d { s with inbox := r }).fb = m ∧ ∀ a, s.cfg.nbytes ≤ a → m.read a = s.fb.read a

/-- R126. -/
def Obligations.FillPaintsEveryPixel : Prop :=
  ∀ (s : State) (c : Colour) (k : Nat), k < s.cfg.npix →
    (draw (.fill c) s).fb.read (2 * k) = some (c.extractLsb' 0 8) ∧
    (draw (.fill c) s).fb.read (2 * k + 1) = some (c.extractLsb' 8 8)

/-- R127, R128, R129: a pixel and the straight runs paint exactly their pixels that lie on the screen. -/
def Obligations.RunsPaintTheirPixels : Prop :=
  ∀ (s : State) (x y w : Int) (c : Colour) (px py : Nat), px < s.cfg.lw → py < s.cfg.lh →
    (draw (.pixel x y c) s).pixel px py = (if x = px ∧ y = py then some c else s.pixel px py) ∧
    (draw (.hline x y w c) s).pixel px py =
      (if y = py ∧ x ≤ px ∧ (px : Int) < x + w then some c else s.pixel px py) ∧
    (draw (.vline x y w c) s).pixel px py =
      (if x = px ∧ y ≤ py ∧ (py : Int) < y + w then some c else s.pixel px py)

/-- R132: exactly the clipped rectangle. -/
def Obligations.FillRectPaintsTheClippedRectangle : Prop :=
  ∀ (s : State) (x y w h : Int) (c : Colour) (px py : Nat), px < s.cfg.lw → py < s.cfg.lh →
    (draw (.fillRect x y w h c) s).pixel px py =
      if x ≤ px ∧ (px : Int) < x + w ∧ y ≤ py ∧ (py : Int) < y + h then some c else s.pixel px py

/-- R131: exactly the clipped one-pixel border. -/
def Obligations.RectPaintsTheBorder : Prop :=
  ∀ (s : State) (x y w h : Int) (c : Colour) (px py : Nat), px < s.cfg.lw → py < s.cfg.lh →
    (draw (.rect x y w h c) s).pixel px py =
      if (x ≤ px ∧ (px : Int) < x + w ∧ y ≤ py ∧ (py : Int) < y + h) ∧
        ((px : Int) = x ∨ (px : Int) = x + w - 1 ∨ (py : Int) = y ∨ (py : Int) = y + h - 1)
      then some c else s.pixel px py

/-- R130. The first four clauses are facts R130 calls firm whatever the variant: both end points are painted, and
horizontal and vertical lines are the runs over the same pixels. The last clause is none of them: that nothing
outside the box of the end points is painted rests on the variant of D30, the model's choice (log 20). -/
def Obligations.LineEndPointsRunsAndBox : Prop :=
  ∀ (s : State) (x0 y0 x1 y1 : Int) (c : Colour) (px py : Nat), px < s.cfg.lw → py < s.cfg.lh →
    (x0 = px → y0 = py → (draw (.line x0 y0 x1 y1 c) s).pixel px py = some c) ∧
    (x1 = px → y1 = py → (draw (.line x0 y0 x1 y1 c) s).pixel px py = some c) ∧
    (y0 = y1 → (draw (.line x0 y0 x1 y1 c) s).pixel px py =
      (draw (.hline (min x0 x1) y0 ((x1 - x0).natAbs + 1) c) s).pixel px py) ∧
    (x0 = x1 → (draw (.line x0 y0 x1 y1 c) s).pixel px py =
      (draw (.vline x0 (min y0 y1) ((y1 - y0).natAbs + 1) c) s).pixel px py) ∧
    (((px : Int) < min x0 x1 ∨ max x0 x1 < px ∨ (py : Int) < min y0 y1 ∨ max y0 y1 < py) →
      (draw (.line x0 y0 x1 y1 c) s).pixel px py = s.pixel px py)

/-- R136: exactly the set pixels of the glyphs are painted, for every font. -/
def Obligations.TextPaintsTheSetPixels : Prop :=
  ∀ (s : State) (str : List Nat) (x y : Int) (c : Colour) (px py : Nat), px < s.cfg.lw → py < s.cfg.lh →
    ((∃ k ch r q : Nat, str[k]? = some ch ∧ r < 8 ∧ q < s.cfg.glyphW.val ∧ s.cfg.fontAt ch r q = true ∧
        (px : Int) = x + k * s.cfg.glyphAdv + q ∧ (py : Int) = y + r) →
      (draw (.text str x y c) s).pixel px py = some c) ∧
    ((∀ k ch r q : Nat, str[k]? = some ch → r < 8 → q < s.cfg.glyphW.val → s.cfg.fontAt ch r q = true →
        ¬((px : Int) = x + k * s.cfg.glyphAdv + q ∧ (py : Int) = y + r)) →
      (draw (.text str x y c) s).pixel px py = s.pixel px py)

/-- R171, R137: a filled rectangle on a black frame, presented, reaches the wire word for word. -/
def Obligations.FilledRectangleReachesTheWire : Prop :=
  ∀ (s : State) (x y w h : Int) (c : Colour), s.cfg.ok = true → s.busy = false → s.fatal = false →
    s.ctrl = .ready → (∀ a, a < s.cfg.nbytes → s.fb.read a = some 0x00) →
    s.busOk (5 + s.cfg.burstCount) = true →
    ∃ (t : State) (b : List Byte), exec .present (draw (.fillRect x y w h c) s) = .next t ∧
      t.tr = s.tr ++ windowEvents (fullWindow s.cfg) ++ burstEvents s.cfg b ∧ b.length = s.cfg.nbytes ∧
      ∀ px py : Nat, px < s.cfg.lw → py < s.cfg.lh →
        b[2 * (py * s.cfg.lw + px)]? = some (if x ≤ px ∧ (px : Int) < x + w ∧ y ≤ py ∧ (py : Int) < y + h
          then c.extractLsb' 8 8 else 0x00) ∧
        b[2 * (py * s.cfg.lw + px) + 1]? = some (if x ≤ px ∧ (px : Int) < x + w ∧ y ≤ py ∧ (py : Int) < y + h
          then c.extractLsb' 0 8 else 0x00)

/-! ## Invariants and whole-machine rules -/

/-- The invariant holds at reset, and after construction with any well-formed configuration. -/
def Obligations.ConstructionMeetsTheInvariant : Prop :=
  State.reset.Inv ∧ ∀ c : Cfg, c.ok = true → (State.construct c).Inv

/-- Every step, of every action, keeps the invariant (R11, R20, R22, R23, R25, R103, R161). -/
def Obligations.StepKeepsTheInvariant : Prop :=
  ∀ s t : State, s.Inv → step s = .next t → t.Inv

/-- R35, R27: no step writes CFG, and the trace is only appended to. -/
def Obligations.StepKeepsConfigurationAndPastTrace : Prop :=
  ∀ s t : State, step s = .next t → t.cfg = s.cfg ∧ ∃ e : List Event, t.tr = s.tr ++ e

/-- R12, R102, R219: FATAL is final, and nothing is emitted or transcoded after it. -/
def Obligations.FatalIsFinal : Prop :=
  ∀ s t : State, s.fatal = true → step s = .next t →
    t.fatal = true ∧ t.tr = s.tr ∧ t.ctrl = s.ctrl ∧ t.tx = s.tx ∧ t.seqPc = s.seqPc ∧ t.x = s.x

/-- R11, R161: STATE is written by INIT alone, and never back to Uninitialized. -/
def Obligations.OnlyInitWritesTheControllerState : Prop :=
  (∀ (i : Instr) (s t : State), i ≠ .init → exec i s = .next t → t.ctrl = s.ctrl) ∧
  ∀ s t : State, step s = .next t → t.ctrl = .uninitialized → s.ctrl = .uninitialized

/-- R57, R135, R155: drawing, FbWrite and FbRead change the pending actions, FB and the word read back, and
nothing else. Requests and the dispatch of an operation (log 11), which do emit, are set apart. -/
def Obligations.DrawingAndReadingBackAreSilent : Prop :=
  ∀ (s t : State) (a : Action) (r : List Action), s.inbox = a :: r →
    (∀ f bytes, a ≠ .dispatch f bytes) → (∀ code, a ≠ .request code) → step s = .next t →
    t = { s with inbox := r, fb := t.fb, readData := t.readData }
end

