-- ==== Sys2Proof/Laws/Memory.lean ====
section
/-! SUPPORT. The laws of memory: reading after writing, and that every operation keeps the canonical form. -/

namespace Sys2Proof.Machine

theorem Memory.read_write_same (m : Memory) (a : Nat) (b : Byte) : (m.write a b).read a = some b := by
  induction m with
  | nil => simp [Memory.write, Memory.read]
  | cons c m ih =>
    simp only [Memory.write]
    split
    · simp [Memory.read]
    · split
      · simp [Memory.read]
      · simp [Memory.read, *]

theorem Memory.read_write_other (m : Memory) (a a' : Nat) (b : Byte) (h : a' ≠ a) :
    (m.write a b).read a' = m.read a' := by
  induction m with
  | nil => simp [Memory.write, Memory.read, h.symm]
  | cons c m ih =>
    simp only [Memory.write]
    split
    · simp [Memory.read, h.symm]
    · split
      · next h2 => simp [Memory.read, h.symm, h2]
      · simp [Memory.read, ih]

theorem Memory.read_write (m : Memory) (a a' : Nat) (b : Byte) :
    (m.write a b).read a' = if a' = a then some b else m.read a' := by
  split
  · next h => rw [h, Memory.read_write_same]
  · next h => exact Memory.read_write_other m a a' b h

theorem Memory.mem_write {m : Memory} {a : Nat} {b : Byte} {c : Host.Cell} (h : c ∈ m.write a b) :
    c = (a, b) ∨ c ∈ m := by
  induction m with
  | nil => simpa [Memory.write] using h
  | cons d m ih =>
    simp only [Memory.write] at h
    split at h
    · simpa using h
    · split at h
      · rcases List.mem_cons.1 h with h | h
        · exact .inl h
        · exact .inr (List.mem_cons_of_mem _ h)
      · rcases List.mem_cons.1 h with h | h
        · exact .inr (h ▸ List.mem_cons_self)
        · exact (ih h).imp id (List.mem_cons_of_mem _)

theorem Memory.wf_write {m : Memory} (a : Nat) (b : Byte) (h : m.wf) : (m.write a b).wf := by
  induction m with
  | nil => simp [Memory.write]
  | cons d m ih =>
    have hd := (List.pairwise_cons.1 h).1
    have hm := (List.pairwise_cons.1 h).2
    simp only [Memory.write]
    split
    · next h1 =>
      refine List.pairwise_cons.2 ⟨fun c hc => ?_, h⟩
      rcases List.mem_cons.1 hc with rfl | hc
      · exact h1
      · exact lt_trans h1 (hd c hc)
    · split
      · next h2 => exact List.pairwise_cons.2 ⟨fun c hc => h2 ▸ hd c hc, hm⟩
      · refine List.pairwise_cons.2 ⟨fun c hc => ?_, ih hm⟩
        rcases Memory.mem_write hc with rfl | hc
        · simp only; omega
        · exact hd c hc

theorem Memory.within_write {m : Memory} {n a : Nat} (b : Byte) (h : m.within n) (ha : a < n) :
    (m.write a b).within n := by
  intro c hc
  rcases Memory.mem_write hc with rfl | hc
  · exact ha
  · exact h c hc

theorem Memory.wf_writeBytes (m : Memory) (a : Nat) (s : List Byte) (h : m.wf) : (m.writeBytes a s).wf := by
  induction s generalizing m a with
  | nil => exact h
  | cons b s ih => exact ih _ _ (Memory.wf_write a b h)

theorem Memory.within_writeBytes (m : Memory) (n a : Nat) (s : List Byte) (h : m.within n)
    (ha : a + s.length ≤ n) : (m.writeBytes a s).within n := by
  induction s generalizing m a with
  | nil => exact h
  | cons b s ih =>
    simp only [List.length_cons] at ha
    exact ih _ _ (Memory.within_write b h (by omega)) (by omega)

/-- What a byte reads as after a byte string was written. -/
theorem Memory.read_writeBytes (m : Memory) (a : Nat) (s : List Byte) (a' : Nat) :
    (m.writeBytes a s).read a' = if a ≤ a' ∧ a' < a + s.length then s[a' - a]? else m.read a' := by
  induction s generalizing m a with
  | nil => simp [Memory.writeBytes]
  | cons b s ih =>
    simp only [Memory.writeBytes, ih, Memory.read_write, List.length_cons]
    rcases Nat.lt_trichotomy a' a with h | h | h
    · rw [if_neg (by omega), if_neg (by omega), if_neg (by omega)]
    · subst h
      rw [if_neg (by omega), if_pos rfl, if_pos (by omega)]
      simp
    · by_cases h2 : a' < a + (s.length + 1)
      · rw [if_pos (by omega), if_pos (by omega)]
        have : a' - a = (a' - (a + 1)) + 1 := by omega
        rw [this, List.getElem?_cons_succ]
      · rw [if_neg (by omega), if_neg (by omega), if_neg (by omega)]

theorem Memory.length_readBytes {m : Memory} {a n : Nat} {s : List Byte} (h : m.readBytes a n = some s) :
    s.length = n := by
  induction n generalizing a s with
  | zero => simp [Memory.readBytes] at h; simp [← h]
  | succ n ih =>
    simp only [Memory.readBytes] at h
    split at h
    · cases h
    · obtain ⟨t, ht, rfl⟩ := Option.map_eq_some_iff.1 h
      simp [ih ht]

/-- A byte string read from memory holds the bytes of memory in address order. -/
theorem Memory.getElem_readBytes {m : Memory} {a n : Nat} {s : List Byte} (h : m.readBytes a n = some s)
    (i : Nat) (hi : i < n) : s[i]? = m.read (a + i) := by
  induction n generalizing a s i with
  | zero => omega
  | succ n ih =>
    simp only [Memory.readBytes] at h
    split at h
    · cases h
    · next b hb =>
      obtain ⟨t, ht, rfl⟩ := Option.map_eq_some_iff.1 h
      cases i with
      | zero => simpa using hb.symm
      | succ i =>
        rw [List.getElem?_cons_succ, ih ht i (by omega)]
        congr 1; omega

/-- `n` bytes can be read exactly when each of them holds a value. -/
theorem Memory.readBytes_isSome (m : Memory) (a n : Nat) :
    (m.readBytes a n).isSome = true ↔ ∀ i, i < n → (m.read (a + i)).isSome = true := by
  induction n generalizing a with
  | zero => simp [Memory.readBytes]
  | succ n ih =>
    simp only [Memory.readBytes]
    split
    · next h =>
      constructor
      · intro h2; cases h2
      · intro h2; have := h2 0 (by omega); rw [Nat.add_zero, h] at this; cases this
    · next b h =>
      rw [Option.isSome_map, ih]
      constructor
      · intro h2 i hi
        cases i with
        | zero => rw [Nat.add_zero, h]; rfl
        | succ i => have := h2 i (by omega); rwa [show a + 1 + i = a + (i + 1) by omega] at this
      · intro h2 i hi
        have := h2 (i + 1) (by omega)
        rwa [show a + (i + 1) = a + 1 + i by omega] at this

/-- One byte without a value, and the read has none. -/
theorem Memory.readBytes_eq_none {m : Memory} {a n b : Nat} (h1 : a ≤ b) (h2 : b < a + n) (h : m.read b = none) :
    m.readBytes a n = none := by
  rw [← Option.not_isSome_iff_eq_none, Memory.readBytes_isSome]
  intro hall
  have := hall (b - a) (by omega)
  rw [Nat.add_sub_cancel' h1, h] at this
  cases this

/-- Memories that agree on the bytes read give the same byte string. -/
theorem Memory.readBytes_congr {m m' : Memory} {a n : Nat} (h : ∀ i, i < n → m.read (a + i) = m'.read (a + i)) :
    m.readBytes a n = m'.readBytes a n := by
  induction n generalizing a with
  | zero => rfl
  | succ n ih =>
    simp only [Memory.readBytes]
    have h0 := h 0 (by omega)
    rw [Nat.add_zero] at h0
    rw [h0]
    have := ih (a := a + 1) fun i hi => by
      have := h (i + 1) (by omega)
      rwa [show a + (i + 1) = a + 1 + i by omega] at this
    rw [this]

/-- A byte string that was written reads back. -/
theorem Memory.readBytes_writeBytes (m : Memory) (a : Nat) (s : List Byte) :
    (m.writeBytes a s).readBytes a s.length = some s := by
  obtain ⟨t, ht⟩ := Option.isSome_iff_exists.1
    ((Memory.readBytes_isSome (m.writeBytes a s) a s.length).2 fun i hi => by
      rw [Memory.read_writeBytes, if_pos (by omega), show a + i - a = i by omega, List.getElem?_eq_getElem hi]
      rfl)
  rw [ht]
  congr 1
  refine List.ext_getElem? fun i => ?_
  by_cases hi : i < s.length
  · rw [Memory.getElem_readBytes ht i hi, Memory.read_writeBytes, if_pos (by omega),
      show a + i - a = i by omega]
  · rw [List.getElem?_eq_none (by have := Memory.length_readBytes ht; omega), List.getElem?_eq_none (by omega)]

/-- The two bytes of a colour, put together again. -/
theorem colour_bytes (v : Colour) : (v.extractLsb' 8 8 ++ v.extractLsb' 0 8 : BitVec 16) = v := by
  refine BitVec.eq_of_getLsbD_eq fun i hi => ?_
  rw [BitVec.getLsbD_append, BitVec.getLsbD_extractLsb', BitVec.getLsbD_extractLsb']
  by_cases h : i < 8
  · simp [h]
  · simp [h, show i - 8 < 8 by omega, show 8 + (i - 8) = i by omega]

/-- A word that was stored reads back (R45). -/
theorem Memory.readWord_writeWord_same (m : Memory) (a : Nat) (v : Colour) :
    (m.writeWord a v).readWord a = some v := by
  simp only [Memory.readWord, Memory.writeWord, Memory.read_write, if_neg (show a ≠ a + 1 by omega), if_true]
  exact congrArg some (colour_bytes v)

/-- A stored word leaves a word at another even offset alone. -/
theorem Memory.readWord_writeWord_other (m : Memory) (a a' : Nat) (v : Colour) (h : a' + 1 < a ∨ a + 1 < a') :
    (m.writeWord a v).readWord a' = m.readWord a' := by
  simp only [Memory.readWord, Memory.writeWord, Memory.read_write]
  rw [if_neg (by omega), if_neg (by omega), if_neg (by omega), if_neg (by omega)]

theorem Memory.read_writeWord_other (m : Memory) (a a' : Nat) (v : Colour) (h : a' ≠ a) (h2 : a' ≠ a + 1) :
    (m.writeWord a v).read a' = m.read a' := by
  simp only [Memory.writeWord, Memory.read_write, if_neg h, if_neg h2]

theorem Memory.wf_writeWord {m : Memory} (a : Nat) (v : Colour) (h : m.wf) : (m.writeWord a v).wf :=
  Memory.wf_write _ _ (Memory.wf_write _ _ h)

theorem Memory.within_writeWord {m : Memory} {n a : Nat} (v : Colour) (h : m.within n) (ha : a + 1 < n) :
    (m.writeWord a v).within n :=
  Memory.within_write _ (Memory.within_write _ h (by omega)) ha

end Sys2Proof.Machine
end

