-- ==== Sys2Proof/Laws/State.lean ====
section
/-! SUPPORT. One lemma per field per update of the state. -/

namespace Sys2Proof.Machine

/-! ## emit -/
@[simp] theorem State.emit_cfg (s : State) (e : Event) : (s.emit e).cfg = s.cfg := by cases e <;> rfl
@[simp] theorem State.emit_ctrl (s : State) (e : Event) : (s.emit e).ctrl = s.ctrl := by cases e <;> rfl
@[simp] theorem State.emit_fatal (s : State) (e : Event) : (s.emit e).fatal = s.fatal := by cases e <;> rfl
@[simp] theorem State.emit_err (s : State) (e : Event) : (s.emit e).err = s.err := by cases e <;> rfl
@[simp] theorem State.emit_busy (s : State) (e : Event) : (s.emit e).busy = s.busy := by cases e <;> rfl
@[simp] theorem State.emit_seqPc (s : State) (e : Event) : (s.emit e).seqPc = s.seqPc := by cases e <;> rfl
@[simp] theorem State.emit_x (s : State) (e : Event) : (s.emit e).x = s.x := by cases e <;> rfl
@[simp] theorem State.emit_ti (s : State) (e : Event) : (s.emit e).ti = s.ti := by cases e <;> rfl
@[simp] theorem State.emit_tlen (s : State) (e : Event) : (s.emit e).tlen = s.tlen := by cases e <;> rfl
@[simp] theorem State.emit_bi (s : State) (e : Event) : (s.emit e).bi = s.bi := by cases e <;> rfl
@[simp] theorem State.emit_dt (s : State) (e : Event) : (s.emit e).dt = s.dt := by cases e <;> rfl
@[simp] theorem State.emit_fb (s : State) (e : Event) : (s.emit e).fb = s.fb := by cases e <;> rfl
@[simp] theorem State.emit_tx (s : State) (e : Event) : (s.emit e).tx = s.tx := by cases e <;> rfl
@[simp] theorem State.emit_bus (s : State) (e : Event) : (s.emit e).bus = s.bus := by cases e <;> rfl
@[simp] theorem State.emit_draws (s : State) (e : Event) : (s.emit e).draws = s.draws := by cases e <;> rfl
@[simp] theorem State.emit_inbox (s : State) (e : Event) : (s.emit e).inbox = s.inbox := by cases e <;> rfl
@[simp] theorem State.emit_readData (s : State) (e : Event) : (s.emit e).readData = s.readData := by cases e <;> rfl
@[simp] theorem State.emit_tr (s : State) (e : Event) : (s.emit e).tr = s.tr ++ [e] := by cases e <;> rfl

@[simp] theorem State.emit_cs_cs (s : State) (l : Level) : (s.emit (.cs l)).cs = l := rfl
@[simp] theorem State.emit_dc_cs (s : State) (l : Level) : (s.emit (.dc l)).cs = s.cs := rfl
@[simp] theorem State.emit_rst_cs (s : State) (a : RstLine) : (s.emit (.rst a)).cs = s.cs := rfl
@[simp] theorem State.emit_byte_cs (s : State) (b : Byte) : (s.emit (.byte b)).cs = s.cs := rfl
@[simp] theorem State.emit_delay_cs (s : State) (t : Nat) : (s.emit (.delay t)).cs = s.cs := rfl
@[simp] theorem State.emit_cs_dc (s : State) (l : Level) : (s.emit (.cs l)).dc = s.dc := rfl
@[simp] theorem State.emit_dc_dc (s : State) (l : Level) : (s.emit (.dc l)).dc = l := rfl
@[simp] theorem State.emit_rst_dc (s : State) (a : RstLine) : (s.emit (.rst a)).dc = s.dc := rfl
@[simp] theorem State.emit_byte_dc (s : State) (b : Byte) : (s.emit (.byte b)).dc = s.dc := rfl
@[simp] theorem State.emit_delay_dc (s : State) (t : Nat) : (s.emit (.delay t)).dc = s.dc := rfl
@[simp] theorem State.emit_cs_rst (s : State) (l : Level) : (s.emit (.cs l)).rst = s.rst := rfl
@[simp] theorem State.emit_dc_rst (s : State) (l : Level) : (s.emit (.dc l)).rst = s.rst := rfl
@[simp] theorem State.emit_rst_rst (s : State) (a : RstLine) : (s.emit (.rst a)).rst = a := rfl
@[simp] theorem State.emit_byte_rst (s : State) (b : Byte) : (s.emit (.byte b)).rst = s.rst := rfl
@[simp] theorem State.emit_delay_rst (s : State) (t : Nat) : (s.emit (.delay t)).rst = s.rst := rfl

/-! ## delay -/
@[simp] theorem State.delay_cfg (s : State) (t : Nat) : (s.delay t).cfg = s.cfg := rfl
@[simp] theorem State.delay_ctrl (s : State) (t : Nat) : (s.delay t).ctrl = s.ctrl := rfl
@[simp] theorem State.delay_fatal (s : State) (t : Nat) : (s.delay t).fatal = s.fatal := rfl
@[simp] theorem State.delay_err (s : State) (t : Nat) : (s.delay t).err = s.err := rfl
@[simp] theorem State.delay_busy (s : State) (t : Nat) : (s.delay t).busy = s.busy := rfl
@[simp] theorem State.delay_seqPc (s : State) (t : Nat) : (s.delay t).seqPc = s.seqPc := rfl
@[simp] theorem State.delay_x (s : State) (t : Nat) : (s.delay t).x = s.x := rfl
@[simp] theorem State.delay_ti (s : State) (t : Nat) : (s.delay t).ti = s.ti := rfl
@[simp] theorem State.delay_tlen (s : State) (t : Nat) : (s.delay t).tlen = s.tlen := rfl
@[simp] theorem State.delay_bi (s : State) (t : Nat) : (s.delay t).bi = s.bi := rfl
@[simp] theorem State.delay_fb (s : State) (t : Nat) : (s.delay t).fb = s.fb := rfl
@[simp] theorem State.delay_tx (s : State) (t : Nat) : (s.delay t).tx = s.tx := rfl
@[simp] theorem State.delay_cs (s : State) (t : Nat) : (s.delay t).cs = s.cs := rfl
@[simp] theorem State.delay_dc (s : State) (t : Nat) : (s.delay t).dc = s.dc := rfl
@[simp] theorem State.delay_rst (s : State) (t : Nat) : (s.delay t).rst = s.rst := rfl
@[simp] theorem State.delay_bus (s : State) (t : Nat) : (s.delay t).bus = s.bus := rfl
@[simp] theorem State.delay_draws (s : State) (t : Nat) : (s.delay t).draws = s.draws := rfl
@[simp] theorem State.delay_inbox (s : State) (t : Nat) : (s.delay t).inbox = s.inbox := rfl
@[simp] theorem State.delay_readData (s : State) (t : Nat) : (s.delay t).readData = s.readData := rfl
@[simp] theorem State.delay_dt (s : State) (t : Nat) : (s.delay t).dt = 0 := rfl
@[simp] theorem State.delay_tr (s : State) (t : Nat) : (s.delay t).tr = s.tr ++ [.delay t] := rfl

/-! ## setMem -/
@[simp] theorem State.setMem_cfg (s : State) (p : Space) (m : Memory) : (s.setMem p m).cfg = s.cfg := by cases p <;> rfl
@[simp] theorem State.setMem_ctrl (s : State) (p : Space) (m : Memory) : (s.setMem p m).ctrl = s.ctrl := by cases p <;> rfl
@[simp] theorem State.setMem_fatal (s : State) (p : Space) (m : Memory) : (s.setMem p m).fatal = s.fatal := by cases p <;> rfl
@[simp] theorem State.setMem_err (s : State) (p : Space) (m : Memory) : (s.setMem p m).err = s.err := by cases p <;> rfl
@[simp] theorem State.setMem_busy (s : State) (p : Space) (m : Memory) : (s.setMem p m).busy = s.busy := by cases p <;> rfl
@[simp] theorem State.setMem_seqPc (s : State) (p : Space) (m : Memory) : (s.setMem p m).seqPc = s.seqPc := by cases p <;> rfl
@[simp] theorem State.setMem_x (s : State) (p : Space) (m : Memory) : (s.setMem p m).x = s.x := by cases p <;> rfl
@[simp] theorem State.setMem_ti (s : State) (p : Space) (m : Memory) : (s.setMem p m).ti = s.ti := by cases p <;> rfl
@[simp] theorem State.setMem_tlen (s : State) (p : Space) (m : Memory) : (s.setMem p m).tlen = s.tlen := by cases p <;> rfl
@[simp] theorem State.setMem_bi (s : State) (p : Space) (m : Memory) : (s.setMem p m).bi = s.bi := by cases p <;> rfl
@[simp] theorem State.setMem_dt (s : State) (p : Space) (m : Memory) : (s.setMem p m).dt = s.dt := by cases p <;> rfl
@[simp] theorem State.setMem_cs (s : State) (p : Space) (m : Memory) : (s.setMem p m).cs = s.cs := by cases p <;> rfl
@[simp] theorem State.setMem_dc (s : State) (p : Space) (m : Memory) : (s.setMem p m).dc = s.dc := by cases p <;> rfl
@[simp] theorem State.setMem_rst (s : State) (p : Space) (m : Memory) : (s.setMem p m).rst = s.rst := by cases p <;> rfl
@[simp] theorem State.setMem_tr (s : State) (p : Space) (m : Memory) : (s.setMem p m).tr = s.tr := by cases p <;> rfl
@[simp] theorem State.setMem_bus (s : State) (p : Space) (m : Memory) : (s.setMem p m).bus = s.bus := by cases p <;> rfl
@[simp] theorem State.setMem_draws (s : State) (p : Space) (m : Memory) : (s.setMem p m).draws = s.draws := by cases p <;> rfl
@[simp] theorem State.setMem_inbox (s : State) (p : Space) (m : Memory) : (s.setMem p m).inbox = s.inbox := by cases p <;> rfl
@[simp] theorem State.setMem_readData (s : State) (p : Space) (m : Memory) : (s.setMem p m).readData = s.readData := by cases p <;> rfl
@[simp] theorem State.setMem_fb_fb (s : State) (m : Memory) : (s.setMem .fb m).fb = m := rfl
@[simp] theorem State.setMem_tx_fb (s : State) (m : Memory) : (s.setMem .tx m).fb = s.fb := rfl
@[simp] theorem State.setMem_fb_tx (s : State) (m : Memory) : (s.setMem .fb m).tx = s.tx := rfl
@[simp] theorem State.setMem_tx_tx (s : State) (m : Memory) : (s.setMem .tx m).tx = m := rfl
@[simp] theorem State.mem_setMem_same (s : State) (p : Space) (m : Memory) : (s.setMem p m).mem p = m := by cases p <;> rfl

/-! ## takeError -/
@[simp] theorem State.takeError_cfg (s : State) (e : Err) : (s.takeError e).cfg = s.cfg := by cases e <;> rfl
@[simp] theorem State.takeError_ctrl (s : State) (e : Err) : (s.takeError e).ctrl = s.ctrl := by cases e <;> rfl
@[simp] theorem State.takeError_seqPc (s : State) (e : Err) : (s.takeError e).seqPc = s.seqPc := by cases e <;> rfl
@[simp] theorem State.takeError_x (s : State) (e : Err) : (s.takeError e).x = s.x := by cases e <;> rfl
@[simp] theorem State.takeError_ti (s : State) (e : Err) : (s.takeError e).ti = s.ti := by cases e <;> rfl
@[simp] theorem State.takeError_tlen (s : State) (e : Err) : (s.takeError e).tlen = s.tlen := by cases e <;> rfl
@[simp] theorem State.takeError_bi (s : State) (e : Err) : (s.takeError e).bi = s.bi := by cases e <;> rfl
@[simp] theorem State.takeError_dt (s : State) (e : Err) : (s.takeError e).dt = s.dt := by cases e <;> rfl
@[simp] theorem State.takeError_fb (s : State) (e : Err) : (s.takeError e).fb = s.fb := by cases e <;> rfl
@[simp] theorem State.takeError_tx (s : State) (e : Err) : (s.takeError e).tx = s.tx := by cases e <;> rfl
@[simp] theorem State.takeError_tr (s : State) (e : Err) : (s.takeError e).tr = s.tr := by cases e <;> rfl
@[simp] theorem State.takeError_bus (s : State) (e : Err) : (s.takeError e).bus = s.bus := by cases e <;> rfl
@[simp] theorem State.takeError_inbox (s : State) (e : Err) : (s.takeError e).inbox = s.inbox := by cases e <;> rfl
@[simp] theorem State.takeError_readData (s : State) (e : Err) : (s.takeError e).readData = s.readData := by cases e <;> rfl
@[simp] theorem State.takeError_err (s : State) (e : Err) : (s.takeError e).err = e := by cases e <;> rfl

/-- Only a transport failure sets `FATAL` (R12). -/
@[simp] theorem State.takeError_fatal (s : State) (e : Err) :
    (s.takeError e).fatal = (s.fatal || decide (e = .transportFailure)) := by
  cases e <;> simp [State.takeError]

/-- The two handshake errors leave `BUSY` (R209, R211); every other error ends the request. -/
@[simp] theorem State.takeError_busy (s : State) (e : Err) :
    (s.takeError e).busy = (s.busy && decide (e = .dead ∨ e = .illegalRequest)) := by
  cases e <;> simp [State.takeError]

/-- Only a transport failure leaves the pins without a defined level (U3). -/
theorem State.takeError_pins (s : State) (e : Err) (h : e ≠ .transportFailure) :
    (s.takeError e).cs = s.cs ∧ (s.takeError e).dc = s.dc ∧ (s.takeError e).rst = s.rst ∧
      (s.takeError e).draws = s.draws := by
  cases e <;> simp_all [State.takeError]

/-! ## accept and finish -/
@[simp] theorem State.accept_cfg (s : State) : s.accept.cfg = s.cfg := rfl
@[simp] theorem State.finish_cfg (s : State) : s.finish.cfg = s.cfg := rfl
@[simp] theorem State.accept_ctrl (s : State) : s.accept.ctrl = s.ctrl := rfl
@[simp] theorem State.finish_ctrl (s : State) : s.finish.ctrl = s.ctrl := rfl
@[simp] theorem State.accept_fatal (s : State) : s.accept.fatal = s.fatal := rfl
@[simp] theorem State.finish_fatal (s : State) : s.finish.fatal = s.fatal := rfl
@[simp] theorem State.accept_err (s : State) : s.accept.err = s.err := rfl
@[simp] theorem State.accept_seqPc (s : State) : s.accept.seqPc = s.seqPc := rfl
@[simp] theorem State.finish_seqPc (s : State) : s.finish.seqPc = s.seqPc := rfl
@[simp] theorem State.accept_x (s : State) : s.accept.x = s.x := rfl
@[simp] theorem State.finish_x (s : State) : s.finish.x = s.x := rfl
@[simp] theorem State.accept_ti (s : State) : s.accept.ti = s.ti := rfl
@[simp] theorem State.finish_ti (s : State) : s.finish.ti = s.ti := rfl
@[simp] theorem State.accept_tlen (s : State) : s.accept.tlen = s.tlen := rfl
@[simp] theorem State.finish_tlen (s : State) : s.finish.tlen = s.tlen := rfl
@[simp] theorem State.accept_bi (s : State) : s.accept.bi = s.bi := rfl
@[simp] theorem State.finish_bi (s : State) : s.finish.bi = s.bi := rfl
@[simp] theorem State.accept_dt (s : State) : s.accept.dt = s.dt := rfl
@[simp] theorem State.finish_dt (s : State) : s.finish.dt = s.dt := rfl
@[simp] theorem State.accept_fb (s : State) : s.accept.fb = s.fb := rfl
@[simp] theorem State.finish_fb (s : State) : s.finish.fb = s.fb := rfl
@[simp] theorem State.accept_tx (s : State) : s.accept.tx = s.tx := rfl
@[simp] theorem State.finish_tx (s : State) : s.finish.tx = s.tx := rfl
@[simp] theorem State.accept_cs (s : State) : s.accept.cs = s.cs := rfl
@[simp] theorem State.finish_cs (s : State) : s.finish.cs = s.cs := rfl
@[simp] theorem State.accept_dc (s : State) : s.accept.dc = s.dc := rfl
@[simp] theorem State.finish_dc (s : State) : s.finish.dc = s.dc := rfl
@[simp] theorem State.accept_rst (s : State) : s.accept.rst = s.rst := rfl
@[simp] theorem State.finish_rst (s : State) : s.finish.rst = s.rst := rfl
@[simp] theorem State.accept_tr (s : State) : s.accept.tr = s.tr := rfl
@[simp] theorem State.finish_tr (s : State) : s.finish.tr = s.tr := rfl
@[simp] theorem State.accept_bus (s : State) : s.accept.bus = s.bus := rfl
@[simp] theorem State.finish_bus (s : State) : s.finish.bus = s.bus := rfl
@[simp] theorem State.accept_draws (s : State) : s.accept.draws = s.draws := rfl
@[simp] theorem State.finish_draws (s : State) : s.finish.draws = s.draws := rfl
@[simp] theorem State.accept_inbox (s : State) : s.accept.inbox = s.inbox := rfl
@[simp] theorem State.finish_inbox (s : State) : s.finish.inbox = s.inbox := rfl
@[simp] theorem State.accept_readData (s : State) : s.accept.readData = s.readData := rfl
@[simp] theorem State.finish_readData (s : State) : s.finish.readData = s.readData := rfl
@[simp] theorem State.accept_busy (s : State) : s.accept.busy = true := rfl
@[simp] theorem State.finish_busy (s : State) : s.finish.busy = false := rfl
@[simp] theorem State.finish_err (s : State) : s.finish.err = .none := rfl

end Sys2Proof.Machine
end

