-- ==== Sys2Proof/Laws/Ops.lean ====
section
/-! SUPPORT. One lemma per shared operation: what it does when the bus answers ok, what when it answers fail,
and that it fails or refuses only where said. -/

namespace Sys2Proof.Machine

/-! ## Sequencing -/

@[simp] theorem Result.bind_done (s : State) (k : State → Result) : (Result.done s).bind k = k s := rfl
@[simp] theorem Result.bind_raised (s : State) (k : State → Result) : (Result.raised s).bind k = .raised s := rfl
@[simp] theorem Result.bind_fault (f : Fault) (k : State → Result) : (Result.fault f).bind k = .fault f := rfl
@[simp] theorem Result.bind_refused (r : Refusal) (k : State → Result) :
    (Result.refused r).bind k = .refused r := rfl

theorem Result.bind_assoc (r : Result) (k l : State → Result) :
    (r.bind k).bind l = r.bind fun s => (k s).bind l := by
  cases r <;> rfl

/-! ## The bus environment -/

theorem busAllows_zero (b : Option BusFailure) : busAllows b 0 = true := by
  cases b <;> simp [busAllows]

theorem busAllows_mono {b : Option BusFailure} {m n : Nat} (h : busAllows b n = true) (hmn : m ≤ n) :
    busAllows b m = true := by
  cases b <;> simp_all [busAllows]
  omega

/-- The answers left after `k` successful transactions. -/
theorem busAllows_drop {b : Option BusFailure} {k n : Nat} (h : busAllows b (k + n) = true) :
    busAllows (busDrop b k) n = true := by
  cases b <;> simp_all [busAllows, busDrop]
  omega

@[simp] theorem busDrop_zero (b : Option BusFailure) : busDrop b 0 = b := by
  cases b <;> simp [busDrop]

@[simp] theorem busDrop_drop (b : Option BusFailure) (m n : Nat) : busDrop (busDrop b m) n = busDrop b (m + n) := by
  cases b <;> simp [busDrop]
  omega

theorem State.busNext_eq (s : State) : s.busNext = busDrop s.bus 1 := by
  cases h : s.bus <;> simp [State.busNext, busDrop, h]

theorem State.busFails_of_busOk {s : State} {n : Nat} (h : s.busOk (n + 1) = true) : s.busFails = false := by
  cases hs : s.bus <;> simp_all [State.busOk, busAllows, State.busFails]
  omega

theorem State.busOk_of_not_fails {s : State} (h : s.busFails = false) : s.busOk 1 = true := by
  cases hs : s.bus <;> simp_all [State.busOk, busAllows, State.busFails]
  omega

theorem State.bytesOut_of_busOk {s : State} {n : Nat} (h : s.busOk (n + 1) = true) (k : Nat) :
    s.bytesOut k = k := by
  cases hs : s.bus <;> simp_all [State.busOk, busAllows, State.bytesOut]
  omega

theorem State.bytesOut_le (s : State) (n : Nat) : s.bytesOut n ≤ n := by
  simp only [State.bytesOut]; split
  · split <;> omega
  · exact le_rfl

/-! ## Events -/

theorem State.emitBytes_eq (s : State) (l : List Byte) :
    s.emitBytes l = { s with tr := s.tr ++ l.map Event.byte } := by
  induction l generalizing s with
  | nil => simp [State.emitBytes]
  | cons b l ih => rw [State.emitBytes, ih]; simp [State.emit]

/-! ## Transactions (R70, R102) -/

/-- A transaction the bus answers ok. -/
theorem transaction_ok {s : State} {n : Nat} (m : Level) (l : List Byte) (h : s.busOk (n + 1) = true) :
    transaction m l s = .done { s with
      cs := 1, dc := m, tr := s.tr ++ ([.cs 0, .dc m] ++ l.map .byte ++ [.cs 1]), bus := s.busAfter 1 } := by
  have h1 : ((s.emit (.cs 0)).emit (.dc m)).busFails = false := by
    simpa [State.busFails] using State.busFails_of_busOk h
  simp only [transaction, xfer, h1, Bool.false_eq_true, if_false, Result.bind_done, State.emitBytes_eq]
  simp [State.emit, State.busNext_eq, State.busAfter]

/-- A transaction the bus answers fail. -/
theorem transaction_fail {s : State} (m : Level) (l : List Byte) (h : s.busFails = true) :
    transaction m l s = .raised
      (({ s with tr := s.tr ++ ([.cs 0, .dc m] ++ (l.take (s.bytesOut l.length)).map .byte) } : State).takeError
        .transportFailure) := by
  have h1 : ((s.emit (.cs 0)).emit (.dc m)).busFails = true := by simpa [State.busFails] using h
  have h2 : ((s.emit (.cs 0)).emit (.dc m)).bytesOut l.length = s.bytesOut l.length := by
    simp [State.bytesOut]
  simp only [transaction, xfer, h1, if_true, State.raise, Result.bind_raised, State.emitBytes_eq, h2]
  simp [State.emit, State.takeError]

/-- A transaction ends in one of two ways. -/
theorem transaction_cases (m : Level) (l : List Byte) (s : State) :
    (s.busOk 1 = true ∧ transaction m l s = .done { s with
      cs := 1, dc := m, tr := s.tr ++ ([.cs 0, .dc m] ++ l.map .byte ++ [.cs 1]), bus := s.busAfter 1 }) ∨
    (s.busFails = true ∧ transaction m l s = .raised
      (({ s with tr := s.tr ++ ([.cs 0, .dc m] ++ (l.take (s.bytesOut l.length)).map .byte) } : State).takeError
        .transportFailure)) := by
  cases h : s.busFails
  · left
    exact ⟨State.busOk_of_not_fails h, transaction_ok (n := 0) m l (State.busOk_of_not_fails h)⟩
  · exact .inr ⟨rfl, transaction_fail m l h⟩

/-! ## CommandChannel (R100, R101) -/

theorem sendCommand_ok {s : State} {n : Nat} (c : Byte) (h : s.busOk (n + 1) = true) :
    sendCommand c s = .done { s with
      cs := 1, dc := 0, tr := s.tr ++ cmdEvents c, bus := s.busAfter 1 } := by
  rw [sendCommand, transaction_ok 0 [c] h]; rfl

theorem sendData_ok {s : State} {n : Nat} (l : List Byte) (hl : l ≠ []) (h : s.busOk (n + 1) = true) :
    sendData l s = .done { s with
      cs := 1, dc := 1, bi := BitVec.ofNat 18 l.length, tr := s.tr ++ datEvents l, bus := s.busAfter 1 } := by
  rw [sendData, if_neg hl, transaction_ok (n := n) 1 l (by simpa [State.busOk] using h),
    State.bytesOut_of_busOk h]
  rfl

theorem sendData_nil (s : State) : sendData [] s = .refused .emptyData := rfl

theorem sendWire_ok {s : State} {n : Nat} (c : Byte) (l : List Byte) (hl : l ≠ []) (h : s.busOk (n + 2) = true) :
    sendWire c l s = .done { s with
      cs := 1, dc := 1, bi := BitVec.ofNat 18 l.length, tr := s.tr ++ wireEvents c l, bus := s.busAfter 2 } := by
  rw [sendWire, sendCommand_ok (n := n + 1) c h, Result.bind_done, sendData_ok (n := n) l hl]
  · simp [wireEvents, State.busAfter]
  · exact busAllows_drop (k := 1) (by rwa [show 1 + (n + 1) = n + 2 by omega])

/-- The data transactions of a burst, none of them empty. -/
theorem sendAll_ok {s : State} {n : Nat} (ls : List (List Byte)) (hl : ∀ l ∈ ls, l ≠ [])
    (h : s.busOk (ls.length + n) = true) (hne : ls ≠ []) :
    sendAll ls s = .done { s with
      cs := 1, dc := 1, bi := BitVec.ofNat 18 (ls.getLast hne).length,
      tr := s.tr ++ ls.flatMap datEvents, bus := s.busAfter ls.length } := by
  induction ls generalizing s with
  | nil => exact absurd rfl hne
  | cons l ls ih =>
    have h1 : s.busOk ((ls.length + n) + 1) = true := by
      rw [List.length_cons] at h; rwa [show ls.length + n + 1 = ls.length + 1 + n by omega]
    have h2 : busAllows (busDrop s.bus 1) (ls.length + n) = true := busAllows_drop (by rwa [Nat.add_comm 1])
    rw [sendAll, sendData_ok (n := ls.length + n) l (hl l List.mem_cons_self) h1, Result.bind_done]
    by_cases hls : ls = []
    · subst hls; simp [sendAll]
    · rw [ih (fun l' hl' => hl l' (List.mem_cons_of_mem _ hl')) (by exact h2) hls]
      simp [State.busAfter, List.getLast_cons hls, Nat.add_comm]

/-! ## Burst chunks (R166, R167) -/

theorem cutChunks_flatten (fuel n : Nat) (s : List Byte) (hn : 0 < n) (hf : s.length ≤ fuel) :
    (cutChunks fuel n s).flatten = s := by
  induction fuel generalizing s with
  | zero => simp [cutChunks, List.length_eq_zero_iff.1 (Nat.le_zero.1 hf)]
  | succ fuel ih =>
    rw [cutChunks]
    split
    · next h => simp [h]
    · next h =>
      have : 0 < s.length := List.length_pos_iff.2 h
      rw [List.flatten_cons, ih _ (by rw [List.length_drop]; omega), List.take_append_drop]

theorem cutChunks_ne_nil (fuel n : Nat) (s : List Byte) (hn : 0 < n) : ∀ l ∈ cutChunks fuel n s, l ≠ [] := by
  induction fuel generalizing s with
  | zero => simp [cutChunks]
  | succ fuel ih =>
    rw [cutChunks]
    split
    · simp
    · next h =>
      intro l hl
      rcases List.mem_cons.1 hl with rfl | hl
      · intro h2
        have := congrArg List.length h2
        have : 0 < s.length := List.length_pos_iff.2 h
        simp only [List.length_take, List.length_nil] at *
        omega
      · exact ih _ l hl

/-- The burst's data strings put together are the burst (U20). -/
theorem burstChunks_flatten (n : Nat) (s : List Byte) : (burstChunks n s).flatten = s := by
  rw [burstChunks]
  split
  · simp
  · exact cutChunks_flatten _ _ _ (by omega) le_rfl

theorem burstChunks_ne_nil (n : Nat) (s : List Byte) (hs : s ≠ []) : ∀ l ∈ burstChunks n s, l ≠ [] := by
  rw [burstChunks]
  split
  · simpa using hs
  · exact cutChunks_ne_nil _ _ _ (by omega)

theorem length_cutChunks (fuel n : Nat) (s : List Byte) (hn : 0 < n) (hf : s.length ≤ fuel) :
    (cutChunks fuel n s).length = (s.length + n - 1) / n := by
  induction fuel generalizing s with
  | zero =>
    rw [cutChunks, List.length_eq_zero_iff.1 (Nat.le_zero.1 hf)]
    simp only [List.length_nil, Nat.zero_add]
    exact (Nat.div_eq_of_lt (by omega)).symm
  | succ fuel ih =>
    rw [cutChunks]
    split
    · next h => subst h; simp only [List.length_nil, Nat.zero_add]; exact (Nat.div_eq_of_lt (by omega)).symm
    · next h =>
      have hp : 0 < s.length := List.length_pos_iff.2 h
      rw [List.length_cons, ih _ (by rw [List.length_drop]; omega), List.length_drop]
      by_cases hle : s.length ≤ n
      · rw [show s.length - n = 0 by omega, Nat.div_eq_of_lt (by omega : 0 + n - 1 < n)]
        rw [show s.length + n - 1 = (s.length - 1) + n by omega, Nat.add_div_right _ hn,
          Nat.div_eq_of_lt (by omega)]
      · rw [show s.length + n - 1 = (s.length - n + n - 1) + n by omega, Nat.add_div_right _ hn]

/-- The number of data transactions of the burst (R167). -/
theorem length_burstChunks (c : Cfg) (s : List Byte) (hs : s.length = c.nbytes) :
    (burstChunks c.burstChunk s).length = c.burstCount := by
  rw [burstChunks, Cfg.burstCount]
  split
  · rfl
  · rw [length_cutChunks _ _ _ (by omega) le_rfl, hs]

theorem cutChunks_getLast (fuel n : Nat) (s : List Byte) (hn : 0 < n) (hf : s.length ≤ fuel)
    (hne : cutChunks fuel n s ≠ []) :
    ((cutChunks fuel n s).getLast hne).length = s.length - ((cutChunks fuel n s).length - 1) * n := by
  induction fuel generalizing s with
  | zero => exact absurd rfl hne
  | succ fuel ih =>
    by_cases h : s = []
    · exact absurd (by rw [cutChunks, if_pos h]) hne
    · have he : cutChunks (fuel + 1) n s = s.take n :: cutChunks fuel n (s.drop n) := by rw [cutChunks, if_neg h]
      have hp : 0 < s.length := List.length_pos_iff.2 h
      simp only [he]
      by_cases h2 : cutChunks fuel n (s.drop n) = []
      · simp only [h2, List.getLast_singleton, List.length_take, List.length_singleton]
        have := cutChunks_flatten fuel n (s.drop n) hn (by rw [List.length_drop]; omega)
        rw [h2] at this
        have := congrArg List.length this
        simp only [List.flatten_nil, List.length_nil, List.length_drop] at this
        omega
      · rw [List.getLast_cons h2, ih _ (by rw [List.length_drop]; omega) h2]
        have : 0 < (cutChunks fuel n (s.drop n)).length := List.length_pos_iff.2 h2
        rw [List.length_drop, List.length_cons, Nat.add_sub_cancel]
        obtain ⟨k, hk⟩ : ∃ k, (cutChunks fuel n (s.drop n)).length = k + 1 := ⟨_, (Nat.sub_add_cancel this).symm⟩
        rw [hk, Nat.add_sub_cancel, Nat.succ_mul]
        omega

/-- The length of the burst's last data transaction (R167). -/
theorem burstChunks_getLast (c : Cfg) (s : List Byte) (hs : s.length = c.nbytes)
    (hne : burstChunks c.burstChunk s ≠ []) :
    ((burstChunks c.burstChunk s).getLast hne).length = c.lastChunk := by
  have hc := length_burstChunks c s hs
  rw [Cfg.lastChunk]
  simp only [burstChunks] at *
  split
  · next h => simp [hs]
  · next h =>
    simp only [h, if_false] at hc hne ⊢
    rw [cutChunks_getLast _ _ _ (by omega) le_rfl, hc, hs]

/-! ## Window, transcoder and burst -/

theorem casetPayload_ne_nil (x : WinRegs) : casetPayload x ≠ [] := by simp [casetPayload]
theorem rasetPayload_ne_nil (x : WinRegs) : rasetPayload x ≠ [] := by simp [rasetPayload]

theorem sendWindow_ok {s : State} {n : Nat} (h : s.busOk (n + 5) = true) :
    sendWindow s = .done { s with
      cs := 1, dc := 0, bi := 4, tr := s.tr ++ windowEvents s.x, bus := s.busAfter 5 } := by
  rw [sendWindow, sendWire_ok (n := n + 3) _ _ (casetPayload_ne_nil _) h, Result.bind_done,
    sendWire_ok (n := n + 1) _ _ (rasetPayload_ne_nil _), Result.bind_done, sendCommand_ok (n := n)]
  · simp [windowEvents, State.busAfter, rasetPayload]
  · exact busAllows_drop (k := 4) (b := s.bus) (by rwa [show 4 + (n + 1) = n + 5 by omega]) |> (by
      simpa [State.busOk, State.busAfter] using ·)
  · exact busAllows_drop (k := 2) (by rwa [show 2 + (n + 1 + 2) = n + 5 by omega])

/-- A window inside the range is sent (R112, R114). -/
theorem setWindow_ok {s : State} {n : Nat} (x0 y0 x1 y1 : Byte)
    (hr : (windowRegs s.cfg x0 y0 x1 y1).outOfRange = false) (h : s.busOk (n + 5) = true) :
    setWindow x0 y0 x1 y1 s = .done { s with
      x := windowRegs s.cfg x0 y0 x1 y1, cs := 1, dc := 0, bi := 4
      tr := s.tr ++ windowEvents (windowRegs s.cfg x0 y0 x1 y1), bus := s.busAfter 5 } := by
  simp only [setWindow, hr, Bool.false_eq_true, if_false]
  rw [sendWindow_ok (n := n) (by simpa [State.busOk] using h)]
  rfl

/-- A window outside the range raises before anything is emitted (R113). -/
theorem setWindow_range {s : State} (x0 y0 x1 y1 : Byte)
    (hr : (windowRegs s.cfg x0 y0 x1 y1).outOfRange = true) :
    setWindow x0 y0 x1 y1 s = .raised { s with
      x := windowRegs s.cfg x0 y0 x1 y1, err := .windowRange, busy := false } := by
  simp only [setWindow, hr, if_true]; rfl

theorem swapPairs_length (l : List Byte) : (swapPairs l).length = 2 * (l.length / 2) := by
  induction l using swapPairs.induct with
  | case1 a b r ih => simp only [swapPairs, List.length_cons, ih]; omega
  | case2 l h =>
    match l, h with
    | [], _ => rfl
    | [a], _ => simp [swapPairs]
    | a :: b :: r, h => exact absurd rfl (h a b r)

/-- Byte by byte, pairs exchanged (R146). -/
theorem swapPairs_getElem (l : List Byte) (i : Nat) (hi : i < l.length / 2) :
    (swapPairs l)[2 * i]? = l[2 * i + 1]? ∧ (swapPairs l)[2 * i + 1]? = l[2 * i]? := by
  induction l using swapPairs.induct generalizing i with
  | case1 a b r ih =>
    cases i with
    | zero => simp [swapPairs]
    | succ i =>
      simp only [List.length_cons] at hi
      have := ih i (by omega)
      simp only [swapPairs, show 2 * (i + 1) = 2 * i + 1 + 1 by omega, List.getElem?_cons_succ]
      exact this
  | case2 l h =>
    match l, h with
    | [], _ => simp at hi
    | [a], _ => simp at hi
    | a :: b :: r, h => exact absurd rfl (h a b r)

/-- The exchange is its own inverse on even lengths (R149). -/
theorem swapPairs_swapPairs (l : List Byte) (h : l.length % 2 = 0) : swapPairs (swapPairs l) = l := by
  induction l using swapPairs.induct with
  | case1 a b r ih =>
    simp only [List.length_cons] at h
    simp only [swapPairs, ih (by omega)]
  | case2 l h2 =>
    match l, h2, h with
    | [], _, _ => rfl
    | [a], _, h => simp at h
    | a :: b :: r, h2, _ => exact absurd rfl (h2 a b r)

theorem swapBytes_ok {s : State} {dst src : Space} {n : Nat} {l : List Byte} (hd : dst ≠ src)
    (hn : n ≤ s.cfg.nbytes) (hl : (s.mem src).readBytes 0 (2 * (n / 2)) = some l) :
    swapBytes dst src n s = .done { s.setMem dst ((s.mem dst).writeBytes 0 (swapPairs l)) with
      tlen := BitVec.ofNat 18 n, ti := BitVec.ofNat 18 (2 * (n / 2)) } := by
  rw [swapBytes, if_neg (by push Not; exact ⟨hd, hn⟩), hl]

theorem swapBytes_bad {s : State} {dst src : Space} {n : Nat} (h : dst = src ∨ s.cfg.nbytes < n) :
    swapBytes dst src n s = .raised { s with err := .badSwap, busy := false } := by
  rw [swapBytes, if_pos h]; rfl

/-- R36: a byte that the exchange must read and nothing has written. -/
theorem swapBytes_unwritten {s : State} {dst src : Space} {n a : Nat} (hd : dst ≠ src) (hn : n ≤ s.cfg.nbytes)
    (ha : a < 2 * (n / 2)) (h : (s.mem src).read a = none) : swapBytes dst src n s = .fault (.unwritten src) := by
  rw [swapBytes, if_neg (by push Not; exact ⟨hd, hn⟩), Memory.readBytes_eq_none (by omega) (by omega) h]

/-- R36: a byte of `TX` that the burst must send and nothing has written. -/
theorem burst_unwritten {s : State} {a : Nat} (ha : a < s.cfg.nbytes) (h : s.tx.read a = none) :
    burst s = .fault (.unwritten .tx) := by
  rw [burst, Memory.readBytes_eq_none (by omega) (by omega) h]

theorem burst_ok {s : State} {n : Nat} {l : List Byte} (hl : s.tx.readBytes 0 s.cfg.nbytes = some l)
    (h0 : 0 < s.cfg.nbytes) (h : s.busOk (s.cfg.burstCount + n) = true) :
    burst s = .done { s with
      cs := 1, dc := 1, bi := BitVec.ofNat 18 s.cfg.lastChunk, tr := s.tr ++ burstEvents s.cfg l
      bus := s.busAfter s.cfg.burstCount } := by
  have hlen := Memory.length_readBytes hl
  have hne : l ≠ [] := by intro hnil; rw [hnil] at hlen; simp at hlen; omega
  have hcn : burstChunks s.cfg.burstChunk l ≠ [] := by
    intro hnil
    have := burstChunks_flatten s.cfg.burstChunk l
    rw [hnil] at this; exact hne this.symm
  rw [burst, hl]
  simp only []
  rw [sendAll_ok (n := n) _ (burstChunks_ne_nil _ _ hne)
    (by rw [length_burstChunks _ _ hlen]; exact h) hcn, burstChunks_getLast _ _ hlen hcn,
    length_burstChunks _ _ hlen]
  rfl

/-! ## Configurations -/

theorem cfg_ok_iff (c : Cfg) : c.ok = true ↔
    1 ≤ c.w ∧ c.w ≤ 256 ∧ 1 ≤ c.h ∧ c.h ≤ 256 ∧ c.lw - 1 + c.oxEff.toNat ≤ 255 ∧
      c.lh - 1 + c.oyEff.toNat ≤ 255 ∧ c.payloadsOk = true := by
  simp [Cfg.ok, and_assoc]

theorem cfg_lw_range {c : Cfg} (h : c.ok = true) : 1 ≤ c.lw ∧ c.lw ≤ 256 := by
  have := (cfg_ok_iff c).1 h
  simp only [Cfg.lw]; split <;> omega

theorem cfg_lh_range {c : Cfg} (h : c.ok = true) : 1 ≤ c.lh ∧ c.lh ≤ 256 := by
  have := (cfg_ok_iff c).1 h
  simp only [Cfg.lh]; split <;> omega

theorem cfg_lw_mul_lh (c : Cfg) : c.lw * c.lh = c.npix := by
  simp only [Cfg.lw, Cfg.lh, Cfg.npix]; split
  · exact Nat.mul_comm _ _
  · rfl

theorem cfg_nbytes_pos {c : Cfg} (h : c.ok = true) : 0 < c.nbytes := by
  have := (cfg_ok_iff c).1 h
  have : 0 < c.w * c.h := Nat.mul_pos (by omega) (by omega)
  simp only [Cfg.nbytes, Cfg.npix]; omega

theorem cfg_nbytes_le {c : Cfg} (h : c.ok = true) : c.nbytes ≤ 131072 := by
  have := (cfg_ok_iff c).1 h
  have : c.w * c.h ≤ 256 * 256 := Nat.mul_le_mul (by omega) (by omega)
  simp only [Cfg.nbytes, Cfg.npix]; omega

/-- The full-screen window of a well-formed instance is inside the range (R117). -/
theorem fullWindow_inRange {c : Cfg} (h : c.ok = true) : (fullWindow c).outOfRange = false := by
  have h1 := (cfg_ok_iff c).1 h
  have h2 := cfg_lw_range h
  have h3 := cfg_lh_range h
  have h4 := c.oxEff.isLt
  have h5 := c.oyEff.isLt
  simp only [fullWindow, windowRegs, WinRegs.outOfRange, Bool.or_eq_false_iff, decide_eq_false_iff_not,
    BitVec.toNat_add, BitVec.toNat_setWidth, BitVec.toNat_ofNat, show BitVec.toNat (0 : Byte) = 0 from rfl]
  omega

/-! ## PRESENT_BODY and the ROM -/

theorem presentBody_ok {s : State} {n : Nat} {l : List Byte} (hc : s.cfg.ok = true)
    (hl : s.fb.readBytes 0 s.cfg.nbytes = some l) (h : s.busOk (5 + s.cfg.burstCount + n) = true) :
    presentBody s = .done { s with
      x := fullWindow s.cfg, ti := BitVec.ofNat 18 s.cfg.nbytes, tlen := BitVec.ofNat 18 s.cfg.nbytes
      bi := BitVec.ofNat 18 s.cfg.lastChunk, tx := s.tx.writeBytes 0 (swapPairs l)
      cs := 1, dc := 1, tr := s.tr ++ presentEvents s.cfg (swapPairs l)
      bus := s.busAfter (5 + s.cfg.burstCount) } := by
  have heven : 2 * (s.cfg.nbytes / 2) = s.cfg.nbytes := by simp only [Cfg.nbytes]; omega
  have hlen := Memory.length_readBytes hl
  have hlen2 : (swapPairs l).length = s.cfg.nbytes := by rw [swapPairs_length, hlen, heven]
  rw [presentBody, setWindow_ok (n := s.cfg.burstCount + n) _ _ _ _ (fullWindow_inRange hc)
    (by rwa [show s.cfg.burstCount + n + 5 = 5 + s.cfg.burstCount + n by omega]), Result.bind_done]
  simp only []
  rw [swapBytes_ok (l := l) (by decide) ?_ ?_, Result.bind_done, heven]
  rw [burst_ok (n := n) (l := swapPairs l)]
  · simp [presentEvents, fullWindow, State.setMem, State.mem, State.busAfter]
  · simp only [State.setMem, State.mem]
    have := Memory.readBytes_writeBytes s.tx 0 (swapPairs l)
    rwa [hlen2] at this
  · exact cfg_nbytes_pos hc
  · have h5 : busAllows (busDrop s.bus 5) (s.cfg.burstCount + n) = true :=
      busAllows_drop (by rw [← Nat.add_assoc]; exact h)
    exact h5
  · exact le_rfl
  · rw [heven]; exact hl

theorem runRom_cons (e : RomEntry) (r : List RomEntry) (s : State) (h : e ≠ .stop) :
    runRom (e :: r) s = (perform e s).bind fun s1 => runRom r { s1 with seqPc := s1.seqPc + 1 } := by
  rw [runRom, if_neg h]

theorem runRom_stop (r : List RomEntry) (s : State) : runRom (.stop :: r) s = .done s := rfl

/-! ## Requests and stand-alone runs -/

theorem request_ok {body : State → Result} {s t : State} (hb : s.busy = false) (hf : s.fatal = false)
    (h : body s.accept = .done t) : request body s = .next t.finish := by
  simp [request, hb, hf, h, Result.endRequest]

theorem request_raised {body : State → Result} {s t : State} (hb : s.busy = false) (hf : s.fatal = false)
    (h : body s.accept = .raised t) : request body s = .next t := by
  simp [request, hb, hf, h, Result.endRequest]

theorem request_dead (body : State → Result) {s : State} (hb : s.busy = false) (hf : s.fatal = true) :
    request body s = .next { s with err := .dead } := by
  simp [request, hb, hf, State.takeError]

theorem runAlone_ok {op : State → Result} {s t : State} (hf : s.fatal = false) (h : op s = .done t) :
    runAlone op s = .next t := by
  simp [runAlone, hf, h, Result.toOutcome]

theorem runAlone_raised {op : State → Result} {s t : State} (hf : s.fatal = false) (h : op s = .raised t) :
    runAlone op s = .next t := by
  simp [runAlone, hf, h, Result.toOutcome]

theorem runAlone_dead (op : State → Result) {s : State} (hf : s.fatal = true) :
    runAlone op s = .next { s with err := .dead } := by
  simp [runAlone, hf, State.takeError]

end Sys2Proof.Machine
end

