-- ==== Sys2Proof/Laws/Events.lean ====
section
/-! SUPPORT. The laws of event sequences: the bytes sent in one mode, the framing, and the cut at a transport
failure, one transaction at a time, and the window sent last. -/

namespace Sys2Proof.Machine

/-! ## Bytes of one mode -/

theorem bytesInMode_bytes (m c : Level) (l : List Byte) (r : List Event) :
    bytesInMode m c (l.map .byte ++ r) = (if c = m then l else []) ++ bytesInMode m c r := by
  induction l with
  | nil => simp
  | cons a l ih => rw [List.map_cons, List.cons_append, bytesInMode, ih]; split <;> simp

theorem bytesInMode_dat (m c : Level) (l : List Byte) (r : List Event) :
    bytesInMode m c (datEvents l ++ r) = (if 1 = m then l else []) ++ bytesInMode m 1 r := by
  simp only [datEvents, List.cons_append, List.nil_append, List.append_assoc, bytesInMode, bytesInMode_bytes]

theorem bytesInMode_cmd (m c : Level) (o : Byte) (r : List Event) :
    bytesInMode m c (cmdEvents o ++ r) = (if 0 = m then [o] else []) ++ bytesInMode m 0 r := by
  simp only [cmdEvents, List.cons_append, List.nil_append, bytesInMode]; split <;> simp

theorem bytesInMode_burst_command (c : Level) (ls : List (List Byte)) :
    bytesInMode 0 c (ls.flatMap datEvents) = [] := by
  induction ls generalizing c with
  | nil => rfl
  | cons l ls ih => rw [List.flatMap_cons, bytesInMode_dat, ih]; simp

theorem bytesInMode_burst_data (c : Level) (ls : List (List Byte)) :
    bytesInMode 1 c (ls.flatMap datEvents) = ls.flatten := by
  induction ls generalizing c with
  | nil => rfl
  | cons l ls ih => rw [List.flatMap_cons, bytesInMode_dat, ih]; simp

theorem dataBytes_burstEvents (c : Cfg) (l : List Byte) : dataBytes (burstEvents c l) = l := by
  rw [burstEvents, dataBytes, bytesInMode_burst_data, burstChunks_flatten]

/-! ## Framing (R103) -/

theorem Phase.after_append (p : Phase) (a b : List Event) :
    p.after (a ++ b) = (p.after a).bind fun q => q.after b := by
  induction a generalizing p with
  | nil => rfl
  | cons e a ih =>
    rw [List.cons_append, Phase.after, Phase.after]
    cases p.next e with
    | none => rfl
    | some q => exact ih q

theorem Phase.after_bytes (l : List Byte) : Phase.opened.after (l.map .byte) = some .opened := by
  induction l with
  | nil => rfl
  | cons b l ih => exact ih

/-- A whole transaction returns to idle. -/
theorem Phase.after_transaction (m : Level) (l : List Byte) :
    Phase.idle.after ([.cs 0, .dc m] ++ l.map .byte ++ [.cs 1]) = some .idle := by
  rw [List.append_assoc, Phase.after_append]
  show (Phase.opened.after (l.map .byte ++ [.cs 1])) = _
  rw [Phase.after_append, Phase.after_bytes]; rfl

/-- A cut transaction stays open. -/
theorem Phase.after_cut (m : Level) (l : List Byte) :
    Phase.idle.after ([.cs 0, .dc m] ++ l.map .byte) = some .opened := by
  rw [Phase.after_append]; exact Phase.after_bytes l

/-! ## The window sent last (R31, R119) -/

theorem wireLog_append (a b : List Event) : wireLog (a ++ b) = b.foldl WireLog.add (wireLog a) := List.foldl_append

theorem wireLog_cmd (w : WireLog) (o : Byte) :
    (cmdEvents o).foldl WireLog.add w = ⟨0, (o, []) :: w.commands⟩ := rfl

theorem wireLog_bytes (c : Byte) (d : List Byte) (r : List (Byte × List Byte)) (l : List Byte) :
    (l.map .byte).foldl WireLog.add ⟨1, (c, d) :: r⟩ = ⟨1, (c, d ++ l) :: r⟩ := by
  induction l generalizing d with
  | nil => rw [List.append_nil]; rfl
  | cons b l ih =>
    rw [List.map_cons, List.foldl_cons, show d ++ b :: l = d ++ [b] ++ l by simp, ← ih]
    rfl

theorem wireLog_wire (w : WireLog) (o : Byte) (l : List Byte) :
    (wireEvents o l).foldl WireLog.add w = ⟨1, (o, l) :: w.commands⟩ := by
  rw [wireEvents, List.foldl_append, wireLog_cmd, datEvents, List.foldl_append, List.foldl_append]
  show List.foldl _ (List.foldl WireLog.add ⟨1, (o, []) :: w.commands⟩ (l.map .byte)) _ = _
  rw [wireLog_bytes]
  rfl

/-- What a trace has sent after a whole window. -/
theorem wireLog_window (tr : List Event) (x : WinRegs) :
    (wireLog (tr ++ windowEvents x)).commands =
      (0x2C, []) :: (0x2B, rasetPayload x) :: (0x2A, casetPayload x) :: (wireLog tr).commands := by
  rw [wireLog_append, windowEvents, List.foldl_append, List.foldl_append, wireLog_wire, wireLog_wire, wireLog_cmd]

theorem inBurst_window {s : State} {tr : List Event} {x : WinRegs} (h : s.tr = tr ++ windowEvents x) :
    s.inBurst = true := by
  rw [State.inBurst, h, wireLog_window]; rfl

/-- SET_WINDOW ends with its RAMWR, so that no second one is directly after CASET and RASET. -/
theorem afterWindow_window {s : State} {tr : List Event} {x : WinRegs} (h : s.tr = tr ++ windowEvents x) :
    s.afterWindow = false := by
  rw [State.afterWindow, h, wireLog_window]; rfl

/-- The payloads that a whole window leaves as the newest. -/
theorem newestPayload_window (tr : List Event) (x : WinRegs) :
    newestPayload 0x2A (wireLog (tr ++ windowEvents x)).commands = casetPayload x ∧
    newestPayload 0x2B (wireLog (tr ++ windowEvents x)).commands = rasetPayload x := by
  rw [wireLog_window]; exact ⟨rfl, rfl⟩

/-- A zero-extended bound that was sent, as a number. -/
theorem toNat_bound (a : BitVec 9) : ((0x00 : Byte) ++ a.setWidth 8 : BitVec 16).toNat = a.toNat % 256 :=
  (BitVec.toNat_append 0#8 _).trans (by simp)

/-- A window is unordered exactly when a start bound that was sent is above its end bound. -/
theorem unordered_window {s : State} {tr : List Event} {x : WinRegs} (h : s.tr = tr ++ windowEvents x) :
    s.unordered = true ↔ x.wx1.toNat % 256 < x.wx0.toNat % 256 ∨ x.wy1.toNat % 256 < x.wy0.toNat % 256 := by
  rw [State.unordered, h, (newestPayload_window tr x).1, (newestPayload_window tr x).2, casetPayload, rasetPayload,
    boundsUnordered, boundsUnordered, Bool.or_eq_true, decide_eq_true_eq, decide_eq_true_eq, BitVec.lt_def,
    BitVec.lt_def, toNat_bound, toNat_bound, toNat_bound, toNat_bound]

/-- Bounds that span something are ordered. -/
theorem boundsUnordered_of_count {d : List Byte} {n : Nat} (h : boundsCount d = some n) :
    boundsUnordered d = false ∧ 0 < n := by
  match d, h with
  | [h0, l0, h1, l1], h =>
    rw [boundsCount] at h
    split at h
    · next hle =>
      cases h
      exact ⟨decide_eq_false (by rw [BitVec.lt_def]; omega), by omega⟩
    · cases h
  | [], h => cases h
  | [_], h => cases h
  | [_, _], h => cases h
  | [_, _, _], h => cases h
  | _ :: _ :: _ :: _ :: _ :: _, h => cases h

/-- A window that demands a burst is ordered, and the burst has a byte. -/
theorem unordered_of_windowBytes {s : State} {n : Nat} (h : s.windowBytes = some n) :
    s.unordered = false ∧ 0 < n := by
  rw [State.windowBytes, windowCount] at h
  split at h
  · next nx ny hx hy =>
    cases h
    have h1 := boundsUnordered_of_count hx
    have h2 := boundsUnordered_of_count hy
    exact ⟨by rw [State.unordered, h1.1, h2.1]; rfl, Nat.mul_pos (by decide) (Nat.mul_pos h1.2 h2.2)⟩
  · cases h

/-- What two bounds that were sent span. -/
theorem boundsCount_payload (a b : BitVec 9) (h : a.toNat % 256 ≤ b.toNat % 256) :
    boundsCount [0x00, a.setWidth 8, 0x00, b.setWidth 8] = some (b.toNat % 256 - a.toNat % 256 + 1) := by
  rw [boundsCount, toNat_bound, toNat_bound, if_pos h]

/-- What an ordered window demands of its burst. -/
theorem windowBytes_window {s : State} {tr : List Event} {x : WinRegs} (h : s.tr = tr ++ windowEvents x)
    (hx : x.wx0.toNat % 256 ≤ x.wx1.toNat % 256) (hy : x.wy0.toNat % 256 ≤ x.wy1.toNat % 256) :
    s.windowBytes = some (2 * ((x.wx1.toNat % 256 - x.wx0.toNat % 256 + 1) *
      (x.wy1.toNat % 256 - x.wy0.toNat % 256 + 1))) := by
  rw [State.windowBytes, h, (newestPayload_window tr x).1, (newestPayload_window tr x).2, windowCount, casetPayload,
    rasetPayload, boundsCount_payload _ _ hx, boundsCount_payload _ _ hy]

/-- Directly after a window, what fits is what it demands: exactly that, or no more in a burst of chunks. -/
theorem burstFits_window {s : State} {tr : List Event} {x : WinRegs} {m : Nat} (h : s.tr = tr ++ windowEvents x)
    (hm : s.windowBytes = some m) (n : Nat) :
    s.burstFits n = if s.cfg.burstChunk = 0 then decide (n = m) else decide (n ≤ m) := by
  rw [State.burstFits, hm, h, wireLog_window]
  show (if s.cfg.burstChunk = 0 then decide (0 + n = m) else decide (0 + n ≤ m)) = _
  rw [Nat.zero_add]

/-- Where nothing was sent that is a window, every data transaction fits. -/
theorem burstFits_of_no_window {s : State} (h : s.windowBytes = none) (n : Nat) : s.burstFits n = true := by
  rw [State.burstFits, h]
  cases (wireLog s.tr).commands <;> rfl

/-! ## The cut at a failure (R102) -/

theorem cutEvents_bytes_succ (k j : Nat) (l : List Byte) (r : List Event) :
    cutEvents (k + 1) j (l.map .byte ++ r) = l.map .byte ++ cutEvents (k + 1) j r := by
  induction l with
  | nil => rfl
  | cons b l ih => rw [List.map_cons, List.cons_append, cutEvents, ih]; rfl

theorem cutEvents_bytes_zero (j : Nat) (l : List Byte) (r : List Event) :
    cutEvents 0 j (l.map .byte ++ .cs 1 :: r) = (l.take j).map .byte := by
  induction l generalizing j with
  | nil => cases j <;> rfl
  | cons b l ih =>
    cases j with
    | zero => rw [List.map_cons, List.cons_append, cutEvents, ih]; rfl
    | succ j => rw [List.map_cons, List.cons_append, cutEvents, ih]; rfl

/-- A transaction before the failing one goes out whole. -/
theorem cutEvents_transaction_succ (k j : Nat) (m : Level) (l : List Byte) (r : List Event) :
    cutEvents (k + 1) j (([.cs 0, .dc m] ++ l.map .byte ++ [.cs 1]) ++ r) =
      ([.cs 0, .dc m] ++ l.map .byte ++ [.cs 1]) ++ cutEvents k j r := by
  have h : cutEvents (k + 1) j (.cs 1 :: r) = .cs 1 :: cutEvents k j r := rfl
  have h0 : ∀ t, cutEvents (k + 1) j (.cs 0 :: .dc m :: t) = .cs 0 :: .dc m :: cutEvents (k + 1) j t := fun t => rfl
  simp only [List.append_assoc, List.cons_append, List.nil_append, h0, cutEvents_bytes_succ, h]

/-- The failing transaction goes out as a prefix, and nothing after it. -/
theorem cutEvents_transaction_zero (j : Nat) (m : Level) (l : List Byte) (r : List Event) :
    cutEvents 0 j (([.cs 0, .dc m] ++ l.map .byte ++ [.cs 1]) ++ r) =
      [.cs 0, .dc m] ++ (l.take j).map .byte := by
  have h0 : ∀ t, cutEvents 0 j (.cs 0 :: .dc m :: t) = .cs 0 :: .dc m :: cutEvents 0 j t := by
    intro t; cases j <;> rfl
  simp only [List.append_assoc, List.cons_append, List.nil_append, h0, cutEvents_bytes_zero]

end Sys2Proof.Machine
end

