-- ==== Sys2Proof/Laws/FrameBuffer.lean ====
section
/-! SUPPORT. The laws of drawing: what a drawing operation paints, leaves alone and keeps. -/

namespace Sys2Proof.Machine

/-! ## Pixels and bytes (R41, R45) -/

/-- Both bytes of a pixel on the screen lie inside `FB`. -/
theorem pixelOffset_lt {c : Cfg} {x y : Nat} (hx : x < c.lw) (hy : y < c.lh) : pixelOffset c x y + 1 < c.nbytes := by
  have h1 : (y + 1) * c.lw ≤ c.lh * c.lw := Nat.mul_le_mul_right _ hy
  have h2 := cfg_lw_mul_lh c
  rw [Nat.mul_comm] at h2
  rw [Nat.add_mul] at h1
  simp only [Cfg.nbytes, pixelOffset]
  omega

/-- Different pixels of the screen have different offsets. -/
theorem pixelOffset_inj {c : Cfg} {x y x' y' : Nat} (hx : x < c.lw) (hx' : x' < c.lw)
    (h : pixelOffset c x y = pixelOffset c x' y') : x = x' ∧ y = y' := by
  have h : y * c.lw + x = y' * c.lw + x' := by simp only [pixelOffset] at h; omega
  have hy : y = y' := by
    have h1 : (y * c.lw + x) / c.lw = y := by
      rw [Nat.mul_comm, Nat.mul_add_div (by omega), Nat.div_eq_of_lt hx, Nat.add_zero]
    have h2 : (y' * c.lw + x') / c.lw = y' := by
      rw [Nat.mul_comm, Nat.mul_add_div (by omega), Nat.div_eq_of_lt hx', Nat.add_zero]
    rw [← h1, h, h2]
  subst hy
  exact ⟨by omega, rfl⟩

/-- The two bytes of a word put together from two bytes. -/
theorem extract_bytes (hi lo : Byte) :
    (hi ++ lo : BitVec 16).extractLsb' 8 8 = hi ∧ (hi ++ lo : BitVec 16).extractLsb' 0 8 = lo := by
  constructor <;> apply BitVec.eq_of_getLsbD_eq <;> intro i h
  · rw [BitVec.getLsbD_extractLsb', BitVec.getLsbD_append]; simp [h]
  · rw [BitVec.getLsbD_extractLsb', BitVec.getLsbD_append]; simp [h]

/-- A word that reads as a colour has the colour's two bytes (R45). -/
theorem Memory.read_of_readWord {m : Memory} {a : Nat} {v : Colour} (h : m.readWord a = some v) :
    m.read a = some (v.extractLsb' 0 8) ∧ m.read (a + 1) = some (v.extractLsb' 8 8) := by
  simp only [Memory.readWord] at h
  split at h
  · next lo hi h1 h2 =>
    cases h
    rw [(extract_bytes hi lo).1, (extract_bytes hi lo).2]
    exact ⟨h1, h2⟩
  · cases h

/-- A full frame buffer can be read whole. -/
theorem readBytes_of_fbFull {s : State} (h : s.fbFull) : ∃ l, s.fb.readBytes 0 s.cfg.nbytes = some l :=
  Option.isSome_iff_exists.1 ((Memory.readBytes_isSome s.fb 0 _).2 fun i hi => by rw [Nat.zero_add]; exact h i hi)

theorem onScreen_iff (c : Cfg) (x y : Int) :
    onScreen c x y = true ↔ 0 ≤ x ∧ x < c.lw ∧ 0 ≤ y ∧ y < c.lh := by
  simp [onScreen, and_assoc]

/-! ## Painting -/

/-- Under the configuration `cfg`, `op` gives the colour `c` to the pixels of `hit` and to no other pixel of the
screen, and changes nothing but `FB`, which it keeps well formed and whose bytes it neither adds outside the
screen nor takes away. -/
structure Paints (cfg : Cfg) (op : State → State) (hit : Nat → Nat → Prop) (c : Colour) : Prop where
  frame : ∀ s, s.cfg = cfg → op s = { s with fb := (op s).fb }
  hits : ∀ s px py, s.cfg = cfg → px < cfg.lw → py < cfg.lh → hit px py → (op s).pixel px py = some c
  misses : ∀ s px py, s.cfg = cfg → px < cfg.lw → py < cfg.lh → ¬hit px py → (op s).pixel px py = s.pixel px py
  wf : ∀ s, s.cfg = cfg → s.fb.wf → (op s).fb.wf
  within : ∀ s, s.cfg = cfg → s.fb.within cfg.nbytes → (op s).fb.within cfg.nbytes
  beyond : ∀ s a, s.cfg = cfg → cfg.nbytes ≤ a → (op s).fb.read a = s.fb.read a
  keeps : ∀ s a, s.cfg = cfg → (s.fb.read a).isSome = true → ((op s).fb.read a).isSome = true

namespace Paints

variable {cfg : Cfg} {op op' : State → State} {hit hit' : Nat → Nat → Prop} {c : Colour}

theorem cfgEq (h : Paints cfg op hit c) {s : State} (hs : s.cfg = cfg) : (op s).cfg = cfg := by
  rw [h.frame s hs]; exact hs

/-- Nothing is painted. -/
protected theorem id (cfg : Cfg) (c : Colour) : Paints cfg (fun s => s) (fun _ _ => False) c where
  frame _ _ := rfl
  hits _ _ _ _ _ _ h := h.elim
  misses _ _ _ _ _ _ _ := rfl
  wf _ _ h := h
  within _ _ h := h
  beyond _ _ _ _ := rfl
  keeps _ _ _ h := h

/-- One operation after another. -/
theorem comp (h : Paints cfg op hit c) (h' : Paints cfg op' hit' c) :
    Paints cfg (fun s => op' (op s)) (fun x y => hit x y ∨ hit' x y) c where
  frame s hs := by rw [h'.frame (op s) (h.cfgEq hs), h.frame s hs]
  hits s px py hs hx hy hh := by
    by_cases h2 : hit' px py
    · exact h'.hits _ _ _ (h.cfgEq hs) hx hy h2
    · rw [h'.misses _ _ _ (h.cfgEq hs) hx hy h2]
      exact h.hits _ _ _ hs hx hy (hh.resolve_right h2)
  misses s px py hs hx hy hh := by
    rw [h'.misses _ _ _ (h.cfgEq hs) hx hy fun h2 => hh (.inr h2), h.misses _ _ _ hs hx hy fun h2 => hh (.inl h2)]
  wf s hs hw := h'.wf _ (h.cfgEq hs) (h.wf _ hs hw)
  within s hs hw := h'.within _ (h.cfgEq hs) (h.within _ hs hw)
  beyond s a hs ha := (h'.beyond _ _ (h.cfgEq hs) ha).trans (h.beyond _ _ hs ha)
  keeps s a hs ha := h'.keeps _ _ (h.cfgEq hs) (h.keeps _ _ hs ha)

/-- The same operation and the same pixels, described otherwise. -/
theorem congr (h : Paints cfg op hit c) (ho : ∀ s, s.cfg = cfg → op' s = op s)
    (hh : ∀ x y, x < cfg.lw → y < cfg.lh → (hit' x y ↔ hit x y)) : Paints cfg op' hit' c where
  frame s hs := by rw [ho s hs]; exact h.frame s hs
  hits s px py hs hx hy hp := by rw [ho s hs]; exact h.hits s px py hs hx hy ((hh px py hx hy).1 hp)
  misses s px py hs hx hy hp := by
    rw [ho s hs]; exact h.misses s px py hs hx hy fun h2 => hp ((hh px py hx hy).2 h2)
  wf s hs := by rw [ho s hs]; exact h.wf s hs
  within s hs := by rw [ho s hs]; exact h.within s hs
  beyond s a hs := by rw [ho s hs]; exact h.beyond s a hs
  keeps s a hs := by rw [ho s hs]; exact h.keeps s a hs

/-- A fold of painting operations. -/
theorem foldl {α : Type} (l : List α) {body : α → State → State} {H : α → Nat → Nat → Prop}
    (h : ∀ i ∈ l, Paints cfg (body i) (H i) c) :
    Paints cfg (fun s => l.foldl (fun t i => body i t) s) (fun x y => ∃ i ∈ l, H i x y) c := by
  induction l with
  | nil => exact (Paints.id cfg c).congr (fun _ _ => rfl) (by simp)
  | cons i l ih =>
    refine ((h i List.mem_cons_self).comp (ih fun j hj => h j (List.mem_cons_of_mem _ hj))).congr (fun _ _ => rfl) ?_
    intro x y _ _
    simp only [List.mem_cons, exists_eq_or_imp]

/-- A loop over a signed bound. -/
theorem loop (n : Int) {body : Int → State → State} {H : Int → Nat → Nat → Prop}
    (h : ∀ i, Paints cfg (body i) (H i) c) :
    Paints cfg (forUpTo n body) (fun x y => ∃ i : Nat, (i : Int) < n ∧ H i x y) c := by
  refine (foldl (List.range n.toNat) (body := fun (i : Nat) => body i) (H := fun (i : Nat) => H i)
    fun i _ => h i).congr (fun _ _ => rfl) ?_
  intro x y _ _
  simp only [List.mem_range]
  refine exists_congr fun i => and_congr_left fun _ => ?_
  omega

end Paints

/-- R43: a pixel. -/
theorem paints_fbWrite (cfg : Cfg) (x y : Int) (c : Colour) :
    Paints cfg (fbWrite x y c) (fun px py => x = px ∧ y = py) c := by
  by_cases hon : onScreen cfg x y = true
  · obtain ⟨h1, h2, h3, h4⟩ := (onScreen_iff cfg x y).1 hon
    obtain ⟨qx, rfl⟩ := Int.eq_ofNat_of_zero_le h1
    obtain ⟨qy, rfl⟩ := Int.eq_ofNat_of_zero_le h3
    have hqx : qx < cfg.lw := by omega
    have hqy : qy < cfg.lh := by omega
    have heq : ∀ s : State, s.cfg = cfg →
        fbWrite qx qy c s = { s with fb := s.fb.writeWord (pixelOffset cfg qx qy) c } := by
      intro s hs; subst hs
      rw [fbWrite, if_pos hon]; rfl
    have hlt := pixelOffset_lt hqx hqy
    refine ⟨?_, ?_, ?_, ?_, ?_, ?_, ?_⟩
    · intro s hs; rw [heq s hs]
    · intro s px py hs _ _ hp
      obtain ⟨rfl, rfl⟩ : qx = px ∧ qy = py := ⟨by omega, by omega⟩
      rw [heq s hs]
      simp only [State.pixel, hs]
      exact Memory.readWord_writeWord_same _ _ _
    · intro s px py hs hx hy hp
      rw [heq s hs]
      simp only [State.pixel, hs]
      have hne : pixelOffset cfg px py ≠ pixelOffset cfg qx qy := fun he =>
        hp (by obtain ⟨rfl, rfl⟩ := pixelOffset_inj hx hqx he; exact ⟨rfl, rfl⟩)
      refine Memory.readWord_writeWord_other _ _ _ _ ?_
      simp only [pixelOffset] at hne ⊢
      omega
    · intro s hs hw; rw [heq s hs]; exact Memory.wf_writeWord _ _ hw
    · intro s hs hw; rw [heq s hs]; exact Memory.within_writeWord _ hw hlt
    · intro s a hs ha; rw [heq s hs]; exact Memory.read_writeWord_other _ _ _ _ (by omega) (by omega)
    · intro s a hs ha
      rw [heq s hs]
      simp only [Memory.writeWord, Memory.read_write]
      split
      · rfl
      · split
        · rfl
        · exact ha
  · refine (Paints.id cfg c).congr (fun s hs => ?_) fun px py hx hy => ?_
    · subst hs; rw [fbWrite, if_neg hon]
    · simp only [iff_false]
      rintro ⟨rfl, rfl⟩
      exact hon ((onScreen_iff _ _ _).2 ⟨by omega, by omega, by omega, by omega⟩)

/-- R128. -/
theorem paints_hline (cfg : Cfg) (x y w : Int) (c : Colour) :
    Paints cfg (drawHline x y w c) (fun px py => y = py ∧ x ≤ px ∧ (px : Int) < x + w) c := by
  refine (Paints.loop w fun i => paints_fbWrite cfg (x + i) y c).congr (fun _ _ => rfl) fun px py _ _ => ?_
  constructor
  · rintro ⟨h1, h2, h3⟩
    exact ⟨((px : Int) - x).toNat, by omega, by omega, h1⟩
  · rintro ⟨i, h1, h2, h3⟩
    exact ⟨h3, by omega, by omega⟩

/-- R129. -/
theorem paints_vline (cfg : Cfg) (x y h : Int) (c : Colour) :
    Paints cfg (drawVline x y h c) (fun px py => x = px ∧ y ≤ py ∧ (py : Int) < y + h) c := by
  refine (Paints.loop h fun j => paints_fbWrite cfg x (y + j) c).congr (fun _ _ => rfl) fun px py _ _ => ?_
  constructor
  · rintro ⟨h1, h2, h3⟩
    exact ⟨((py : Int) - y).toNat, by omega, h1, by omega⟩
  · rintro ⟨j, h1, h2, h3⟩
    exact ⟨h2, by omega, by omega⟩

/-- R132. -/
theorem paints_fillRect (cfg : Cfg) (x y w h : Int) (c : Colour) :
    Paints cfg (drawFillRect x y w h c)
      (fun px py => x ≤ px ∧ (px : Int) < x + w ∧ y ≤ py ∧ (py : Int) < y + h) c := by
  refine (Paints.loop h fun j => paints_hline cfg x (y + j) w c).congr (fun _ _ => rfl) fun px py _ _ => ?_
  constructor
  · rintro ⟨h1, h2, h3, h4⟩
    exact ⟨((py : Int) - y).toNat, by omega, by omega, h1, h2⟩
  · rintro ⟨j, h1, h2, h3, h4⟩
    exact ⟨h3, h4, by omega, by omega⟩

/-- R126. -/
theorem paints_fill (cfg : Cfg) (c : Colour) : Paints cfg (drawFill c) (fun _ _ => True) c := by
  refine (Paints.loop cfg.lh fun y => Paints.loop cfg.lw fun x => paints_fbWrite cfg x y c).congr ?_ ?_
  · intro s hs; subst hs; rfl
  · intro px py hx hy
    simp only [true_iff]
    exact ⟨py, by omega, px, by omega, rfl, rfl⟩

/-- R131. -/
theorem paints_rect (cfg : Cfg) (x y w h : Int) (c : Colour) :
    Paints cfg (drawRect x y w h c)
      (fun px py => (x ≤ px ∧ (px : Int) < x + w ∧ y ≤ py ∧ (py : Int) < y + h) ∧
        ((px : Int) = x ∨ (px : Int) = x + w - 1 ∨ (py : Int) = y ∨ (py : Int) = y + h - 1)) c := by
  by_cases hwh : w ≤ 0 ∨ h ≤ 0
  · refine (Paints.id cfg c).congr (fun s _ => by rw [drawRect, if_pos hwh]) fun px py _ _ => ?_
    constructor
    · rintro ⟨h1, _⟩; omega
    · exact False.elim
  · refine ((((paints_hline cfg x y w c).comp (paints_hline cfg x (y + h - 1) w c)).comp
      (paints_vline cfg x y h c)).comp (paints_vline cfg (x + w - 1) y h c)).congr
      (fun s _ => by rw [drawRect, if_neg hwh]) fun px py _ _ => ?_
    omega

/-- R136: one glyph. -/
theorem paints_glyph (cfg : Cfg) (ch : Nat) (x y : Int) (c : Colour) :
    Paints cfg (drawGlyph ch x y c)
      (fun px py => ∃ r q : Nat, r < 8 ∧ q < cfg.glyphW.val ∧ cfg.fontAt ch r q = true ∧
        (px : Int) = x + q ∧ (py : Int) = y + r) c := by
  have hbody : ∀ r q : Int, Paints cfg
      (fun t => if t.cfg.fontAt ch r.toNat q.toNat then fbWrite (x + q) (y + r) c t else t)
      (fun px py => cfg.fontAt ch r.toNat q.toNat = true ∧ x + q = px ∧ y + r = py) c := by
    intro r q
    by_cases hf : cfg.fontAt ch r.toNat q.toNat = true
    · refine (paints_fbWrite cfg (x + q) (y + r) c).congr (fun s hs => ?_) fun px py _ _ => by simp [hf]
      subst hs; exact if_pos hf
    · refine (Paints.id cfg c).congr (fun s hs => ?_) fun px py _ _ => by simp [hf]
      subst hs; exact if_neg hf
  refine (Paints.loop 8 fun r => Paints.loop cfg.glyphW.val fun q => hbody r q).congr ?_ ?_
  · intro s hs; subst hs; rfl
  · intro px py _ _
    constructor
    · rintro ⟨r, q, h1, h2, h3, h4, h5⟩
      exact ⟨r, by omega, q, by omega, h3, h4.symm, h5.symm⟩
    · rintro ⟨r, h1, q, h2, h3, h4, h5⟩
      exact ⟨r, q, by omega, by omega, h3, h4.symm, h5.symm⟩

/-- R136: a text. -/
theorem paints_text (cfg : Cfg) (str : List Nat) (x y : Int) (c : Colour) :
    Paints cfg (drawText str x y c)
      (fun px py => ∃ k ch r q : Nat, str[k]? = some ch ∧ r < 8 ∧ q < cfg.glyphW.val ∧ cfg.fontAt ch r q = true ∧
        (px : Int) = x + k * cfg.glyphAdv + q ∧ (py : Int) = y + r) c := by
  induction str generalizing x with
  | nil => exact (Paints.id cfg c).congr (fun _ _ => rfl) fun px py _ _ => by simp
  | cons ch str ih =>
    refine ((paints_glyph cfg ch x y c).comp (ih (x + cfg.glyphAdv))).congr ?_ ?_
    · intro s hs
      rw [drawText, hs]
    · intro px py _ _
      constructor
      · rintro ⟨k, ch', r, q, h1, h2, h3, h4, h5, h6⟩
        cases k with
        | zero =>
          cases Option.some.inj h1
          exact .inl ⟨r, q, h2, h3, h4, by simpa using h5, h6⟩
        | succ k => exact .inr ⟨k, ch', r, q, h1, h2, h3, h4, by rw [h5]; push_cast; ring, h6⟩
      · rintro (⟨r, q, h2, h3, h4, h5, h6⟩ | ⟨k, ch', r, q, h1, h2, h3, h4, h5, h6⟩)
        · exact ⟨0, ch, r, q, rfl, h2, h3, h4, by simpa using h5, h6⟩
        · exact ⟨k + 1, ch', r, q, h1, h2, h3, h4, by rw [h5]; push_cast; ring, h6⟩

/-- R130: whatever a line paints, it is painted pixel by pixel. -/
theorem paints_lineLoop (cfg : Cfg) (dx dy sx sy x1 y1 : Int) (c : Colour) (fuel : Nat) (x0 y0 err : Int) :
    ∃ hit, Paints cfg (lineLoop dx dy sx sy x1 y1 c fuel x0 y0 err) hit c := by
  induction fuel generalizing x0 y0 err with
  | zero => exact ⟨_, Paints.id cfg c⟩
  | succ fuel ih =>
    by_cases h : x0 = x1 ∧ y0 = y1
    · exact ⟨_, (paints_fbWrite cfg x0 y0 c).congr (fun s _ => by rw [lineLoop]; exact if_pos h) fun _ _ _ _ => Iff.rfl⟩
    · obtain ⟨hit, hh⟩ := ih (if decide (dy ≤ 2 * err) then x0 + sx else x0)
        (if decide (2 * err ≤ dx) then y0 + sy else y0)
        (if decide (2 * err ≤ dx) then (if decide (dy ≤ 2 * err) then err + dy else err) + dx
          else if decide (dy ≤ 2 * err) then err + dy else err)
      exact ⟨_, ((paints_fbWrite cfg x0 y0 c).comp hh).congr
        (fun s _ => by rw [lineLoop]; exact if_neg h) fun _ _ _ _ => Iff.rfl⟩

/-- Every drawing primitive paints some set of pixels in some colour, and nothing else (R125). -/
theorem paints_draw (cfg : Cfg) (d : Draw) : ∃ hit c, Paints cfg (draw d) hit c := by
  cases d with
  | fill c => exact ⟨_, c, paints_fill cfg c⟩
  | pixel x y c => exact ⟨_, c, paints_fbWrite cfg x y c⟩
  | hline x y w c => exact ⟨_, c, paints_hline cfg x y w c⟩
  | vline x y h c => exact ⟨_, c, paints_vline cfg x y h c⟩
  | line x0 y0 x1 y1 c =>
    obtain ⟨hit, h⟩ := paints_lineLoop cfg ((x1 - x0).natAbs : Int) (-((y1 - y0).natAbs : Int))
      (if x0 < x1 then 1 else -1) (if y0 < y1 then 1 else -1) x1 y1 c
      (max (x1 - x0).natAbs (y1 - y0).natAbs + 1) x0 y0 (((x1 - x0).natAbs : Int) + -((y1 - y0).natAbs : Int))
    exact ⟨hit, c, h⟩
  | rect x y w h c => exact ⟨_, c, paints_rect cfg x y w h c⟩
  | fillRect x y w h c => exact ⟨_, c, paints_fillRect cfg x y w h c⟩
  | text str x y c => exact ⟨_, c, paints_text cfg str x y c⟩

/-- A drawing primitive changes nothing but `FB` (R125). -/
theorem draw_frame (d : Draw) (s : State) : draw d s = { s with fb := (draw d s).fb } :=
  let ⟨_, _, h⟩ := paints_draw s.cfg d
  h.frame s rfl

end Sys2Proof.Machine
end

