-- ==== Sys2Proof/Laws/Scripts.lean ====
section
/-! SUPPORT. The operations as sequences of transactions: what a sequence does when the bus fails in it, and
what a stretch of the INIT ROM does. -/

namespace Sys2Proof.Machine

/-- One transaction of a sequence. -/
inductive Tx where
  | cmd (c : Byte)
  | dat (l : List Byte)
  deriving DecidableEq, Repr

/-- The operation that performs it. -/
def Tx.run : Tx → State → Result
  | .cmd c, s => sendCommand c s
  | .dat l, s => sendData l s

/-- Its events. -/
def Tx.events : Tx → List Event
  | .cmd c => cmdEvents c
  | .dat l => datEvents l

/-- A data transaction is not empty. -/
def Tx.ok : Tx → Prop
  | .cmd _ => True
  | .dat l => l ≠ []

/-- One transaction after another. -/
def runTxs : List Tx → State → Result
  | [], s => .done s
  | a :: r, s => (a.run s).bind (runTxs r)

theorem runTxs_append (a b : List Tx) (s : State) : runTxs (a ++ b) s = (runTxs a s).bind (runTxs b) := by
  induction a generalizing s with
  | nil => rfl
  | cons t a ih =>
    rw [List.cons_append, runTxs, runTxs, Result.bind_assoc]
    congr 1; funext u; exact ih u

/-- What a transport failure in the middle of an operation leaves: the error, the events that got out, and
everything else but the counter, the pins and the free values as it was. -/
structure FailsTo (s t : State) (e : List Event) : Prop where
  err : t.err = .transportFailure
  fatal : t.fatal = true
  busy : t.busy = false
  ctrl : t.ctrl = s.ctrl
  fb : t.fb = s.fb
  tx : t.tx = s.tx
  cfg : t.cfg = s.cfg
  seqPc : t.seqPc = s.seqPc
  x : t.x = s.x
  dt : t.dt = s.dt
  inbox : t.inbox = s.inbox
  tr : t.tr = s.tr ++ e

/-- A transaction that succeeds changes the pins, the byte counter, the trace and the schedule. -/
theorem Tx.run_ok {s : State} (a : Tx) (ha : a.ok) (h : s.busOk 1 = true) :
    ∃ (d : Level) (b : BitVec 18), a.run s = .done { s with
      cs := 1, dc := d, bi := b, tr := s.tr ++ a.events, bus := s.busAfter 1 } := by
  cases a with
  | cmd c => exact ⟨0, s.bi, sendCommand_ok (n := 0) c h⟩
  | dat l => exact ⟨1, _, sendData_ok (n := 0) l ha h⟩

theorem Tx.run_fail {s : State} (a : Tx) (ha : a.ok) (j : Nat) (r : List Event) (h : s.bus = some ⟨0, j⟩) :
    ∃ t, a.run s = .raised t ∧ FailsTo s t (cutEvents 0 j (a.events ++ r)) := by
  have hf : s.busFails = true := by simp [State.busFails, h]
  cases a with
  | cmd c =>
    have hb : s.bytesOut [c].length = min j [c].length := by simp [State.bytesOut, h]
    refine ⟨_, transaction_fail 0 [c] hf, rfl, rfl, rfl, rfl, rfl, rfl, rfl, rfl, rfl, rfl, rfl, ?_⟩
    have := cutEvents_transaction_zero j 0 [c] r
    have h2 : Tx.events (.cmd c) = [.cs 0, .dc 0] ++ [c].map .byte ++ [.cs 1] := rfl
    rw [h2, this, hb]
    simp only [State.takeError, List.take_eq_take_min (i := j)]
  | dat l =>
    have hb : s.bytesOut l.length = min j l.length := by simp [State.bytesOut, h]
    have he : Tx.run (.dat l) s = transaction 1 l { s with bi := BitVec.ofNat 18 (s.bytesOut l.length) } := by
      rw [Tx.run, sendData, if_neg ha]
    refine ⟨_, he.trans (transaction_fail (s := { s with bi := BitVec.ofNat 18 (s.bytesOut l.length) }) 1 l hf), rfl, rfl, rfl, rfl, rfl, rfl, rfl, rfl, rfl, rfl, rfl, ?_⟩
    have := cutEvents_transaction_zero j 1 l r
    have h2 : Tx.events (.dat l) = [.cs 0, .dc 1] ++ l.map .byte ++ [.cs 1] := rfl
    have hb2 : State.bytesOut { s with bi := BitVec.ofNat 18 (s.bytesOut l.length) } l.length = s.bytesOut l.length := rfl
    rw [h2, this]
    simp only [State.takeError]
    rw [hb2, hb, List.take_eq_take_min (i := j)]

theorem Tx.cut_succ (a : Tx) (k j : Nat) (r : List Event) :
    cutEvents (k + 1) j (a.events ++ r) = a.events ++ cutEvents k j r := by
  cases a with
  | cmd c => exact cutEvents_transaction_succ k j 0 [c] r
  | dat l => exact cutEvents_transaction_succ k j 1 l r

/-- A sequence in which the bus fails. -/
theorem runTxs_fail {s : State} (as : List Tx) (ha : ∀ a ∈ as, a.ok) (k j : Nat) (r : List Event)
    (h : s.bus = some ⟨k, j⟩) (hk : k < as.length) :
    ∃ t, runTxs as s = .raised t ∧ FailsTo s t (cutEvents k j (as.flatMap Tx.events ++ r)) := by
  induction as generalizing s k with
  | nil => simp at hk
  | cons a as ih =>
    rw [List.flatMap_cons, List.append_assoc, runTxs]
    cases k with
    | zero =>
      obtain ⟨t, ht, hf⟩ := a.run_fail (ha a List.mem_cons_self) j (as.flatMap Tx.events ++ r) h
      exact ⟨t, by rw [ht]; rfl, hf⟩
    | succ k =>
      obtain ⟨d, b, hd⟩ := a.run_ok (s := s) (ha a List.mem_cons_self) (by simp [State.busOk, busAllows, h])
      rw [hd, Result.bind_done, Tx.cut_succ]
      have hbus : s.busAfter 1 = some ⟨k, j⟩ := by simp [State.busAfter, busDrop, h]
      obtain ⟨t, ht, hf⟩ := ih (s := { s with
        cs := 1, dc := d, bi := b, tr := s.tr ++ a.events, bus := s.busAfter 1 })
        (fun a' h' => ha a' (List.mem_cons_of_mem _ h')) k hbus (by simpa using hk)
      exact ⟨t, ht, hf.err, hf.fatal, hf.busy, hf.ctrl, hf.fb, hf.tx, hf.cfg, hf.seqPc, hf.x, hf.dt, hf.inbox,
        by rw [hf.tr]; simp⟩

/-- The five transactions of a window (R114). -/
def windowTxs (x : WinRegs) : List Tx :=
  [.cmd 0x2A, .dat (casetPayload x), .cmd 0x2B, .dat (rasetPayload x), .cmd 0x2C]

theorem sendData_x {s t : State} {l : List Byte} (h : sendData l s = .done t) : t.x = s.x := by
  by_cases hl : l = []
  · rw [hl] at h; cases h
  · rw [sendData, if_neg hl] at h
    rcases transaction_cases 1 l { s with bi := BitVec.ofNat 18 (s.bytesOut l.length) } with ⟨_, h2⟩ | ⟨_, h2⟩
    · rw [h2] at h; cases h; rfl
    · rw [h2] at h; cases h

theorem sendCommand_x {s t : State} {c : Byte} (h : sendCommand c s = .done t) : t.x = s.x := by
  rcases transaction_cases 0 [c] s with ⟨_, h2⟩ | ⟨_, h2⟩
  · rw [sendCommand, h2] at h; cases h; rfl
  · rw [sendCommand, h2] at h; cases h

theorem Result.bind_congr {r : Result} {k l : State → Result} (h : ∀ t, r = .done t → k t = l t) :
    r.bind k = r.bind l := by
  cases r <;> first | exact h _ rfl | rfl

theorem sendWindow_eq (s : State) : sendWindow s = runTxs (windowTxs s.x) s := by
  simp only [sendWindow, sendWire, windowTxs, runTxs, Tx.run, Result.bind_assoc]
  refine Result.bind_congr fun t ht => Result.bind_congr fun u hu => ?_
  rw [sendData_x hu, sendCommand_x ht]
  refine Result.bind_congr fun v _ => Result.bind_congr fun w _ => ?_
  cases sendCommand 0x2C w <;> rfl

theorem windowTxs_ok (x : WinRegs) : ∀ a ∈ windowTxs x, a.ok := by
  intro a ha
  simp only [windowTxs, List.mem_cons, List.not_mem_nil, or_false] at ha
  rcases ha with rfl | rfl | rfl | rfl | rfl <;>
    first | trivial | exact casetPayload_ne_nil _ | exact rasetPayload_ne_nil _

theorem windowTxs_events (x : WinRegs) : (windowTxs x).flatMap Tx.events = windowEvents x := by
  simp [windowTxs, Tx.events, windowEvents, wireEvents]

theorem sendAll_eq (ls : List (List Byte)) (s : State) : sendAll ls s = runTxs (ls.map .dat) s := by
  induction ls generalizing s with
  | nil => rfl
  | cons l ls ih => rw [List.map_cons, sendAll, runTxs]; exact Result.bind_congr fun t _ => ih t

theorem datTxs_events (ls : List (List Byte)) : (ls.map Tx.dat).flatMap Tx.events = ls.flatMap datEvents := by
  induction ls with
  | nil => rfl
  | cons l ls ih => rw [List.map_cons, List.flatMap_cons, List.flatMap_cons, ih]; rfl

end Sys2Proof.Machine
end

