-- ==== Sys2Proof/Laws/Keeps.lean ====
section
/-! SUPPORT. What every operation keeps, said once for all of them: the canonical form of the memories, the framing
of the trace, and what an error changes. -/

namespace Sys2Proof.Machine

/-- A state in which no operation has failed, between two transactions. -/
structure Healthy (s : State) : Prop where
  ok : s.cfg.ok = true
  fatal : s.fatal = false
  dt : s.dt = 0
  cs : s.cs = 1
  fbWf : s.fb.wf
  txWf : s.tx.wf
  fbW : s.fb.within s.cfg.nbytes
  txW : s.tx.within s.cfg.nbytes
  fr : Phase.idle.after s.tr = some .idle

/-- What every operation does: it writes neither `CFG`, `STATE`, `SEQ_PC` nor the pending actions, takes no byte
of `FB` away, and appends to the trace. -/
structure Extends (s t : State) : Prop where
  cfg : t.cfg = s.cfg
  ctrl : t.ctrl = s.ctrl
  pc : t.seqPc = s.seqPc
  inbox : t.inbox = s.inbox
  keep : ∀ a, (s.fb.read a).isSome = true → (t.fb.read a).isSome = true
  tr : ∃ e, t.tr = s.tr ++ e

/-- What an operation that runs to its end leaves. -/
structure Completes (s t : State) : Prop extends Extends s t, Healthy t where
  rst : t.rst = s.rst
  err : t.err = s.err
  busy : t.busy = s.busy
  bus : t.bus ≠ none → s.bus ≠ none

/-- What an operation that raised an error leaves: after a transport failure `FATAL` and a cut transaction, after
any other error an undisturbed bus. -/
structure Fails (s t : State) : Prop extends Extends s t where
  busy : t.busy = false
  dt : t.dt = 0
  fbWf : t.fb.wf
  txWf : t.tx.wf
  fbW : t.fb.within t.cfg.nbytes
  txW : t.tx.within t.cfg.nbytes
  how : (t.fatal = true ∧ t.err = .transportFailure ∧ Phase.idle.after t.tr = some .opened ∧ s.bus ≠ none) ∨
    (t.fatal = false ∧ t.err ≠ .transportFailure ∧ t.err ≠ .dead ∧ t.cs = 1 ∧ t.rst = s.rst ∧ Phase.idle.after t.tr = some .idle)

/-- What an operation of a healthy state can end in. -/
def Lawful (s : State) : Result → Prop
  | .done t => Completes s t
  | .raised t => Fails s t
  | _ => True

theorem Extends.trans {s t u} (h : Extends s t) (g : Extends t u) : Extends s u where
  cfg := g.cfg.trans h.cfg
  ctrl := g.ctrl.trans h.ctrl
  pc := g.pc.trans h.pc
  inbox := g.inbox.trans h.inbox
  keep a ha := g.keep a (h.keep a ha)
  tr := by
    obtain ⟨e, he⟩ := h.tr; obtain ⟨e', he'⟩ := g.tr
    exact ⟨e ++ e', by rw [he', he, List.append_assoc]⟩

theorem Lawful.bind {s : State} {r : Result} {k : State → Result} (h : Lawful s r) (hk : ∀ t, Completes s t → Lawful t (k t)) : Lawful s (r.bind k) := by
  cases r with
  | done t =>
    have ht : Completes s t := h
    have := hk t ht
    rw [Result.bind_done]
    cases hr : k t with
    | done u =>
      rw [hr] at this
      have hu : Completes t u := this
      exact { ht.toExtends.trans hu.toExtends, hu.toHealthy with rst := hu.rst.trans ht.rst, err := hu.err.trans ht.err, busy := hu.busy.trans ht.busy, bus := fun h => ht.bus (hu.bus h) }
    | raised u =>
      rw [hr] at this
      have hu : Fails t u := this
      refine { ht.toExtends.trans hu.toExtends, hu with how := ?_ }
      rcases hu.how with ⟨a, b, c, d⟩ | ⟨a, b, c, d, e, f⟩
      · exact .inl ⟨a, b, c, ht.bus d⟩
      · exact .inr ⟨a, b, c, d, e.trans ht.rst, f⟩
    | fault _ => trivial
    | refused _ => trivial
  | raised t => exact h
  | fault _ => trivial
  | refused _ => trivial

theorem lawful_transaction (m : Level) (l : List Byte) (s : State) (h : Healthy s) : Lawful s (transaction m l s) := by
  rcases transaction_cases m l s with ⟨_, h2⟩ | ⟨hb, h2⟩ <;> rw [h2]
  · exact { h with cfg := rfl, ctrl := rfl, pc := rfl, inbox := rfl, keep := fun _ h => h, tr := ⟨_, rfl⟩, rst := rfl, err := rfl, busy := rfl, cs := rfl, bus := (by simp only [State.busAfter, busDrop]; cases s.bus <;> simp), fr := (by show Phase.idle.after (s.tr ++ _) = _; rw [Phase.after_append, h.fr]; exact Phase.after_transaction m l) }
  · exact { h with cfg := rfl, ctrl := rfl, pc := rfl, inbox := rfl, keep := fun _ h => h, tr := ⟨_, rfl⟩, busy := rfl, how := .inl ⟨rfl, rfl, by simp only [State.takeError]; rw [Phase.after_append, h.fr]; exact Phase.after_cut m _, by intro h0; simp [State.busFails, h0] at hb⟩ }

theorem lawful_cmd (c : Byte) (s : State) (h : Healthy s) : Lawful s (sendCommand c s) := lawful_transaction _ _ _ h

theorem lawful_dat (l : List Byte) (s : State) (h : Healthy s) : Lawful s (sendData l s) := by
  by_cases hl : l = []
  · rw [hl]; trivial
  · rw [sendData, if_neg hl]
    have h' : Healthy { s with bi := BitVec.ofNat 18 (s.bytesOut l.length) } := { h with }
    have := lawful_transaction 1 l _ h'
    cases hr : transaction 1 l { s with bi := BitVec.ofNat 18 (s.bytesOut l.length) } with
    | done u => rw [hr] at this; have hu : Completes _ u := this; exact { hu with }
    | raised u => rw [hr] at this; have hu : Fails _ u := this; exact { hu with }
    | fault _ => trivial
    | refused _ => trivial

theorem lawful_wire (c : Byte) (l : List Byte) (s : State) (h : Healthy s) : Lawful s (sendWire c l s) :=
  (lawful_cmd c s h).bind fun t ht => lawful_dat l t ht.toHealthy

theorem lawful_all (ls : List (List Byte)) (s : State) (h : Healthy s) : Lawful s (sendAll ls s) := by
  induction ls generalizing s with
  | nil => exact { h with cfg := rfl, ctrl := rfl, pc := rfl, inbox := rfl, keep := fun _ h => h, tr := ⟨[], by simp⟩, rst := rfl, err := rfl, busy := rfl, bus := id }
  | cons l ls ih => exact (lawful_dat l s h).bind fun t ht => ih t ht.toHealthy

theorem lawful_burst (s : State) (h : Healthy s) : Lawful s (burst s) := by
  rw [burst]; split
  · trivial
  · exact lawful_all _ s h

theorem lawful_window (a b c d : Byte) (s : State) (h : Healthy s) : Lawful s (setWindow a b c d s) := by
  rw [setWindow]
  have h' : Healthy { s with x := windowRegs s.cfg a b c d } := { h with }
  simp only []
  split
  · exact { h with cfg := rfl, ctrl := rfl, pc := rfl, inbox := rfl, keep := fun _ h => h, tr := ⟨[], by simp [State.takeError]⟩, busy := rfl, how := .inr ⟨h.fatal, by simp [State.takeError], by simp [State.takeError], h.cs, rfl, h.fr⟩ }
  · have : Lawful { s with x := windowRegs s.cfg a b c d } (sendWindow { s with x := windowRegs s.cfg a b c d }) :=
      (lawful_wire _ _ _ h').bind fun t ht => (lawful_wire _ _ t ht.toHealthy).bind fun u hu => lawful_cmd _ u hu.toHealthy
    cases hr : sendWindow { s with x := windowRegs s.cfg a b c d } with
    | done u => rw [hr] at this; have hu : Completes _ u := this; exact { hu with }
    | raised u => rw [hr] at this; have hu : Fails _ u := this; exact { hu with }
    | fault _ => trivial
    | refused _ => trivial

theorem keep_writeBytes (m : Memory) (l : List Byte) (a : Nat) (h : (m.read a).isSome = true) : ((m.writeBytes 0 l).read a).isSome = true := by
  rw [Memory.read_writeBytes]; split
  · next h => simp at h ⊢; exact h
  · exact h

theorem lawful_swap (dst src : Space) (n : Nat) (s : State) (h : Healthy s) : Lawful s (swapBytes dst src n s) := by
  rw [swapBytes]
  split
  · exact { h with cfg := rfl, ctrl := rfl, pc := rfl, inbox := rfl, keep := fun _ h => h, tr := ⟨[], by simp [State.takeError]⟩, busy := rfl, how := .inr ⟨h.fatal, by simp [State.takeError], by simp [State.takeError], h.cs, rfl, h.fr⟩ }
  · next hn =>
    push Not at hn
    split
    · trivial
    · next l hl =>
      have hlen := Memory.length_readBytes hl
      have hle : 0 + (swapPairs l).length ≤ s.cfg.nbytes := by rw [swapPairs_length]; omega
      cases dst
      · exact { h with cfg := rfl, ctrl := rfl, pc := rfl, inbox := rfl, keep := fun a ha => keep_writeBytes _ _ _ ha, tr := ⟨[], by simp [State.setMem]⟩, rst := rfl, err := rfl, busy := rfl, bus := id, fbWf := Memory.wf_writeBytes _ _ _ h.fbWf, fbW := Memory.within_writeBytes _ _ _ _ h.fbW hle }
      · exact { h with cfg := rfl, ctrl := rfl, pc := rfl, inbox := rfl, keep := fun a ha => ha, tr := ⟨[], by simp [State.setMem]⟩, rst := rfl, err := rfl, busy := rfl, bus := id, txWf := Memory.wf_writeBytes _ _ _ h.txWf, txW := Memory.within_writeBytes _ _ _ _ h.txW hle }

theorem lawful_present (s : State) (h : Healthy s) : Lawful s (presentBody s) :=
  (lawful_window _ _ _ _ s h).bind fun t ht => (lawful_swap _ _ _ t ht.toHealthy).bind fun u hu => lawful_burst u hu.toHealthy

theorem lawful_delay {s : State} (n : Nat) (h : Healthy s) : Lawful s (.done (s.delay n)) :=
  { h with cfg := rfl, ctrl := rfl, pc := rfl, inbox := rfl, keep := fun _ h => h, tr := ⟨_, rfl⟩, rst := rfl, err := rfl, busy := rfl, dt := rfl, bus := id, fr := by show Phase.idle.after (s.tr ++ [.delay n]) = _; rw [Phase.after_append, h.fr]; rfl }

/-- Every ROM entry but the two that drive the reset line. -/
theorem lawful_perform (e : RomEntry) (s : State) (h : Healthy s) (h1 : e ≠ .rstAssert) (h2 : e ≠ .rstDeassert) : Lawful s (perform e s) := by
  cases e with
  | rstAssert => exact (h1 rfl).elim
  | rstDeassert => exact (h2 rfl).elim
  | delay p => exact lawful_delay _ h
  | cmd o => exact lawful_cmd _ s h
  | data p => exact lawful_dat _ s h
  | clearFb => exact { h with cfg := rfl, ctrl := rfl, pc := rfl, inbox := rfl, keep := fun a ha => keep_writeBytes _ _ _ ha, tr := ⟨[], by simp [clearFb]⟩, rst := rfl, err := rfl, busy := rfl, bus := id, fbWf := Memory.wf_writeBytes _ _ _ h.fbWf, fbW := Memory.within_writeBytes _ _ _ _ h.fbW (by simp [clearFb]) }
  | presentBody => exact lawful_present s h
  | stop => exact { h with cfg := rfl, ctrl := rfl, pc := rfl, inbox := rfl, keep := fun _ h => h, tr := ⟨[], by simp⟩, rst := rfl, err := rfl, busy := rfl, bus := id }

end Sys2Proof.Machine
end

