-- ==== Sys2Proof/Laws/PerInstr.lean ====
section
/-! SUPPORT. Statements made once per constructor of Instr. -/

namespace Sys2Proof.Laws

/-- Every operation's first byte lies in its code space and stands for it there: a wire command's opcode is its
row of the opcode map (R74), a request code has 4 bits (R82). -/
def CodeSpace.Statement (i : Instr) : Prop :=
  (i.format = .wire → decodeWire i.code = some i) ∧ (i.format = .req → i.code.toNat < 16)

theorem CodeSpace.swreset : CodeSpace.Statement .swreset := by unfold CodeSpace.Statement; decide
theorem CodeSpace.slpout : CodeSpace.Statement .slpout := by unfold CodeSpace.Statement; decide
theorem CodeSpace.noron : CodeSpace.Statement .noron := by unfold CodeSpace.Statement; decide
theorem CodeSpace.invoff : CodeSpace.Statement .invoff := by unfold CodeSpace.Statement; decide
theorem CodeSpace.dispon : CodeSpace.Statement .dispon := by unfold CodeSpace.Statement; decide
theorem CodeSpace.caset : CodeSpace.Statement .caset := by unfold CodeSpace.Statement; decide
theorem CodeSpace.raset : CodeSpace.Statement .raset := by unfold CodeSpace.Statement; decide
theorem CodeSpace.ramwr : CodeSpace.Statement .ramwr := by unfold CodeSpace.Statement; decide
theorem CodeSpace.madctl : CodeSpace.Statement .madctl := by unfold CodeSpace.Statement; decide
theorem CodeSpace.colmod : CodeSpace.Statement .colmod := by unfold CodeSpace.Statement; decide
theorem CodeSpace.frmctr1 : CodeSpace.Statement .frmctr1 := by unfold CodeSpace.Statement; decide
theorem CodeSpace.frmctr2 : CodeSpace.Statement .frmctr2 := by unfold CodeSpace.Statement; decide
theorem CodeSpace.frmctr3 : CodeSpace.Statement .frmctr3 := by unfold CodeSpace.Statement; decide
theorem CodeSpace.invctr : CodeSpace.Statement .invctr := by unfold CodeSpace.Statement; decide
theorem CodeSpace.pwctr1 : CodeSpace.Statement .pwctr1 := by unfold CodeSpace.Statement; decide
theorem CodeSpace.pwctr2 : CodeSpace.Statement .pwctr2 := by unfold CodeSpace.Statement; decide
theorem CodeSpace.pwctr3 : CodeSpace.Statement .pwctr3 := by unfold CodeSpace.Statement; decide
theorem CodeSpace.pwctr4 : CodeSpace.Statement .pwctr4 := by unfold CodeSpace.Statement; decide
theorem CodeSpace.pwctr5 : CodeSpace.Statement .pwctr5 := by unfold CodeSpace.Statement; decide
theorem CodeSpace.vmctr1 : CodeSpace.Statement .vmctr1 := by unfold CodeSpace.Statement; decide
theorem CodeSpace.init : CodeSpace.Statement .init := by unfold CodeSpace.Statement; decide
theorem CodeSpace.present : CodeSpace.Statement .present := by unfold CodeSpace.Statement; decide
theorem CodeSpace.sendCommand (c : Byte) : CodeSpace.Statement (.sendCommand c) := by
  simp [CodeSpace.Statement, Instr.format, Instr.code]
theorem CodeSpace.sendData (s : List Byte) : CodeSpace.Statement (.sendData s) := by
  simp [CodeSpace.Statement, Instr.format, Instr.code]
theorem CodeSpace.setWindow (x0 y0 x1 y1 : Byte) : CodeSpace.Statement (.setWindow x0 y0 x1 y1) := by
  simp [CodeSpace.Statement, Instr.format, Instr.code]
theorem CodeSpace.swapBytes (dst src : Space) (n : BitVec 18) : CodeSpace.Statement (.swapBytes dst src n) := by
  simp [CodeSpace.Statement, Instr.format, Instr.code]

end Sys2Proof.Laws
end

