-- ==== Sys2Proof/Laws/Rom.lean ====
section
/-! SUPPORT. The laws of the INIT ROM: what its entries 0 to 34 do in one stretch, where a failing bus stops them,
and the closing present when the bus fails in it. -/

namespace Sys2Proof.Machine

/-! ## Entries 0 to 34 -/

/-- The events of an entry that is no composite one. -/
def romEvents (c : Cfg) : RomEntry → List Event
  | .rstAssert => [.rst .asserted]
  | .rstDeassert => [.rst .deasserted]
  | .delay p => [.delay (p.value c)]
  | .cmd o => cmdEvents (o.value c)
  | .data p => datEvents (p.value c)
  | _ => []

/-- The transactions of an entry that is no composite one. -/
def romTransactions : RomEntry → Nat
  | .cmd _ => 1
  | .data _ => 1
  | _ => 0

/-- The entries that are no composite one. -/
def romPlain : RomEntry → Bool
  | .clearFb => false | .presentBody => false | .stop => false | _ => true

/-- What a plain entry does when the bus lets it. -/
def romApply (s : State) (e : RomEntry) : State :=
  match e with
  | .rstAssert => { s with rst := .asserted, tr := s.tr ++ romEvents s.cfg e, seqPc := s.seqPc + 1 }
  | .rstDeassert => { s with rst := .deasserted, tr := s.tr ++ romEvents s.cfg e, seqPc := s.seqPc + 1 }
  | .delay _ => { s with dt := 0, tr := s.tr ++ romEvents s.cfg e, seqPc := s.seqPc + 1 }
  | .cmd _ => { s with cs := 1, dc := 0, tr := s.tr ++ romEvents s.cfg e, bus := busDrop s.bus 1, seqPc := s.seqPc + 1 }
  | .data p => { s with cs := 1, dc := 1, bi := BitVec.ofNat 18 (p.value s.cfg).length, tr := s.tr ++ romEvents s.cfg e, bus := busDrop s.bus 1, seqPc := s.seqPc + 1 }
  | _ => s

theorem payload_ne_nil {c : Cfg} (hc : c.ok = true) (p : PayloadParam) : p.value c ≠ [] := by
  have := ((cfg_ok_iff c).1 hc).2.2.2.2.2.2
  simp only [Cfg.payloadsOk, Bool.and_eq_true, decide_eq_true_eq] at this
  intro h
  have h := congrArg List.length h
  cases p <;> simp [PayloadParam.value, madctlPayload, colmodPayload] at h <;> simp_all

theorem romApply_bus (s : State) (e : RomEntry) (h : romPlain e = true) : (romApply s e).bus = busDrop s.bus (romTransactions e) := by
  cases e <;> simp_all [romApply, romTransactions, romPlain]

theorem romApply_cfg (s : State) (e : RomEntry) : (romApply s e).cfg = s.cfg := by
  cases e <;> rfl

theorem romApply_tr (s : State) (e : RomEntry) (h : romPlain e = true) : (romApply s e).tr = s.tr ++ romEvents s.cfg e := by
  cases e <;> simp_all [romApply, romPlain]

/-- A stretch of plain entries on a bus that lets it through. -/
theorem runRom_plain {es : List RomEntry} {r : List RomEntry} {s : State} (hc : s.cfg.ok = true)
    (hs : ∀ e ∈ es, romPlain e = true) (hb : busAllows s.bus ((es.map romTransactions).sum) = true) :
    runRom (es ++ r) s = runRom r (es.foldl romApply s) := by
  induction es generalizing s with
  | nil => rfl
  | cons e es ih =>
    have he := hs e List.mem_cons_self
    simp only [List.map_cons, List.sum_cons] at hb
    have hn : e ≠ .stop := by rintro rfl; cases he
    rw [List.cons_append, runRom_cons _ _ _ hn, List.foldl_cons]
    have key : (perform e s).bind (fun s1 => runRom (es ++ r) { s1 with seqPc := s1.seqPc + 1 }) = runRom (es ++ r) (romApply s e) := by
      cases e
      case cmd o =>
        have : s.busOk (0 + 1) = true := busAllows_mono hb (by simp [romTransactions])
        simp only [perform, sendCommand_ok _ this, Result.bind_done, romApply, romEvents]; rfl
      case data p =>
        have : s.busOk (0 + 1) = true := busAllows_mono hb (by simp [romTransactions])
        simp only [perform, sendData_ok _ (payload_ne_nil hc p) this, Result.bind_done, romApply, romEvents]; rfl
      all_goals first | rfl | cases he
    rw [key]
    apply ih (by rw [romApply_cfg]; exact hc) (fun e' h' => hs e' (List.mem_cons_of_mem _ h'))
    rw [romApply_bus _ _ he]
    exact busAllows_drop hb

/-- Entries 0 to 34. -/
def romSetup : List RomEntry := rom.take 35

theorem rom_eq : rom = romSetup ++ [.clearFb, .presentBody, .stop] := by rfl

theorem romSetup_plain : ∀ e ∈ romSetup, romPlain e = true := by decide

theorem romSetup_transactions : (romSetup.map romTransactions).sum = 29 := by rfl
/-! The single fields that plain entries write. -/

def stepRst (v : RstLine) : RomEntry → RstLine
  | .rstAssert => .asserted | .rstDeassert => .deasserted | _ => v

def stepDt (v : Nat) : RomEntry → Nat
  | .delay _ => 0 | _ => v

def stepCs (v : Level) : RomEntry → Level
  | .cmd _ => 1 | .data _ => 1 | _ => v

def stepDc (v : Level) : RomEntry → Level
  | .cmd _ => 0 | .data _ => 1 | _ => v

def stepBi (c : Cfg) (v : BitVec 18) : RomEntry → BitVec 18
  | .data p => BitVec.ofNat 18 (p.value c).length | _ => v

theorem romApply_eq (s : State) (e : RomEntry) (h : romPlain e = true) : romApply s e = { s with
   rst := stepRst s.rst e, dt := stepDt s.dt e, cs := stepCs s.cs e, dc := stepDc s.dc e, bi := stepBi s.cfg s.bi e
   tr := s.tr ++ romEvents s.cfg e, bus := busDrop s.bus (romTransactions e), seqPc := s.seqPc + 1 } := by
  cases e <;> first | (cases h; done) | simp [romApply, stepRst, stepDt, stepCs, stepDc, stepBi, romTransactions, romEvents]

theorem foldl_romApply (es : List RomEntry) (s : State) (h : ∀ e ∈ es, romPlain e = true) : es.foldl romApply s = { s with
   rst := es.foldl stepRst s.rst, dt := es.foldl stepDt s.dt, cs := es.foldl stepCs s.cs, dc := es.foldl stepDc s.dc, bi := es.foldl (stepBi s.cfg) s.bi
   tr := s.tr ++ es.flatMap (romEvents s.cfg), bus := busDrop s.bus (es.map romTransactions).sum, seqPc := s.seqPc + BitVec.ofNat 6 es.length } := by
  induction es generalizing s with
  | nil => simp
  | cons e es ih =>
    rw [List.foldl_cons, ih _ (fun e' h' => h e' (List.mem_cons_of_mem _ h')), romApply_eq _ _ (h e List.mem_cons_self)]
    have : ∀ n, s.seqPc + 1 + BitVec.ofNat 6 n = s.seqPc + BitVec.ofNat 6 (n + 1) := by
      intro n; rw [BitVec.ofNat_add, BitVec.add_assoc, BitVec.add_comm (BitVec.ofNat 6 n)]; rfl
    simp only [List.foldl_cons, List.flatMap_cons, List.map_cons, List.sum_cons, List.length_cons, busDrop_drop, List.append_assoc, this]

theorem romSetup_events (c : Cfg) : romSetup.flatMap (romEvents c) = setupEvents c := by
  have h1 : (romSetup.take 8).flatMap (romEvents c) = resetEvents c := rfl
  have h2 : ((romSetup.drop 8).take 8).flatMap (romEvents c) = frameRateEvents c := by
    simp [romSetup, rom, romEvents, frameRateEvents, wireEvents, CmdCode.value, PayloadParam.value]
  have h3 : ((romSetup.drop 16).take 12).flatMap (romEvents c) = powerEvents c := by
    simp [romSetup, rom, romEvents, powerEvents, wireEvents, CmdCode.value, PayloadParam.value]
  have h4 : (romSetup.drop 28).flatMap (romEvents c) = modeEvents c := rfl
  rw [show romSetup = romSetup.take 8 ++ (romSetup.drop 8).take 8 ++ (romSetup.drop 16).take 12 ++ romSetup.drop 28 from rfl]
  simp only [List.flatMap_append, h1, h2, h3, h4, setupEvents]

/-- Entries 0 to 34 on a bus that lets them through. -/
theorem romSetup_apply (s : State) : romSetup.foldl romApply s = { s with
   rst := .deasserted, dt := 0, cs := 1, dc := 0, bi := 1, tr := s.tr ++ setupEvents s.cfg, bus := busDrop s.bus 29, seqPc := s.seqPc + 35 } := by
  rw [foldl_romApply _ _ romSetup_plain, romSetup_events, romSetup_transactions]
  rfl

theorem swapPairs_zero (n : Nat) : swapPairs (List.replicate (2 * n) 0x00) = List.replicate (2 * n) (0x00 : Byte) := by
  induction n with
  | zero => rfl
  | succ n ih => rw [show 2 * (n + 1) = 2 * n + 1 + 1 by omega, List.replicate_succ, List.replicate_succ, swapPairs, ih]

theorem readBytes_writeBytes_zero (m : Memory) (n : Nat) : (m.writeBytes 0 (List.replicate n 0x00)).readBytes 0 n = some (List.replicate n 0x00) := by
  have := Memory.readBytes_writeBytes m 0 (List.replicate n 0x00)
  rwa [List.length_replicate] at this

theorem commandBytes_reset (c : Cfg) (r : List Event) : bytesInMode 0 1 (resetEvents c ++ r) = [0x01, 0x11] ++ bytesInMode 0 0 r := by
  simp [resetEvents, bytesInMode, cmdEvents]

theorem commandBytes_frame (c : Cfg) (r : List Event) : bytesInMode 0 0 (frameRateEvents c ++ r) = [0xB1, 0xB2, 0xB3, 0xB4] ++ bytesInMode 0 1 r := by
  simp [frameRateEvents, wireEvents, bytesInMode_cmd, bytesInMode_dat]

theorem commandBytes_power (c : Cfg) (r : List Event) : bytesInMode 0 1 (powerEvents c ++ r) = [0xC0, 0xC1, 0xC2, 0xC3, 0xC4, 0xC5] ++ bytesInMode 0 1 r := by
  simp [powerEvents, wireEvents, bytesInMode_cmd, bytesInMode_dat]

theorem commandBytes_mode (c : Cfg) (r : List Event) : bytesInMode 0 1 (modeEvents c ++ r) = [0x20, 0x36, 0x3A, c.opcNoron, 0x29] ++ bytesInMode 0 0 r := by
  simp [modeEvents, wireEvents, bytesInMode_cmd, bytesInMode_dat]

theorem commandBytes_present (c : Cfg) (m : Level) (l : List Byte) : bytesInMode 0 m (presentEvents c l) = [0x2A, 0x2B, 0x2C] := by
  simp only [presentEvents, windowEvents, wireEvents, List.append_assoc, bytesInMode_cmd, bytesInMode_dat, burstEvents, bytesInMode_burst_command]; rfl

theorem length_swapPairs_full {s : State} {l : List Byte} (hl : s.fb.readBytes 0 s.cfg.nbytes = some l) :
   (swapPairs l).length = s.cfg.nbytes := by
  rw [swapPairs_length, Memory.length_readBytes hl]; simp only [Cfg.nbytes]; omega

/-- PRESENT_BODY on a bus that fails in it. -/
theorem presentBody_fail {s : State} {l : List Byte} (hc : s.cfg.ok = true)
    (hl : s.fb.readBytes 0 s.cfg.nbytes = some l) (k j : Nat) (h : s.bus = some ⟨k, j⟩) (hk : k < 5 + s.cfg.burstCount) :
    ∃ t, presentBody s = .raised t ∧ t.err = .transportFailure ∧ t.fatal = true ∧ t.busy = false ∧
      t.ctrl = s.ctrl ∧ t.fb = s.fb ∧ t.cfg = s.cfg ∧ t.seqPc = s.seqPc ∧
      t.tx = (if k < 5 then s.tx else s.tx.writeBytes 0 (swapPairs l)) ∧
      t.tr = s.tr ++ cutEvents k j (presentEvents s.cfg (swapPairs l)) := by
  have hr := fullWindow_inRange hc
  by_cases h5 : k < 5
  · have hw : setWindow 0 0 (BitVec.ofNat 8 (s.cfg.lw - 1)) (BitVec.ofNat 8 (s.cfg.lh - 1)) s =
        runTxs (windowTxs (fullWindow s.cfg)) { s with x := fullWindow s.cfg } := by
      rw [← sendWindow_eq { s with x := fullWindow s.cfg }, setWindow]
      exact if_neg (by rw [show ({ s with x := windowRegs s.cfg 0 0 (BitVec.ofNat 8 (s.cfg.lw - 1)) (BitVec.ofNat 8 (s.cfg.lh - 1)) } : State).x.outOfRange = false from hr]; decide)
    obtain ⟨t, ht, hf⟩ := runTxs_fail (s := { s with x := fullWindow s.cfg }) _ (windowTxs_ok _) k j (burstEvents s.cfg (swapPairs l)) h h5
    refine ⟨t, by rw [presentBody, hw, ht]; rfl, hf.err, hf.fatal, hf.busy, hf.ctrl, hf.fb, hf.cfg, hf.seqPc, ?_, ?_⟩
    · rw [if_pos h5, hf.tx]
    · rw [hf.tr, windowTxs_events]; rfl
  · obtain ⟨k, rfl⟩ : ∃ m, k = 5 + m := ⟨k - 5, by omega⟩
    have hk : k < s.cfg.burstCount := by omega
    have hb5 : s.busOk (0 + 5) = true := by simp [State.busOk, busAllows, h]
    have hlen := length_swapPairs_full hl
    have heven : 2 * (s.cfg.nbytes / 2) = s.cfg.nbytes := by simp only [Cfg.nbytes]; omega
    have hne : swapPairs l ≠ [] := by
      intro h0; rw [h0] at hlen; simp at hlen; have := cfg_nbytes_pos hc; omega
    rw [presentBody, setWindow_ok (n := 0) _ _ _ _ hr hb5, Result.bind_done]
    simp only []
    rw [swapBytes_ok (dst := .tx) (src := .fb) (n := s.cfg.nbytes) (l := l) (by decide) ?_ ?_, Result.bind_done]
    rotate_left
    · exact le_rfl
    · rw [heven]; exact hl
    simp only [burst, State.setMem, State.mem]
    have hrd := Memory.readBytes_writeBytes s.tx 0 (swapPairs l)
    rw [hlen] at hrd
    rw [hrd]
    simp only [sendAll_eq]
    have hcut : cutEvents (5 + k) j (presentEvents s.cfg (swapPairs l)) =
        windowEvents (fullWindow s.cfg) ++ cutEvents k j (burstEvents s.cfg (swapPairs l)) := by
      rw [presentEvents, ← windowTxs_events]
      simp only [windowTxs, List.flatMap_cons, List.flatMap_nil, List.append_assoc, List.append_nil]
      rw [show 5 + k = k + 1 + 1 + 1 + 1 + 1 by omega, Tx.cut_succ, Tx.cut_succ, Tx.cut_succ, Tx.cut_succ, Tx.cut_succ]
    obtain ⟨t, ht, hf⟩ := runTxs_fail (s := { s with
        x := fullWindow s.cfg, cs := 1, dc := 0, bi := 4, tr := s.tr ++ windowEvents (fullWindow s.cfg), bus := s.busAfter 5
        tx := s.tx.writeBytes 0 (swapPairs l), tlen := BitVec.ofNat 18 s.cfg.nbytes, ti := BitVec.ofNat 18 (2 * (s.cfg.nbytes / 2)) })
      ((burstChunks s.cfg.burstChunk (swapPairs l)).map .dat) (by
        intro a ha; obtain ⟨d, hd, rfl⟩ := List.mem_map.1 ha; exact burstChunks_ne_nil _ _ hne d hd) k j [] (by simp [State.busAfter, busDrop, h])
      (by rw [List.length_map, length_burstChunks _ _ hlen]; exact hk)
    refine ⟨t, ht, hf.err, hf.fatal, hf.busy, hf.ctrl, hf.fb, hf.cfg, hf.seqPc, ?_, ?_⟩
    · rw [if_neg (by omega), hf.tx]
    · rw [hf.tr, datTxs_events, hcut]; simp [burstEvents]

/-- The entry, counted from the first one, that performs transaction `k` of a stretch. -/
def romFailure : List RomEntry → Nat → Nat
  | [], _ => 0
  | e :: r, k => if romTransactions e = 0 then 1 + romFailure r k else if k = 0 then 0 else 1 + romFailure r (k - 1)

/-- A stretch of plain entries in which the bus fails. -/
theorem runRom_plain_fail {es r : List RomEntry} {s : State} (hc : s.cfg.ok = true)
    (hs : ∀ e ∈ es, romPlain e = true) (k j : Nat) (r2 : List Event) (h : s.bus = some ⟨k, j⟩) (hk : k < (es.map romTransactions).sum) :
    ∃ t, runRom (es ++ r) s = .raised t ∧ t.err = .transportFailure ∧ t.fatal = true ∧ t.busy = false ∧
      t.ctrl = s.ctrl ∧ t.fb = s.fb ∧ t.cfg = s.cfg ∧ t.seqPc = s.seqPc + BitVec.ofNat 6 (romFailure es k) ∧
      t.tr = s.tr ++ cutEvents k j (es.flatMap (romEvents s.cfg) ++ r2) := by
  induction es generalizing s k with
  | nil => simp at hk
  | cons e es ih =>
    have he := hs e List.mem_cons_self
    have hs' := fun e' h' => hs e' (List.mem_cons_of_mem _ h')
    have hn : e ≠ .stop := by rintro rfl; cases he
    rw [List.cons_append, runRom_cons _ _ _ hn, List.flatMap_cons, List.append_assoc]
    simp only [List.map_cons, List.sum_cons] at hk
    have add1 : ∀ n, s.seqPc + 1 + BitVec.ofNat 6 n = s.seqPc + BitVec.ofNat 6 (1 + n) := by
      intro n; rw [BitVec.ofNat_add, BitVec.add_assoc]; rfl
    have step0 : ∀ (u : State), perform e s = .done u → romTransactions e = 0 → u.bus = s.bus → u.ctrl = s.ctrl → u.fb = s.fb → u.cfg = s.cfg → u.seqPc = s.seqPc →
        u.tr = s.tr ++ romEvents s.cfg e → (∀ k q, cutEvents k j (romEvents s.cfg e ++ q) = romEvents s.cfg e ++ cutEvents k j q) →
        ∃ t, (perform e s).bind (fun s1 => runRom (es ++ r) { s1 with seqPc := s1.seqPc + 1 }) = .raised t ∧ t.err = .transportFailure ∧ t.fatal = true ∧ t.busy = false ∧
          t.ctrl = s.ctrl ∧ t.fb = s.fb ∧ t.cfg = s.cfg ∧ t.seqPc = s.seqPc + BitVec.ofNat 6 (romFailure (e :: es) k) ∧
          t.tr = s.tr ++ cutEvents k j (romEvents s.cfg e ++ (es.flatMap (romEvents s.cfg) ++ r2)) := by
      intro u hu h0 h1 h2 h3 h4 h5 h6 h7
      obtain ⟨t, ht, a1, a2, a3, a4, a5, a6, a7, a8⟩ := ih (s := { u with seqPc := u.seqPc + 1 }) (by rw [show ({ u with seqPc := u.seqPc + 1 } : State).cfg = u.cfg from rfl, h4]; exact hc) hs' k (h1.trans h) (by omega)
      refine ⟨t, by rw [hu]; exact ht, a1, a2, a3, a4.trans h2, a5.trans h3, a6.trans h4, ?_, ?_⟩
      · rw [a7]; show u.seqPc + 1 + _ = _; rw [h5, add1, romFailure, if_pos h0]
      · rw [a8, h7]; show u.tr ++ cutEvents k j (es.flatMap (romEvents u.cfg) ++ r2) = _; rw [h6, h4, List.append_assoc]
    have step1 : ∀ (a : Tx), a.ok → perform e s = a.run s → romTransactions e = 1 → romEvents s.cfg e = a.events →
        ∃ t, (perform e s).bind (fun s1 => runRom (es ++ r) { s1 with seqPc := s1.seqPc + 1 }) = .raised t ∧ t.err = .transportFailure ∧ t.fatal = true ∧ t.busy = false ∧
          t.ctrl = s.ctrl ∧ t.fb = s.fb ∧ t.cfg = s.cfg ∧ t.seqPc = s.seqPc + BitVec.ofNat 6 (romFailure (e :: es) k) ∧
          t.tr = s.tr ++ cutEvents k j (romEvents s.cfg e ++ (es.flatMap (romEvents s.cfg) ++ r2)) := by
      intro a ha hp h1 hev
      cases k with
      | zero =>
        obtain ⟨t, ht, hf⟩ := a.run_fail ha j (es.flatMap (romEvents s.cfg) ++ r2) h
        refine ⟨t, by rw [hp, ht]; rfl, hf.err, hf.fatal, hf.busy, hf.ctrl, hf.fb, hf.cfg, ?_, ?_⟩
        · rw [hf.seqPc, romFailure, if_neg (by omega), if_pos rfl]; simp
        · rw [hf.tr, hev]
      | succ k =>
        obtain ⟨d, b, hd⟩ := a.run_ok (s := s) ha (by simp [State.busOk, busAllows, h])
        have hbus : s.busAfter 1 = some ⟨k, j⟩ := by simp [State.busAfter, busDrop, h]
        obtain ⟨t, ht, a1, a2, a3, a4, a5, a6, a7, a8⟩ := ih (s := { s with
          cs := 1, dc := d, bi := b, tr := s.tr ++ a.events, bus := s.busAfter 1, seqPc := s.seqPc + 1 }) hc hs' k hbus (by omega)
        refine ⟨t, by rw [hp, hd]; exact ht, a1, a2, a3, a4, a5, a6, ?_, ?_⟩
        · rw [a7]; show s.seqPc + 1 + _ = _; rw [add1, romFailure, if_neg (by omega), if_neg (by omega)]; rfl
        · rw [a8, hev, Tx.cut_succ]; show s.tr ++ a.events ++ _ = _; rw [List.append_assoc]
    cases e with
    | cmd o => exact step1 (.cmd (o.value s.cfg)) trivial rfl rfl rfl
    | data p => exact step1 (.dat (p.value s.cfg)) (payload_ne_nil hc p) rfl rfl rfl
    | rstAssert => exact step0 _ rfl rfl rfl rfl rfl rfl rfl rfl (fun k q => by cases k <;> rfl)
    | rstDeassert => exact step0 _ rfl rfl rfl rfl rfl rfl rfl rfl (fun k q => by cases k <;> rfl)
    | delay p => exact step0 _ rfl rfl rfl rfl rfl rfl rfl rfl (fun k q => by cases k <;> rfl)
    | clearFb => cases he
    | presentBody => cases he
    | stop => cases he

theorem romFailure_setup : ∀ k, k < 29 → romFailure romSetup k = entryOfTransaction k := by decide

theorem cutEvents_romEvents (c : Cfg) (es : List RomEntry) (hs : ∀ e ∈ es, romPlain e = true) (k j : Nat) (q : List Event) :
   cutEvents ((es.map romTransactions).sum + k) j (es.flatMap (romEvents c) ++ q) = es.flatMap (romEvents c) ++ cutEvents k j q := by
  induction es with
  | nil => simp
  | cons e es ih =>
    have he := hs e List.mem_cons_self
    rw [List.flatMap_cons, List.append_assoc, List.map_cons, List.sum_cons, List.append_assoc, ← ih (fun e' h' => hs e' (List.mem_cons_of_mem _ h'))]
    cases e with
    | cmd o => rw [show romTransactions (.cmd o) + (es.map romTransactions).sum + k = (es.map romTransactions).sum + k + 1 by simp [romTransactions]; omega]; exact Tx.cut_succ (.cmd (o.value c)) _ _ _
    | data p => rw [show romTransactions (.data p) + (es.map romTransactions).sum + k = (es.map romTransactions).sum + k + 1 by simp [romTransactions]; omega]; exact Tx.cut_succ (.dat (p.value c)) _ _ _
    | rstAssert => simp only [romTransactions, Nat.zero_add]; cases (es.map romTransactions).sum + k <;> rfl
    | rstDeassert => simp only [romTransactions, Nat.zero_add]; cases (es.map romTransactions).sum + k <;> rfl
    | delay p => simp only [romTransactions, Nat.zero_add]; cases (es.map romTransactions).sum + k <;> rfl
    | clearFb => cases he
    | presentBody => cases he
    | stop => cases he

end Sys2Proof.Machine
end

