-- ==== Sys2Proof/Tests/Slice0.lean ====
section
/-! SUPPORT. Tests: well-formedness, words written out from the encoding tables, one step of each operation against
the vectors of 95_test_vectors.md, and for every statement with hypotheses a state that meets them. -/

namespace Sys2Proof.Tests

open Sys2Proof Sys2Proof.Machine

/-! ## Well-formedness (WellFormed.lean) -/

/-- R72: a data transaction of no byte is ill formed. -/
theorem test_wf_refuses_empty_data : Instr.wf (.sendData []) = false := by decide

/-- R21: one byte more than `BI` counts is ill formed. -/
theorem test_wf_refuses_long_data : Instr.wf (.sendData (List.replicate (2 ^ 18) 0)) = false := by
  rw [Instr.wf, List.length_replicate]; decide

theorem test_wf_accepts_one_byte : Instr.wf (.sendData [0x05]) = true := by decide

theorem test_wf_accepts_longest_data : Instr.wf (.sendData (List.replicate (2 ^ 18 - 1) 0)) = true := by
  rw [Instr.wf, List.length_replicate]; decide

/-! ## Words written out from 30_encoding.md R74 and R82 -/

theorem test_word_swreset : decodeTableWord 8 0b00000001 = some .swreset := by decide
theorem test_word_slpout : decodeTableWord 8 0b00010001 = some .slpout := by decide
theorem test_word_noron : decodeTableWord 8 0b00010011 = some .noron := by decide
theorem test_word_invoff : decodeTableWord 8 0b00100000 = some .invoff := by decide
theorem test_word_dispon : decodeTableWord 8 0b00101001 = some .dispon := by decide
theorem test_word_caset : decodeTableWord 8 0b00101010 = some .caset := by decide
theorem test_word_raset : decodeTableWord 8 0b00101011 = some .raset := by decide
theorem test_word_ramwr : decodeTableWord 8 0b00101100 = some .ramwr := by decide
theorem test_word_madctl : decodeTableWord 8 0b00110110 = some .madctl := by decide
theorem test_word_colmod : decodeTableWord 8 0b00111010 = some .colmod := by decide
theorem test_word_frmctr1 : decodeTableWord 8 0b10110001 = some .frmctr1 := by decide
theorem test_word_frmctr2 : decodeTableWord 8 0b10110010 = some .frmctr2 := by decide
theorem test_word_frmctr3 : decodeTableWord 8 0b10110011 = some .frmctr3 := by decide
theorem test_word_invctr : decodeTableWord 8 0b10110100 = some .invctr := by decide
theorem test_word_pwctr1 : decodeTableWord 8 0b11000000 = some .pwctr1 := by decide
theorem test_word_pwctr2 : decodeTableWord 8 0b11000001 = some .pwctr2 := by decide
theorem test_word_pwctr3 : decodeTableWord 8 0b11000010 = some .pwctr3 := by decide
theorem test_word_pwctr4 : decodeTableWord 8 0b11000011 = some .pwctr4 := by decide
theorem test_word_pwctr5 : decodeTableWord 8 0b11000100 = some .pwctr5 := by decide
theorem test_word_vmctr1 : decodeTableWord 8 0b11000101 = some .vmctr1 := by decide
theorem test_word_init : decodeTableWord 4 0b0001 = some .init := by decide
theorem test_word_present : decodeTableWord 4 0b0010 = some .present := by decide
theorem test_word_present_byte : decodeTableWord 8 0b00000010 = some .present := by decide

/-- The operand bytes in the model's layout (log 12). -/
theorem test_bytes_sendCommand : decode .req [0x0C, 0x2C] = .ok (.sendCommand 0x2C) [] := by decide
theorem test_bytes_sendData :
    decode .req [0x0D, 0x00, 0x00, 0x02, 0x01, 0x2C, 0x2D, 0xFF] = .ok (.sendData [0x01, 0x2C, 0x2D]) [0xFF] := by
  decide
theorem test_bytes_setWindow :
    decode .req [0x0E, 0x0A, 0x14, 0x7F, 0x9F] = .ok (.setWindow 10 20 127 159) [] := by decide
theorem test_bytes_swapBytes :
    decode .req [0x0F, 0x00, 0x01, 0x02, 0x03] = .ok (.swapBytes .tx .fb 0x10203) [] := by decide

/-- R83: every unassigned code is refused, by the request port and by the decoder. -/
theorem test_reserved_codes :
    ∀ c : BitVec 4, c ≠ 0x1 → c ≠ 0x2 → decodeRequest c = none := by decide
theorem test_reserved_code_byte : decode .req [0x07] = .error (.reservedCode 0x07) := by decide

/-- R84: a byte outside the opcode map. -/
theorem test_reserved_opcode : decode .wire [0x21] = .error (.reservedOpcode 0x21) := by decide

/-- R74: the map has no two rows for one byte. -/
theorem test_opcodes_distinct : wireTable.Pairwise fun p q => p.1 ≠ q.1 := by decide

/-! ## Configurations (95_test_vectors.md A1, B7) -/

/-- TP1 with the given size, rotation, colour order and offsets. -/
def tp1 (w h rotation : Nat) (order : ColorOrder) (ox oy : Byte) : Cfg :=
  { Config.resetCfg with
    w := w, h := h, rotation := rotation, colorOrder := order, offsetX := ox, offsetY := oy }

/-- A1, every rotation with BGR. -/
theorem test_A1_bgr :
    [0, 90, 180, 270, 45].map (fun r => (tp1 2 2 r .bgr 0 0).madctlVal) = [0xC8, 0x68, 0x08, 0xA8, 0xC8] := by
  decide

/-- A1, every rotation with RGB. -/
theorem test_A1_rgb :
    [0, 90, 180, 270, 360].map (fun r => (tp1 2 2 r .rgb 0 0).madctlVal) = [0xC0, 0x60, 0x00, 0xA0, 0xC0] := by
  decide

/-- B7, row 3. -/
theorem test_B7_rotated :
    (tp1 128 160 270 .rgb 2 3).lw = 160 ∧ (tp1 128 160 270 .rgb 2 3).lh = 128 ∧
    (tp1 128 160 270 .rgb 2 3).oxEff = 3 ∧ (tp1 128 160 270 .rgb 2 3).oyEff = 2 ∧
    (tp1 128 160 270 .rgb 2 3).nbytes = 40960 := by decide

/-- B7, rows 5 to 8: where the window reaches 255 and where it passes it. -/
theorem test_B7_cfg_ok :
    (tp1 256 256 0 .rgb 0 0).ok = true ∧ (tp1 256 256 0 .rgb 1 0).ok = false ∧
    (tp1 240 100 90 .rgb 20 0).ok = false ∧ (tp1 240 100 0 .rgb 15 0).ok = true := by decide

/-! ## States -/

/-- A new 2 x 2 instance with TP1. -/
def fresh : State := State.construct Config.resetCfg

/-- A ready 2 x 2 instance whose `FB` and `TX` hold the given bytes. -/
def ready (fb tx : List Byte) : State :=
  { fresh with ctrl := .ready, fb := Memory.writeBytes [] 0 fb, tx := Memory.writeBytes [] 0 tx }

/-- Black, as after INIT (B5.4). -/
def black : State := ready (List.replicate 8 0) (List.replicate 8 0)

/-- A ready instance of another configuration whose `FB` is black. -/
def readyOf (c : Cfg) : State :=
  { State.construct c with ctrl := .ready, fb := Memory.writeBytes [] 0 (List.replicate c.nbytes 0) }

/-- The state an outcome leaves; the given one where it leaves none. -/
def after (s : State) : Host.Outcome State Fault Refusal → State
  | .next t => t
  | .fault _ => s
  | .refused _ => s

/-- One operation run alone. -/
def run (i : Instr) (s : State) : State := after s (exec i s)

/-- The black instance directly after the full-screen window. -/
def windowed : State := run (.setWindow 0 0 1 1) black

/-- The instance directly after the CASET and the RASET of the bounds that a SET_WINDOW left in `x`. -/
def bounded (s : State) : State := run .raset (run .caset s)

/-! ## Reset (R36) -/

theorem test_reset_memory_wf : State.reset.fb.wf ∧ State.reset.tx.wf := by decide
theorem test_reset_values :
    State.reset.ctrl = .uninitialized ∧ State.reset.fatal = false ∧ State.reset.err.code = 0 ∧
    State.reset.tr = [] ∧ State.reset.cs = 1 ∧ State.reset.rst = .deasserted := by decide

/-! ## B1. CommandChannel -/

theorem test_B1_1 : (run (.sendCommand 0x2C) fresh).tr = [.cs 0, .dc 0, .byte 0x2C, .cs 1] := by decide
theorem test_B1_3 :
    (run (.sendData [0x00, 0x02, 0x00, 0x81]) fresh).tr =
      [.cs 0, .dc 1, .byte 0x00, .byte 0x02, .byte 0x00, .byte 0x81, .cs 1] := by decide
theorem test_B1_5 : exec (.sendData []) fresh = .refused .emptyData := rfl
theorem test_B1_7 :
    (run (.sendCommand 0x11) { fresh with bus := some ⟨0, 1⟩ }).tr = [.cs 0, .dc 0, .byte 0x11] := by decide
theorem test_B1_8 :
    (run (.sendData [0x01, 0x2C, 0x2D]) { fresh with bus := some ⟨0, 2⟩ }).tr =
      [.cs 0, .dc 1, .byte 0x01, .byte 0x2C] := by decide

/-! ## B2. AddressWindow -/

/-- B2.3. -/
theorem test_B2_3 :
    (run (.setWindow 0 0 159 127) (State.construct (tp1 128 160 90 .rgb 2 1))).tr =
      cmdEvents 0x2A ++ datEvents [0x00, 0x01, 0x00, 0xA0] ++ cmdEvents 0x2B ++
        datEvents [0x00, 0x02, 0x00, 0x81] ++ cmdEvents 0x2C := by decide

/-- B2.11: 9-bit sums, no wrap, nothing emitted. -/
theorem test_B2_11 :
    (run (.setWindow 255 255 255 255) (State.construct (tp1 1 1 0 .rgb 255 255))).x.wx0 = 510 ∧
    (run (.setWindow 255 255 255 255) (State.construct (tp1 1 1 0 .rgb 255 255))).err.code = 3 ∧
    (run (.setWindow 255 255 255 255) (State.construct (tp1 1 1 0 .rgb 255 255))).tr = [] := by decide

/-- R119: unordered bounds are sent as computed, and the burst that follows is refused. -/
theorem test_unordered_window :
    (run (.setWindow 5 0 2 0) fresh).tr =
      cmdEvents 0x2A ++ datEvents [0x00, 0x05, 0x00, 0x02] ++ cmdEvents 0x2B ++
        datEvents [0x00, 0x00, 0x00, 0x00] ++ cmdEvents 0x2C ∧
    exec .ramwr (run (.setWindow 5 0 2 0) black) = .refused .unorderedWindow ∧
    exec (.sendData [0x00]) (run (.setWindow 0 5 0 2) black) = .refused .unorderedWindow :=
  ⟨by decide, rfl, rfl⟩

/-- After the next window, and for data that is no burst, there is nothing to refuse. -/
theorem test_after_unordered_window :
    (run (.setWindow 0 0 1 1) (run (.setWindow 5 0 2 0) black)).unordered = false ∧
    (run .present (run (.setWindow 5 0 2 0) black)).unordered = false ∧
    (run (.sendCommand 0x36) (run (.setWindow 5 0 2 0) black)).inBurst = false := by decide

/-- R187: RAMWR with no window, after the RAMWR of SET_WINDOW, and after a burst. -/
theorem test_ramwr_without_window :
    exec .ramwr black = .refused .noWindow ∧ exec .ramwr windowed = .refused .noWindow ∧
    exec .ramwr (run .present black) = .refused .noWindow := ⟨rfl, rfl, rfl⟩

/-- R101: data after a RAMWR with no window before it, and a second burst of the window's length. -/
theorem test_data_runs :
    (run (.sendData [0xF8, 0x00, 0x01]) (run (.sendCommand 0x2C) fresh)).tr =
      cmdEvents 0x2C ++ datEvents [0xF8, 0x00, 0x01] ∧
    (run (.sendData (List.replicate 8 0xAA)) (run (.sendCommand 0x2C) (run .present black))).bi = 8 ∧
    (run (.sendData (List.replicate 8 0xAA)) (run (.sendCommand 0x2C) (run .present black))).dc = 1 := by decide

/-- R247: a burst of another length than its window's, and data after the window's burst has gone out. -/
theorem test_burst_length :
    exec .ramwr (bounded (run (.setWindow 0 0 1 0) black)) = .refused .burstLength ∧
    exec (.sendData [0, 0]) (run (.setWindow 0 0 1 0) black) = .refused .burstLength ∧
    exec (.sendData [0]) (run .present black) = .refused .burstLength := ⟨rfl, rfl, rfl⟩

/-- A burst of a smaller window, whole (R31: columns 0 to 1 of row 0) and in chunks, and the next data refused. -/
theorem test_burst_of_small_window :
    (run (.sendData [0xF8, 0, 0xF8, 0]) (run (.setWindow 0 0 1 0) black)).bi = 4 ∧
    (run (.sendData [0xF8, 0]) (run (.sendData [0, 0]) (run (.setWindow 0 0 1 0)
      { black with cfg := { Config.resetCfg with burstChunk := 2 } }))).burstFits 1 = false := by decide

/-! ## B3. Transcoder -/

/-- B3.1 with `TX` as the destination. -/
theorem test_B3_1 :
    (run (.swapBytes .tx .fb 4)
      (ready [0x00, 0xF8, 0x34, 0x12] [0xAA, 0xBB, 0xCC, 0xDD])).tx.readBytes 0 4 =
      some [0xF8, 0x00, 0x12, 0x34] := by decide

/-- B3.4: an odd length leaves the last byte alone. -/
theorem test_B3_4 :
    (run (.swapBytes .fb .tx 3) (ready [0xAA, 0xBB, 0xCC] [0x01, 0x02])).fb.readBytes 0 3 =
      some [0x02, 0x01, 0xCC] := by decide

/-- B3.9. -/
theorem test_B3_9 : (run (.swapBytes .tx .tx 4) fresh).err.code = 6 := by decide

/-! ## B4. FrameBuffer -/

set_option maxRecDepth 20000

/-- The bytes of `FB` of a new instance of this size after `fill(0)` and a drawing. -/
def drawn (w h : Nat) (d : Draw) : Option (List Byte) :=
  (draw d (draw (.fill 0) (State.construct (tp1 w h 0 .rgb 0 0)))).fb.readBytes 0 (2 * (w * h))

theorem test_B4_2 : drawn 2 2 (.fill 0xF800) = some [0x00, 0xF8, 0x00, 0xF8, 0x00, 0xF8, 0x00, 0xF8] := by decide
theorem test_B4_4 : drawn 3 2 (.pixel 3 0 0x1234) = some (List.replicate 12 0) := by decide
theorem test_B4_6 : drawn 4 1 (.hline 2 0 5 0xFFFF) = some [0, 0, 0, 0, 0xFF, 0xFF, 0xFF, 0xFF] := by decide
theorem test_B4_8 : drawn 1 3 (.vline 0 (-1) 3 0x00FF) = some [0xFF, 0, 0xFF, 0, 0, 0] := by decide
theorem test_B4_9 :
    drawn 4 2 (.line 0 0 3 1 0x0001) = some [1, 0, 1, 0, 0, 0, 0, 0, 0, 0, 0, 0, 1, 0, 1, 0] := by decide
theorem test_B4_11 :
    drawn 3 3 (.rect 0 0 3 3 0x0001) = some [1, 0, 1, 0, 1, 0, 1, 0, 0, 0, 1, 0, 1, 0, 1, 0, 1, 0] := by decide
theorem test_B4_12 : drawn 2 2 (.fillRect 1 (-1) 5 2 0xF800) = some [0, 0, 0, 0xF8, 0, 0, 0, 0] := by decide
theorem test_B4_15 :
    (after fresh (fbRead 1 0 (draw (.fillRect 1 (-1) 5 2 0xF800) black))).readData = some 0xF800 := by decide

/-- R136: a set pixel of the second character. -/
theorem test_text_advances :
    (drawText [7, 65] (-8) 0 0x1234 { black with cfg := { Config.resetCfg with font := [(65, 1, 1)] } }).pixel 1 1 =
      some 0x1234 := by decide

/-- R136: a glyph has no column past `GLYPH_W - 1`, here 7. -/
theorem test_text_eight_columns :
    (drawText [65] 0 0 0x1234
      (readyOf { tp1 9 1 0 .rgb 0 0 with font := [(65, 0, 7), (65, 0, 8)] })).fb.readBytes 14 4 =
      some [0x34, 0x12, 0, 0] := by decide

/-! ## B5. Requests -/

/-- B5.1. -/
theorem test_B5_1 : (run .present fresh).err.code = 2 ∧ (run .present fresh).tr = [] := by decide

/-- B5.2: one step with the request 0x0 pending. -/
theorem test_B5_2 : (after fresh (step { fresh with inbox := [.request 0] })).err.code = 4 := by decide

/-- B5.4 and the end state of program P1. -/
theorem test_B5_4 :
    (run .init fresh).tr.length = 173 ∧ (run .init fresh).seqPc = 37 ∧ (run .init fresh).ctrl = .ready ∧
    (run .init fresh).x = ⟨0, 0, 1, 1, 0, 0⟩ := by decide

/-- B5.8, program P5. -/
theorem test_B5_8 :
    (run .init { fresh with bus := some ⟨9, 1⟩ }).tr.length = 54 ∧
    (run .init { fresh with bus := some ⟨9, 1⟩ }).seqPc = 15 ∧
    (run .init { fresh with bus := some ⟨9, 1⟩ }).ctrl = .initializing ∧
    (run .init { fresh with bus := some ⟨9, 1⟩ }).fatal = true := by decide

/-- B5.11: the burst fails after three bytes; `TX` is already transcoded. -/
theorem test_B5_11 :
    (run .present { draw (.pixel 0 0 0xABCD) black with bus := some ⟨5, 3⟩ }).tr =
      windowEvents ⟨0, 0, 1, 1, 0, 0⟩ ++ [.cs 0, .dc 1, .byte 0xAB, .byte 0xCD, .byte 0x00] ∧
    (run .present { draw (.pixel 0 0 0xABCD) black with bus := some ⟨5, 3⟩ }).tx.readBytes 0 8 =
      some [0xAB, 0xCD, 0, 0, 0, 0, 0, 0] := by decide

/-- Program P6's present: the burst in chunks of five bytes. -/
theorem test_P6_present :
    (run .present { readyOf { tp1 2 3 180 .rgb 2 3 with burstChunk := 5 } with
      fb := Memory.writeBytes [] 0 [0x00, 0x11, 0x01, 0x11, 0x02, 0x11, 0x03, 0x11, 0x04, 0x11, 0x05, 0x11] }).tr =
      cmdEvents 0x2A ++ datEvents [0x00, 0x02, 0x00, 0x03] ++ cmdEvents 0x2B ++ datEvents [0x00, 0x03, 0x00, 0x05] ++
      cmdEvents 0x2C ++ datEvents [0x11, 0x00, 0x11, 0x01, 0x11] ++ datEvents [0x02, 0x11, 0x03, 0x11, 0x04] ++
      datEvents [0x11, 0x05] := by decide

/-! ## B6. Wire commands -/

theorem test_B6_swreset : (run .swreset fresh).tr = cmdEvents 0x01 ++ [.delay 150] := by decide
theorem test_B6_slpout : (run .slpout fresh).tr = cmdEvents 0x11 ++ [.delay 500] := by decide
theorem test_B6_frmctr1 : (run .frmctr1 fresh).tr = cmdEvents 0xB1 ++ datEvents [0x01, 0x2C, 0x2D] := by decide
theorem test_B6_frmctr2 : (run .frmctr2 fresh).tr = cmdEvents 0xB2 ++ datEvents [0x01, 0x2C, 0x2D] := by decide
theorem test_B6_frmctr3 :
    (run .frmctr3 fresh).tr = cmdEvents 0xB3 ++ datEvents [0x01, 0x2C, 0x2D, 0x01, 0x2C, 0x2D] := by decide
theorem test_B6_invctr : (run .invctr fresh).tr = cmdEvents 0xB4 ++ datEvents [0x07] := by decide
theorem test_B6_pwctr1 : (run .pwctr1 fresh).tr = cmdEvents 0xC0 ++ datEvents [0xA2, 0x02, 0x84] := by decide
theorem test_B6_pwctr2 : (run .pwctr2 fresh).tr = cmdEvents 0xC1 ++ datEvents [0xC5] := by decide
theorem test_B6_pwctr3 : (run .pwctr3 fresh).tr = cmdEvents 0xC2 ++ datEvents [0x0A, 0x00] := by decide
theorem test_B6_pwctr4 : (run .pwctr4 fresh).tr = cmdEvents 0xC3 ++ datEvents [0x8A, 0x2A] := by decide
theorem test_B6_pwctr5 : (run .pwctr5 fresh).tr = cmdEvents 0xC4 ++ datEvents [0x8A, 0xEE] := by decide
theorem test_B6_vmctr1 : (run .vmctr1 fresh).tr = cmdEvents 0xC5 ++ datEvents [0x0E] := by decide
theorem test_B6_invoff : (run .invoff fresh).tr = cmdEvents 0x20 := by decide
theorem test_B6_madctl :
    (run .madctl (State.construct (tp1 2 2 90 .bgr 0 0))).tr = cmdEvents 0x36 ++ datEvents [0x68] := by decide
theorem test_B6_colmod : (run .colmod fresh).tr = cmdEvents 0x3A ++ datEvents [0x05] := by decide
theorem test_B6_noron : (run .noron fresh).tr = cmdEvents 0x13 := by decide
theorem test_B6_dispon : (run .dispon fresh).tr = cmdEvents 0x29 := by decide

/-- R185's example: `LW` = 128, `OX_EFF` = 2. -/
theorem test_B6_caset :
    (run .caset { fresh with x := ⟨2, 1, 129, 160, 2, 1⟩ }).tr =
      cmdEvents 0x2A ++ datEvents [0x00, 0x02, 0x00, 0x81] := by decide

/-- R186's example: `LH` = 160, `OY_EFF` = 1. -/
theorem test_B6_raset :
    (run .raset { fresh with x := ⟨2, 1, 129, 160, 2, 1⟩ }).tr =
      cmdEvents 0x2B ++ datEvents [0x00, 0x01, 0x00, 0xA0] := by decide

/-- R187's example: a 1 x 1 panel. -/
theorem test_B6_ramwr :
    (run .ramwr (bounded { State.construct (tp1 1 1 0 .rgb 0 0) with tx := [(0, 0xF8), (1, 0x00)] })).tr =
      (bounded (State.construct (tp1 1 1 0 .rgb 0 0))).tr ++
      cmdEvents 0x2C ++ datEvents [0xF8, 0x00] := by decide

/-- R36: `TX` after reset holds nothing that could be sent. -/
theorem test_ramwr_unwritten : exec .ramwr (bounded (run (.setWindow 0 0 1 1) fresh)) = .fault (.unwritten .tx) := rfl

/-! ## Witnesses: each statement's hypotheses are met, clause by clause, at boundary values -/

/-- The bus lets exactly `n` transactions through, then fails at once. -/
def upTo (n : Nat) (s : State) : State := { s with bus := some ⟨n, 0⟩ }

/-- The bus lets `k` transactions and then `j` bytes through. -/
def failing (k j : Nat) (s : State) : State := { s with bus := some ⟨k, j⟩ }

/-- An instance that met a fatal error. -/
def dead : State := { fresh with fatal := true, err := .transportFailure }

theorem black_full : black.fbFull := by
  show ∀ a, a < 8 → (black.fb.read a).isSome = true
  decide

theorem witness_rotation_valid :
    ∀ r ∈ [0, 90, 180, 270], ((tp1 1 1 r .rgb 0 0).rotation = 0 ∨ (tp1 1 1 r .rgb 0 0).rotation = 90 ∨
      (tp1 1 1 r .rgb 0 0).rotation = 180 ∨ (tp1 1 1 r .rgb 0 0).rotation = 270) := by decide
theorem witness_rotation_invalid :
    ∀ r ∈ [45, 360, 1], ¬((tp1 1 1 r .rgb 0 0).rotation = 0 ∨ (tp1 1 1 r .rgb 0 0).rotation = 90 ∨
      (tp1 1 1 r .rgb 0 0).rotation = 180 ∨ (tp1 1 1 r .rgb 0 0).rotation = 270) := by decide
theorem witness_swapped :
    (tp1 3 2 90 .rgb 2 1).swapped = true ∧ (tp1 3 2 270 .rgb 2 1).swapped = true ∧
    (tp1 3 2 180 .rgb 2 1).swapped = false ∧ (tp1 3 2 91 .rgb 2 1).swapped = false := by decide
theorem witness_frame_size : (tp1 256 256 0 .rgb 0 0).w ≤ 256 ∧ (tp1 256 256 0 .rgb 0 0).h ≤ 256 := by decide
theorem witness_madctl_fallback :
    (tp1 1 1 360 .bgr 0 0).rotation ≠ 0 ∧ (tp1 1 1 360 .bgr 0 0).rotation ≠ 90 ∧
    (tp1 1 1 360 .bgr 0 0).rotation ≠ 180 ∧ (tp1 1 1 360 .bgr 0 0).rotation ≠ 270 := by decide
theorem witness_ill_formed : ({ fresh with cfg := tp1 256 256 0 .rgb 1 0 } : State).cfg.ok = false := by decide
theorem witness_unasked : fresh.cfg.ok = true ∧ fresh.inbox = [] := by decide
theorem witness_decoded :
    decode .req [0x0E, 1, 2, 3, 4, 9] = .ok (.setWindow 1 2 3 4) [9] ∧ decode .wire [0x2C] = .ok .ramwr [] := by decide
theorem witness_step_runs :
    fresh.cfg.ok = true ∧
    ({ fresh with inbox := [.dispatch .wire [0x20]] } : State).inbox = .dispatch .wire [0x20] :: [] ∧
    decode .wire [0x20] = .ok .invoff [] ∧ decodeTableWord 8 0x20 = some .invoff := by decide
theorem witness_request_codes :
    ∀ c ∈ [(0x1 : BitVec 4), 0x2], ({ fresh with inbox := [.request c] } : State).inbox = .request c :: [] ∧
      fresh.cfg.ok = true ∧ fresh.busy = false ∧ fresh.fatal = false := by decide
theorem witness_illegal_request :
    ∀ c ∈ [(0x0 : BitVec 4), 0x3, 0xB, 0xC, 0xF],
      ({ fresh with inbox := [.request c] } : State).inbox = .request c :: [] ∧ c ≠ 0x1 ∧ c ≠ 0x2 ∧
      fresh.cfg.ok = true ∧ fresh.busy = false ∧ fresh.fatal = false := by decide
theorem witness_dead_request :
    ∀ c ∈ [(0x0 : BitVec 4), 0x1, 0xF], ({ dead with inbox := [.request c] } : State).inbox = .request c :: [] ∧
      dead.cfg.ok = true ∧ dead.busy = false ∧ dead.fatal = true := by decide
theorem witness_busy :
    ({ fresh with busy := true, inbox := [.draw (.fill 0)] } : State).cfg.ok = true ∧
    ({ fresh with busy := true, inbox := [.draw (.fill 0)] } : State).inbox = .draw (.fill 0) :: [] ∧
    (∀ f bytes, Action.draw (.fill 0) ≠ .dispatch f bytes) :=
  ⟨by decide, rfl, fun _ _ h => (nomatch h)⟩

/-- ResetAndWakeThenSettleDelay, PlainCommandsSendTheirOpcode, SendCommandEvents, SendDataEvents. -/
theorem witness_one_transaction :
    (upTo 1 fresh).fatal = false ∧ (upTo 1 fresh).busOk 1 = true ∧ ([0x05] : List Byte) ≠ [] ∧
    (upTo 1 fresh).inBurst = false ∧ (upTo 1 fresh).burstFits 1 = true ∧
    (upTo 1 windowed).unordered = false ∧ (upTo 1 windowed).burstFits 8 = true := by decide

/-- The commands with a payload: FrameRate, Power, OneByte, Orientation, WindowBound. -/
theorem witness_two_transactions :
    (upTo 2 fresh).fatal = false ∧ (upTo 2 fresh).busOk 2 = true ∧ fresh.cfg.pFrmctr1 ≠ [] ∧
    fresh.cfg.pFrmctr2 ≠ [] ∧ fresh.cfg.pFrmctr3 ≠ [] ∧ fresh.cfg.pPwctr1 ≠ [] ∧ fresh.cfg.pPwctr2 ≠ [] ∧
    fresh.cfg.pPwctr3 ≠ [] ∧ fresh.cfg.pPwctr4 ≠ [] ∧ fresh.cfg.pPwctr5 ≠ [] ∧
    fresh.cfg.pInvctr = [0x07] ∧ fresh.cfg.pVmctr1 = [0x0E] := by decide

theorem witness_ramwr :
    (upTo 2 (bounded windowed)).fatal = false ∧ (upTo 2 (bounded windowed)).busOk (1 + black.cfg.burstCount) = true ∧
    (bounded windowed).tx.readBytes 0 black.cfg.nbytes = some (List.replicate 8 0) ∧
    (upTo 2 (bounded windowed)).afterWindow = true ∧
    (upTo 2 (bounded windowed)).windowBytes = some black.cfg.nbytes := by decide

/-- RAMWR with no window directly before it, and RAMWR and SEND_DATA that do not fit the window. -/
theorem witness_burst_length :
    black.unordered = false ∧ black.afterWindow = false ∧
    (bounded (run (.setWindow 0 0 1 0) black)).unordered = false ∧
    (bounded (run (.setWindow 0 0 1 0) black)).afterWindow = true ∧
    (bounded (run (.setWindow 0 0 1 0) black)).windowBytes ≠ some black.cfg.nbytes ∧
    windowed.unordered = false ∧ windowed.burstFits 7 = false ∧ windowed.burstFits 9 = false := by decide

/-- RAMWR and SEND_DATA in the burst after an unordered window. -/
theorem witness_unordered :
    (run (.setWindow 1 0 0 0) black).unordered = true ∧ (run (.setWindow 0 1 0 0) black).inBurst = true ∧
    (run (.setWindow 0 1 0 0) black).unordered = true ∧ (run (.setWindow 1 0 0 0) black).fatal = false := by decide
theorem witness_ramwr_chunked :
    ({ upTo 3 (bounded windowed) with cfg := { Config.resetCfg with burstChunk := 5 } } : State).busOk
      (1 + ({ Config.resetCfg with burstChunk := 5 } : Cfg).burstCount) = true ∧
    ({ upTo 3 windowed with cfg := { Config.resetCfg with burstChunk := 5 } } : State).burstFits 5 = true := by decide
/-- RAMWR with one byte of TX unwritten, the last one. -/
theorem witness_ramwr_unwritten :
    ({ upTo 1 (bounded windowed) with tx := Memory.writeBytes [] 0 (List.replicate 7 0) } : State).busOk 1 = true ∧
    ({ upTo 1 (bounded windowed) with tx := Memory.writeBytes [] 0 (List.replicate 7 0) } : State).afterWindow = true ∧
    ({ upTo 1 (bounded windowed) with tx := Memory.writeBytes [] 0 (List.replicate 7 0) } : State).windowBytes =
      some black.cfg.nbytes ∧
    7 < black.cfg.nbytes ∧ Memory.read (Memory.writeBytes [] 0 (List.replicate 7 0)) 7 = none := by decide
theorem witness_failed_transaction :
    (failing 0 0 fresh).fatal = false ∧ (failing 0 0 fresh).bus = some ⟨0, 0⟩ ∧
    (failing 0 9 fresh).bus = some ⟨0, 9⟩ ∧ ([0x01, 0x2C, 0x2D] : List Byte) ≠ [] ∧
    (failing 0 0 fresh).inBurst = false ∧ (failing 0 0 fresh).burstFits 3 = true ∧
    (failing 0 3 windowed).unordered = false ∧ (failing 0 3 windowed).burstFits 8 = true := by decide
theorem witness_fatal_set :
    (failing 0 0 fresh).fatal = false ∧
    exec (.sendCommand 0x11) (failing 0 0 fresh) = .next (run (.sendCommand 0x11) (failing 0 0 fresh)) ∧
    (run (.sendCommand 0x11) (failing 0 0 fresh)).fatal = true := ⟨rfl, rfl, rfl⟩
theorem witness_dead_instance : dead.fatal = true ∧ dead.busy = false := by decide

/-- B2.8: a bound of exactly 255. -/
theorem witness_window_in_range :
    (upTo 5 (State.construct (tp1 240 11 0 .rgb 5 0))).busOk 5 = true ∧
    (0 : Byte).toNat + (tp1 240 11 0 .rgb 5 0).oxEff.toNat ≤ 255 ∧
    (250 : Byte).toNat + (tp1 240 11 0 .rgb 5 0).oxEff.toNat = 255 ∧
    (10 : Byte).toNat + (tp1 240 11 0 .rgb 5 0).oyEff.toNat ≤ 255 := by decide

/-- R119: unordered operands within the range, on each axis, and ordered ones at the boundary. -/
theorem witness_window_unordered :
    (5 : Byte) < 6 ∧ (5 : Byte).toNat + (tp1 240 11 0 .rgb 5 0).oxEff.toNat ≤ 255 ∧
    exec (.setWindow 6 0 5 0) fresh = .next (run (.setWindow 6 0 5 0) fresh) ∧ (5 : Byte) ≤ 5 :=
  ⟨by decide, by decide, rfl, by decide⟩

/-- B2.9: a bound of 256, and each of the four bounds alone beyond the range. -/
theorem witness_window_out_of_range :
    255 < (250 : Byte).toNat + (tp1 240 11 0 .rgb 6 0).oxEff.toNat ∧
    255 < (255 : Byte).toNat + (tp1 1 1 0 .rgb 1 0).oxEff.toNat ∧
    255 < (255 : Byte).toNat + (tp1 1 1 0 .rgb 0 1).oyEff.toNat := by decide

theorem witness_swap :
    Space.tx ≠ Space.fb ∧ Space.fb ≠ Space.tx ∧ (8 : BitVec 18).toNat ≤ black.cfg.nbytes ∧
    (0 : BitVec 18).toNat ≤ fresh.cfg.nbytes ∧
    (∀ a, a < 2 * ((8 : BitVec 18).toNat / 2) → ((black.mem .fb).read a).isSome = true) ∧
    (∀ a, a < 2 * ((7 : BitVec 18).toNat / 2) → ((black.mem .tx).read a).isSome = true) ∧
    (∀ a, a < 2 * ((1 : BitVec 18).toNat / 2) → ((fresh.mem .fb).read a).isSome = true) := by decide
/-- SwapBytesExchangesPairs: the last byte of the last pair unwritten. -/
theorem witness_swap_unwritten :
    Space.tx ≠ Space.fb ∧ (8 : BitVec 18).toNat ≤ fresh.cfg.nbytes ∧ 7 < 2 * ((8 : BitVec 18).toNat / 2) ∧
    (({ fresh with fb := Memory.writeBytes [] 0 (List.replicate 7 0) } : State).mem .fb).read 7 = none := by decide

/-- SwapBytesIsAnInvolution: a third array with other bytes than the first, and one with none. -/
theorem witness_third_array :
    (∀ a, a < 2 * ((8 : BitVec 18).toNat / 2) → ((black.mem .fb).read a).isSome = true) ∧
    ∀ m ∈ [Memory.writeBytes [] 0 (List.replicate 8 0xAA), []],
      ({ run (.swapBytes .tx .fb 8) black with fb := m } : State).mem .tx = (run (.swapBytes .tx .fb 8) black).mem .tx ∧
      ({ run (.swapBytes .tx .fb 8) black with fb := m } : State).cfg = (run (.swapBytes .tx .fb 8) black).cfg ∧
      ({ run (.swapBytes .tx .fb 8) black with fb := m } : State).fatal =
        (run (.swapBytes .tx .fb 8) black).fatal := by decide
theorem witness_bad_swap :
    fresh.fatal = false ∧ (Space.tx = Space.tx ∨ fresh.cfg.nbytes < (0 : BitVec 18).toNat) ∧
    (Space.tx = Space.fb ∨ fresh.cfg.nbytes < (9 : BitVec 18).toNat) := by decide
theorem witness_big_endian :
    black.fatal = false ∧ black.cfg.ok = true ∧ black.fbFull ∧ 3 < black.cfg.npix ∧
    black.fb.readWord (2 * 3) = some 0 := ⟨rfl, by decide, black_full, by decide, by decide⟩

/-- PresentSendsTheWholeFrame and PresentSendsEveryPixelBigEndian, at the last pixel. -/
theorem witness_present :
    (upTo 6 black).cfg.ok = true ∧ (upTo 6 black).busy = false ∧ (upTo 6 black).fatal = false ∧
    (upTo 6 black).ctrl = .ready ∧ (upTo 6 black).busOk (5 + black.cfg.burstCount) = true ∧
    black.fb.readBytes 0 black.cfg.nbytes = some (List.replicate 8 0) ∧ (upTo 6 black).pixel 1 1 = some 0 := by decide
/-- PresentSendsTheWholeFrame: the last byte of FB unwritten, in a state no run reaches. -/
theorem witness_present_unwritten :
    ({ upTo 5 black with fb := Memory.writeBytes [] 0 (List.replicate 7 0) } : State).busOk 5 = true ∧
    black.ctrl = .ready ∧ 7 < black.cfg.nbytes ∧
    Memory.read (Memory.writeBytes [] 0 (List.replicate 7 0)) 7 = none := by decide

/-- PresentSendsEveryPixelBigEndian, CommandsOfInitAndPresent. -/
theorem witness_present_full : (upTo 6 black).fbFull := black_full
theorem witness_burst_whole :
    (List.replicate 8 (0 : Byte)).length = Config.resetCfg.nbytes ∧ Config.resetCfg.burstChunk = 0 := by decide
theorem witness_burst_chunks :
    0 < ({ Config.resetCfg with burstChunk := 5 } : Cfg).burstChunk ∧
    (burstChunks 5 (List.replicate 8 (0 : Byte)))[0]? = some [0, 0, 0, 0, 0] ∧
    (burstChunks 5 (List.replicate 8 (0 : Byte)))[1]? = some [0, 0, 0] ∧
    0 + 1 < (burstChunks 5 (List.replicate 8 (0 : Byte))).length := by decide
theorem witness_two_presents : (upTo 12 black).busOk (2 * (5 + black.cfg.burstCount)) = true := by decide
theorem witness_present_not_ready : fresh.busy = false ∧ fresh.fatal = false ∧ fresh.ctrl ≠ .ready := by decide

/-- InitRunsTheWholeSequence, InitEstablishesABlackFrame and CommandsOfInitAndPresent, from Uninitialized and from Ready. -/
theorem witness_init :
    ∀ s ∈ [upTo 35 fresh, upTo 35 black], s.cfg.ok = true ∧ s.busy = false ∧ s.fatal = false ∧
      s.ctrl ≠ .initializing ∧ s.busOk (34 + s.cfg.burstCount) = true := by decide

/-- The first transaction, the last of the window, and the burst. -/
theorem witness_failure_in_present :
    ∀ p ∈ [(0, 0), (4, 1), (5, 3)], (failing p.1 p.2 black).bus = some ⟨p.1, p.2⟩ ∧ p.1 < 5 + black.cfg.burstCount ∧
      black.ctrl = .ready ∧ black.cfg.ok = true ∧ black.busy = false ∧ black.fatal = false ∧
      black.fb.readBytes 0 black.cfg.nbytes = some (List.replicate 8 0) := by decide

/-- Entries 4, 6, 8, 34, and the first and last transaction of entry 36. -/
theorem witness_failure_in_init :
    ∀ k ∈ [0, 1, 2, 28, 29, 34], (failing k 0 fresh).bus = some ⟨k, 0⟩ ∧ k < 34 + fresh.cfg.burstCount ∧
      fresh.ctrl ≠ .initializing ∧ fresh.cfg.ok = true ∧ fresh.busy = false ∧ fresh.fatal = false := by decide
theorem witness_failure_entries :
    [0, 1, 2, 28, 29, 34].map entryOfTransaction = [4, 6, 8, 34, 36, 36] := by decide

theorem witness_fbWrite_inside :
    ({ fresh with inbox := [.fbWrite 1 1 0x1234] } : State).inbox = .fbWrite (1 : Nat) (1 : Nat) 0x1234 :: [] ∧
    1 < fresh.cfg.lw ∧ 1 < fresh.cfg.lh ∧ fresh.cfg.ok = true ∧ fresh.busy = false := by decide
theorem witness_fbWrite_outside :
    ((-1 : Int) < 0 ∨ (0 : Int) < 0 ∨ (fresh.cfg.lw : Int) ≤ -1 ∨ (fresh.cfg.lh : Int) ≤ 0) ∧
    ((2 : Int) < 0 ∨ (0 : Int) < 0 ∨ (fresh.cfg.lw : Int) ≤ 2 ∨ (fresh.cfg.lh : Int) ≤ 0) := by decide
theorem witness_fbRead :
    ({ black with inbox := [.fbRead 1 1] } : State).inbox = .fbRead (1 : Nat) (1 : Nat) :: [] ∧
    1 < black.cfg.lw ∧ 1 < black.cfg.lh ∧ black.fb.read (2 * (1 * black.cfg.lw + 1)) = some 0 ∧
    black.fb.read (2 * (1 * black.cfg.lw + 1) + 1) = some 0 := by decide
/-- FbReadReturnsThePixel: of the last pixel the second byte alone, and both, unwritten. -/
theorem witness_fbRead_unwritten :
    Memory.read (Memory.writeBytes [] 0 (List.replicate 7 0)) (2 * (1 * fresh.cfg.lw + 1) + 1) = none ∧
    ({ fresh with inbox := [.fbRead 1 1] } : State).inbox = .fbRead (1 : Nat) (1 : Nat) :: [] ∧
    fresh.fb.read (2 * (1 * fresh.cfg.lw + 1)) = none ∧ fresh.busy = false := by decide
theorem witness_drawing :
    ({ fresh with inbox := [.draw (.fill 0)] } : State).inbox = .draw (.fill 0) :: [] ∧ fresh.cfg.ok = true ∧
    fresh.busy = false ∧ 8 = fresh.cfg.nbytes := by decide

/-- FillPaintsEveryPixel, RunsPaintTheirPixels, FillRectPaintsTheClippedRectangle, RectPaintsTheBorder: the last
pixel of the screen. -/
theorem witness_pixel_on_screen : 3 < fresh.cfg.npix ∧ 1 < fresh.cfg.lw ∧ 1 < fresh.cfg.lh := by decide

/-- LineEndPointsRunsAndBox: each clause. -/
theorem witness_line :
    ((1 : Int) = (1 : Nat) ∧ (1 : Int) < fresh.cfg.lw) ∧
    ((1 : Nat) < min (2 : Int) 7 ∨ max (2 : Int) 7 < (1 : Nat) ∨ (1 : Nat) < min (1 : Int) 1 ∨
      max (1 : Int) 1 < (1 : Nat)) := by decide

/-- A font of one set pixel. -/
def dotted : Cfg := { Config.resetCfg with font := [(65, 1, 1)] }

theorem witness_text_set :
    ∃ k ch r q : Nat, ([7, 65] : List Nat)[k]? = some ch ∧ r < 8 ∧ q < dotted.glyphW.val ∧
      dotted.fontAt ch r q = true ∧ ((1 : Nat) : Int) = (-8) + k * dotted.glyphAdv + q ∧ ((1 : Nat) : Int) = 0 + r :=
  ⟨1, 65, 1, 1, by decide⟩
theorem witness_text_clear :
    ∀ k ch r q : Nat, ([65] : List Nat)[k]? = some ch → r < 8 → q < dotted.glyphW.val → dotted.fontAt ch r q = true →
      ¬(((0 : Nat) : Int) = 0 + k * dotted.glyphAdv + q ∧ ((0 : Nat) : Int) = 0 + r) := by
  intro k ch r q _ _ _ hf
  have hr : r = 1 := by
    simp only [Cfg.fontAt, dotted, List.contains_iff_mem, List.mem_singleton, Prod.mk.injEq] at hf
    exact hf.2.1
  omega
theorem witness_filled_rectangle :
    (∀ a, a < (upTo 6 black).cfg.nbytes → (upTo 6 black).fb.read a = some 0x00) ∧
    (upTo 6 black).busOk (5 + black.cfg.burstCount) = true := by decide
theorem witness_construction : (tp1 256 256 0 .rgb 0 0).ok = true := by decide

/-- A state that meets the invariant and is not the reset state. -/
theorem black_inv : black.Inv where
  cfgOk := by decide
  notBusy := rfl
  initializingFatal h := by cases h
  fatalErr := by decide
  csIdle _ := rfl
  rstIdle _ := rfl
  timerIdle := rfl
  pcRange := by decide
  fbWf := by decide
  txWf := by decide
  fbWithin := by show ∀ c ∈ black.fb, c.1 < 8; decide
  txWithin := by show ∀ c ∈ black.tx, c.1 < 8; decide
  readyFull _ := black_full
  framed := by decide

/-- StepKeepsTheInvariant: a present from a state that meets the invariant. -/
theorem witness_invariant_step :
    ({ black with inbox := [.request 0x2] } : State).Inv ∧
    step { black with inbox := [.request 0x2] } = .next (run .present black) :=
  ⟨{ black_inv with }, rfl⟩
theorem witness_step_next : step fresh = .next fresh := rfl
theorem witness_fatal_step :
    ({ dead with inbox := [.request 0x1] } : State).fatal = true ∧
    step { dead with inbox := [.request 0x1] } = .next { dead with err := .dead } := ⟨rfl, rfl⟩
theorem witness_not_init : Instr.invoff ≠ .init ∧ exec .invoff fresh = .next (run .invoff fresh) :=
  ⟨by decide, rfl⟩
theorem witness_uninitialized : step fresh = .next fresh ∧ fresh.ctrl = .uninitialized := ⟨rfl, rfl⟩
theorem witness_silent_action :
    ({ black with inbox := [.fbRead 0 0] } : State).inbox = .fbRead 0 0 :: [] ∧
    (∀ f bytes, Action.fbRead 0 0 ≠ .dispatch f bytes) ∧ (∀ code, Action.fbRead 0 0 ≠ .request code) ∧
    step { black with inbox := [.fbRead 0 0] } = .next { black with readData := some 0 } :=
  ⟨rfl, fun _ _ h => (nomatch h), fun _ h => (nomatch h), rfl⟩

end Sys2Proof.Tests
end

section
/-! Well-formed configurations (00_scope.md R5, R6). -/

namespace Sys2Proof

/-- The table of R5, read as conditions on the payload parameters. -/
theorem Cfg.payloadsOk_iff (c : Cfg) : c.payloadsOk = true ↔
    c.pFrmctr1 ≠ [] ∧ c.pFrmctr2 ≠ [] ∧ c.pFrmctr3 ≠ [] ∧ c.pInvctr.length = 1 ∧
    c.pPwctr1 ≠ [] ∧ c.pPwctr2 ≠ [] ∧ c.pPwctr3 ≠ [] ∧ c.pPwctr4 ≠ [] ∧ c.pPwctr5 ≠ [] ∧
    c.pVmctr1.length = 1 := by
  simp only [Cfg.payloadsOk, Bool.and_eq_true, decide_eq_true_eq, Nat.one_le_iff_ne_zero, ne_eq,
    List.length_eq_zero_iff, and_assoc]

/-- R6: CFG_OK is the bounds on the screen, the bounds on the offset full-screen window, and the payload lengths. -/
theorem Cfg.ok_iff (c : Cfg) : c.ok = true ↔
    (1 ≤ c.w ∧ c.w ≤ 256) ∧ (1 ≤ c.h ∧ c.h ≤ 256) ∧
    c.lw - 1 + c.oxEff.toNat ≤ 255 ∧ c.lh - 1 + c.oyEff.toNat ≤ 255 ∧ c.payloadsOk = true := by
  simp only [Cfg.ok, Bool.and_eq_true, decide_eq_true_eq, and_assoc]

namespace Machine

/-- R6: an instance whose configuration is not well formed is given no behaviour. -/
theorem step_of_cfg_not_ok {s : State} (h : s.cfg.ok = false) : step s = .refused .badConfig := by
  simp [step, h]

/-- R6: in a well-formed instance the step takes the host's next action. -/
theorem step_of_cfg_ok {s : State} (h : s.cfg.ok = true) : step s = nextAction s := by
  simp [step, h]

/-- Settles O5: CFG_OK taken apart into its bounds and R5's payload lengths, and the refusing branch of the step. -/
theorem illFormedConfigurationRefused : Obligations.IllFormedConfigurationRefused := by
  refine ⟨fun c => ?_, fun _ h => step_of_cfg_not_ok h⟩
  rw [c.ok_iff, c.payloadsOk_iff]

end Machine

end Sys2Proof
end

section
/-! Values derived from the configuration, and the state after construction (R14 to R18, R22, R36). -/

namespace Sys2Proof

theorem Cfg.swapped_iff (c : Cfg) : c.swapped = true ↔ c.rotation = 90 ∨ c.rotation = 270 := by
  simp [Cfg.swapped]

/-- R14: a rotation that R5 names is effective as it is. -/
theorem Cfg.rotEff_of_valid {c : Cfg}
    (h : c.rotation = 0 ∨ c.rotation = 90 ∨ c.rotation = 180 ∨ c.rotation = 270) : c.rotEff = c.rotation := by
  rcases h with h | h | h | h <;> simp [Cfg.rotEff, h]

/-- R14: every other rotation behaves as 0. -/
theorem Cfg.rotEff_of_invalid {c : Cfg}
    (h : ¬(c.rotation = 0 ∨ c.rotation = 90 ∨ c.rotation = 180 ∨ c.rotation = 270)) : c.rotEff = 0 := by
  push Not at h
  obtain ⟨_, h90, h180, h270⟩ := h
  simp [Cfg.rotEff, h90, h180, h270]

theorem Cfg.rotEff_eq_iff (c : Cfg) {r : Nat} (hr : r = 90 ∨ r = 180 ∨ r = 270) :
    c.rotEff = r ↔ c.rotation = r := by
  by_cases h : c.rotation = 0 ∨ c.rotation = 90 ∨ c.rotation = 180 ∨ c.rotation = 270
  · rw [Cfg.rotEff_of_valid h]
  · rw [Cfg.rotEff_of_invalid h]; omega

/-- Settles O1: R14 for a valid and an invalid rotation, and the exchange of R16 and R17. -/
theorem derivedRotationSizeAndOffset : Obligations.DerivedRotationSizeAndOffset := by
  refine fun c => ⟨Cfg.rotEff_of_valid, fun h => ⟨Cfg.rotEff_of_invalid h, ?_⟩, fun h => ?_, fun h => ?_⟩
  · rw [← Bool.not_eq_true, c.swapped_iff]
    exact fun hr => h (by omega)
  · simp [Cfg.lw, Cfg.lh, Cfg.oxEff, Cfg.oyEff, h]
  · simp [Cfg.lw, Cfg.lh, Cfg.oxEff, Cfg.oyEff, h]

/-- Bit 5 of the MADCTL value is the base's: the colour order sets bit 3 (R80). -/
theorem Cfg.madctlVal_bit5 (c : Cfg) : c.madctlVal.getLsbD 5 = c.madctlBase.getLsbD 5 := by
  cases h : c.colorOrder with
  | rgb => simp [Cfg.madctlVal, h]
  | bgr =>
    have hbit : (0x08 : Byte).getLsbD 5 = false := rfl
    simp only [Cfg.madctlVal, h, BitVec.getLsbD_or, hbit, Bool.or_false]

/-- Bit 5 of the table's base is set for 90 and 270 degrees, and for no other rotation (R80). -/
theorem Cfg.madctlBase_bit5 (c : Cfg) : c.madctlBase.getLsbD 5 = c.swapped := by
  have h90 := c.rotEff_eq_iff (r := 90) (by decide)
  have h180 := c.rotEff_eq_iff (r := 180) (by decide)
  have h270 := c.rotEff_eq_iff (r := 270) (by decide)
  simp only [Cfg.madctlBase, Cfg.swapped, h90, h180, h270]
  by_cases r90 : c.rotation = 90
  · simp [r90]
  · by_cases r180 : c.rotation = 180
    · simp [r180]
    · by_cases r270 : c.rotation = 270 <;> simp [r90, r180, r270]

/-- Settles O2: the exchange by the rotation, by the effective rotation, and by bit 5 of the table's base. -/
theorem swappedIsBitFiveOfMadctl : Obligations.SwappedIsBitFiveOfMadctl := by
  intro c
  refine ⟨c.swapped_iff, ?_, c.madctlVal_bit5.trans c.madctlBase_bit5⟩
  rw [c.rotEff_eq_iff (by decide), c.rotEff_eq_iff (by decide), c.swapped_iff]

/-- Settles O3: the exchange of width and height keeps their product, which is at most 256 * 256. -/
theorem frameSizeIgnoresRotation : Obligations.FrameSizeIgnoresRotation := by
  refine fun c => ⟨rfl, rfl, Machine.cfg_lw_mul_lh c, fun hw hh => ?_⟩
  have hprod : c.w * c.h ≤ 256 * 256 := Nat.mul_le_mul hw hh
  simp only [Cfg.nbytes, Cfg.npix]
  omega

namespace Machine

/-- Settles O6: the fields of the state after construction, and its empty memories. -/
theorem constructionLeavesTheResetValues : Obligations.ConstructionLeavesTheResetValues := fun _ =>
  ⟨rfl, rfl, rfl, rfl, rfl, rfl, rfl, rfl, rfl, rfl, fun _ => rfl, fun _ => rfl⟩

/-- R22: while an operation runs, no action of the host has a move. -/
theorem act_of_busy {a : Action} {s : State} (hb : s.busy = true) (ha : ∀ f bytes, a ≠ .dispatch f bytes) :
    act a s = .fault .hostWhileBusy := by
  cases a with
  | request code => simp [act, handshake, hb]
  | draw d => simp [act, hb]
  | fbWrite x y c => simp [act, hb]
  | fbRead x y => simp [act, hb]
  | dispatch f bytes => exact (ha f bytes rfl).elim

/-- Settles O15: the pending action is the one the step takes, and it has no move. -/
theorem busyBlocksTheHost : Obligations.BusyBlocksTheHost := by
  intro s a r hc hb hi ha
  rw [step_of_cfg_ok hc, nextAction, hi]
  exact act_of_busy hb ha

end Machine

end Sys2Proof
end

section
/-! What an operation does in whatever state it runs, well formed or not: the bus, `FATAL`, and all that
`Extends` says (R12, R27, R35, R102). -/

namespace Sys2Proof.Machine

/-- What an operation that runs to its end does in any state: `FATAL` stays, and no failure enters the bus
schedule. -/
structure Passes (s t : State) : Prop extends Extends s t where
  fatal : t.fatal = s.fatal
  bus : t.bus ≠ none → s.bus ≠ none

/-- What an operation that raised an error did in any state: `FATAL` is set by a failing bus alone (R206). -/
structure Stops (s t : State) : Prop extends Extends s t where
  fatal : s.fatal = false → t.fatal = true → t.err = .transportFailure ∧ t.busy = false ∧ s.bus ≠ none

/-- What an operation can end in, whatever state it runs in. -/
def Orderly (s : State) : Result → Prop
  | .done t => Passes s t
  | .raised t => Stops s t
  | _ => True

theorem Passes.trans {s t u : State} (h : Passes s t) (g : Passes t u) : Passes s u :=
  { h.toExtends.trans g.toExtends with fatal := g.fatal.trans h.fatal, bus := fun hb => h.bus (g.bus hb) }

theorem Passes.trans_stops {s t u : State} (h : Passes s t) (g : Stops t u) : Stops s u where
  toExtends := h.toExtends.trans g.toExtends
  fatal hs hu := by
    obtain ⟨herr, hbusy, hbus⟩ := g.fatal (h.fatal.trans hs) hu
    exact ⟨herr, hbusy, h.bus hbus⟩

/-- An operation that begins with a harmless update. -/
theorem Passes.orderly {s t : State} {r : Result} (h : Passes s t) (hr : Orderly t r) : Orderly s r := by
  cases r with
  | done u => exact h.trans hr
  | raised u => exact h.trans_stops hr
  | fault _ => trivial
  | refused _ => trivial

theorem Orderly.bind {s : State} {r : Result} {k : State → Result} (h : Orderly s r)
    (hk : ∀ t, Orderly t (k t)) : Orderly s (r.bind k) := by
  cases r with
  | done t => exact Passes.orderly h (hk t)
  | raised t => exact h
  | fault _ => trivial
  | refused _ => trivial

/-! ## The updates that operations are made of -/

/-- Registers, pins and `TX` are free to change. -/
theorem passes_registers (s : State) (x : WinRegs) (ti tlen bi : BitVec 18) (dt : Nat) (tx : Memory) (cs dc : Level)
    (rst : RstLine) :
    Passes s { s with
      x := x, ti := ti, tlen := tlen, bi := bi, dt := dt, tx := tx, cs := cs, dc := dc, rst := rst } where
  cfg := rfl
  ctrl := rfl
  pc := rfl
  inbox := rfl
  keep _ h := h
  tr := ⟨[], by simp⟩
  fatal := rfl
  bus := id

theorem passes_refl (s : State) : Passes s s := passes_registers s _ _ _ _ _ _ _ _ _

/-- `FB` is free to change as long as no byte of it loses its value. -/
theorem passes_fb (s : State) (m : Memory) (h : ∀ a, (s.fb.read a).isSome = true → (m.read a).isSome = true) :
    Passes s { s with fb := m } where
  cfg := rfl
  ctrl := rfl
  pc := rfl
  inbox := rfl
  keep := h
  tr := ⟨[], by simp⟩
  fatal := rfl
  bus := id

theorem passes_writeFb (s : State) (l : List Byte) : Passes s { s with fb := s.fb.writeBytes 0 l } :=
  passes_fb s _ (keep_writeBytes _ _)

theorem passes_emit (s : State) (e : Event) : Passes s (s.emit e) where
  cfg := by simp
  ctrl := by simp
  pc := by simp
  inbox := by simp
  keep a h := by simpa using h
  tr := ⟨[e], by simp⟩
  fatal := by simp
  bus := by simp

theorem passes_delay (s : State) (t : Nat) : Passes s (s.delay t) where
  cfg := rfl
  ctrl := rfl
  pc := rfl
  inbox := rfl
  keep _ h := h
  tr := ⟨[.delay t], rfl⟩
  fatal := rfl
  bus := id

/-- An error other than a transport failure sets no `FATAL` (R207 to R211). -/
theorem stops_takeError (s : State) (e : Err) (he : e ≠ .transportFailure) : Stops s (s.takeError e) where
  cfg := by simp
  ctrl := by simp
  pc := by simp
  inbox := by simp
  keep a h := by simpa using h
  tr := ⟨[], by simp⟩
  fatal hs ht := by simp [hs, he] at ht

/-! ## The shared operations -/

theorem orderly_transaction (m : Level) (l : List Byte) (s : State) : Orderly s (transaction m l s) := by
  rcases transaction_cases m l s with ⟨_, hr⟩ | ⟨hb, hr⟩ <;> rw [hr]
  · exact { cfg := rfl, ctrl := rfl, pc := rfl, inbox := rfl, keep := fun _ h => h, tr := ⟨_, rfl⟩, fatal := rfl
            bus := by cases hbus : s.bus <;> simp [State.busAfter, busDrop, hbus] }
  · have hbus : s.bus ≠ none := by intro h0; simp [State.busFails, h0] at hb
    exact { cfg := rfl, ctrl := rfl, pc := rfl, inbox := rfl, keep := fun _ h => h, tr := ⟨_, rfl⟩
            fatal := fun _ _ => ⟨rfl, rfl, hbus⟩ }

theorem orderly_cmd (c : Byte) (s : State) : Orderly s (sendCommand c s) := orderly_transaction _ _ s

theorem orderly_dat (l : List Byte) (s : State) : Orderly s (sendData l s) := by
  rw [sendData]
  split
  · trivial
  · exact (passes_registers s s.x s.ti s.tlen _ s.dt s.tx s.cs s.dc s.rst).orderly (orderly_transaction 1 l _)

theorem orderly_wire (c : Byte) (l : List Byte) (s : State) : Orderly s (sendWire c l s) :=
  (orderly_cmd c s).bind (orderly_dat l)

theorem orderly_all (ls : List (List Byte)) (s : State) : Orderly s (sendAll ls s) := by
  induction ls generalizing s with
  | nil => exact passes_refl s
  | cons l ls ih => exact (orderly_dat l s).bind ih

theorem orderly_burst (s : State) : Orderly s (burst s) := by
  rw [burst]
  split
  · trivial
  · exact orderly_all _ s

theorem orderly_window (x0 y0 x1 y1 : Byte) (s : State) : Orderly s (setWindow x0 y0 x1 y1 s) := by
  rw [setWindow]
  refine (passes_registers s (windowRegs s.cfg x0 y0 x1 y1) s.ti s.tlen s.bi s.dt s.tx s.cs s.dc s.rst).orderly ?_
  split
  · exact stops_takeError _ _ (by decide)
  · exact (orderly_wire _ _ _).bind fun t => (orderly_wire _ _ t).bind (orderly_cmd _)

theorem orderly_swap (dst src : Space) (n : Nat) (s : State) : Orderly s (swapBytes dst src n s) := by
  rw [swapBytes]
  split
  · exact stops_takeError s _ (by decide)
  · split
    · trivial
    · next l _ =>
      have hreg := fun t : State => passes_registers t t.x (BitVec.ofNat 18 (2 * (n / 2))) (BitVec.ofNat 18 n) t.bi t.dt
      cases dst with
      | fb => exact (passes_writeFb s (swapPairs l)).trans (hreg _ _ _ _ _)
      | tx => exact hreg s (s.tx.writeBytes 0 (swapPairs l)) _ _ _

theorem orderly_present (s : State) : Orderly s (presentBody s) :=
  (orderly_window _ _ _ _ s).bind fun t => (orderly_swap _ _ _ t).bind orderly_burst

theorem orderly_perform (e : RomEntry) (s : State) : Orderly s (perform e s) := by
  cases e with
  | rstAssert | rstDeassert => exact passes_emit s _
  | delay p => exact passes_delay s _
  | cmd o => exact orderly_cmd _ s
  | data p => exact orderly_dat _ s
  | clearFb => exact passes_writeFb s _
  | presentBody => exact orderly_present s
  | stop => exact passes_refl s

theorem orderly_presentRequest (s : State) : Orderly s (presentRequest s) := by
  rw [presentRequest]
  split
  · exact orderly_present s
  · exact stops_takeError s _ (by decide)

/-- The value of `SEQ_PC` that an operation leaves. -/
def Result.seqPc : Result → BitVec 6
  | .done t => t.seqPc
  | .raised t => t.seqPc
  | _ => 0

/-- The state with another value of `SEQ_PC`. -/
def State.setPc (s : State) (p : BitVec 6) : State := { s with seqPc := p }

theorem runRom_next (e : RomEntry) (r : List RomEntry) (s : State) (h : e ≠ .stop) :
    runRom (e :: r) s = (perform e s).bind fun u => runRom r (u.setPc (u.seqPc + 1)) := runRom_cons e r s h

theorem Passes.setPc {s t : State} (h : Passes s t) (p : BitVec 6) : Passes (s.setPc p) (t.setPc p) :=
  { h with pc := rfl }

theorem Stops.setPc {s t : State} (h : Stops s t) : Stops (s.setPc t.seqPc) t := { h with pc := rfl }

/-- The ROM loop is orderly but for `SEQ_PC`, which it advances (R157, R162). -/
theorem orderly_runRom (es : List RomEntry) (s : State) :
    Orderly (s.setPc (runRom es s).seqPc) (runRom es s) := by
  induction es generalizing s with
  | nil => exact passes_refl s
  | cons e es ih =>
    by_cases he : e = .stop
    · subst he; exact passes_refl s
    · have hp := orderly_perform e s
      rw [runRom_next _ _ _ he]
      cases hr : perform e s with
      | done u => rw [hr] at hp; exact (Passes.setPc hp _).orderly (ih (u.setPc (u.seqPc + 1)))
      | raised u => rw [hr] at hp; exact Stops.setPc hp
      | fault _ => trivial
      | refused _ => trivial

end Sys2Proof.Machine
end

section
/-! What an operation of a healthy state does: the loop over the ROM, and that it can only fail by the bus. -/

namespace Sys2Proof.Machine

theorem Completes.trans {s t u : State} (h : Completes s t) (g : Completes t u) : Completes s u :=
  { h.toExtends.trans g.toExtends, g.toHealthy with
    rst := g.rst.trans h.rst, err := g.err.trans h.err, busy := g.busy.trans h.busy, bus := fun hb => h.bus (g.bus hb) }

theorem Completes.trans_fails {s t u : State} (h : Completes s t) (g : Fails t u) : Fails s u :=
  { h.toExtends.trans g.toExtends, g with
    how := g.how.imp (fun ⟨hf, he, hp, hb⟩ => ⟨hf, he, hp, h.bus hb⟩)
      (fun ⟨hf, he, hd, hc, hr, hp⟩ => ⟨hf, he, hd, hc, hr.trans h.rst, hp⟩) }

theorem Completes.lawful {s t : State} {r : Result} (h : Completes s t) (hr : Lawful t r) : Lawful s r := by
  cases r with
  | done u => exact h.trans hr
  | raised u => exact h.trans_fails hr
  | fault _ => trivial
  | refused _ => trivial

theorem Extends.fbFull {s t : State} (h : Extends s t) (hs : s.fbFull) : t.fbFull := fun a ha =>
  h.keep a (hs a (by rwa [h.cfg] at ha))

theorem lawful_presentRequest (s : State) (h : Healthy s) : Lawful s (presentRequest s) := by
  rw [presentRequest]
  split
  · exact lawful_present s h
  · exact { h, stops_takeError s .notReady (by decide) with
            busy := rfl, how := .inr ⟨h.fatal, Err.noConfusion, Err.noConfusion, h.cs, rfl, h.fr⟩ }

/-! ## The ROM after the reset line is released -/

/-- The entries that drive the reset line. -/
def RomEntry.drivesReset : RomEntry → Bool
  | .rstAssert | .rstDeassert => true
  | _ => false

theorem Healthy.setPc {s : State} (h : Healthy s) (p : BitVec 6) : Healthy (s.setPc p) := { h with }

theorem completes_refl {s : State} (h : Healthy s) : Completes s s :=
  { (passes_refl s).toExtends, h with rst := rfl, err := rfl, busy := rfl, bus := id }

theorem Completes.setPc {s t : State} (h : Completes s t) (p : BitVec 6) : Completes (s.setPc p) (t.setPc p) :=
  { h with pc := rfl }

theorem Fails.setPc {s t : State} (h : Fails s t) : Fails (s.setPc t.seqPc) t := { h with pc := rfl }

/-- A stretch of the ROM that leaves the reset line alone is lawful but for `SEQ_PC`. -/
theorem lawful_runRom (es : List RomEntry) (hes : ∀ e ∈ es, e.drivesReset = false) (s : State) (h : Healthy s) :
    Lawful (s.setPc (runRom es s).seqPc) (runRom es s) := by
  induction es generalizing s with
  | nil => exact completes_refl h
  | cons e es ih =>
    by_cases he : e = .stop
    · subst he; exact completes_refl h
    · have hde := hes e List.mem_cons_self
      have hp := lawful_perform e s h (by rintro rfl; cases hde) (by rintro rfl; cases hde)
      rw [runRom_next _ _ _ he]
      cases hr : perform e s with
      | done u =>
        rw [hr] at hp
        have hu : Completes s u := hp
        exact (hu.setPc _).lawful
          (ih (fun e' he' => hes e' (List.mem_cons_of_mem _ he')) (u.setPc (u.seqPc + 1)) (hu.toHealthy.setPc _))
      | raised u => rw [hr] at hp; exact Fails.setPc hp
      | fault _ => trivial
      | refused _ => trivial

/-- Entries 0 to 2: the reset line is asserted for a delay and released. -/
def romHead : List RomEntry := rom.take 3

/-- Entries 3 to 36; entry 37 stops the loop. -/
def romTail : List RomEntry := (rom.drop 3).take 34

theorem romTail_keepsReset : ∀ e ∈ romTail ++ [.stop], e.drivesReset = false := by decide

/-- The state after entries 0 to 2. -/
def State.afterReset (s : State) : State :=
  { s with
    rst := .deasserted, dt := 0, seqPc := s.seqPc + 3
    tr := s.tr ++ [.rst .asserted, .delay s.cfg.tRstAssert, .rst .deasserted] }

theorem foldl_romHead (s : State) : romHead.foldl romApply s = s.afterReset := by
  rw [foldl_romApply romHead s (by decide)]
  simp only [show (romHead.map romTransactions).sum = 0 from rfl, busDrop_zero]
  rfl

/-- Entries 0 to 2 need nothing of the bus. -/
theorem runRom_rom {s : State} (hc : s.cfg.ok = true) :
    runRom rom s = runRom (romTail ++ [.stop]) s.afterReset := by
  rw [show rom = romHead ++ (romTail ++ [.stop]) from rfl, runRom_plain hc (by decide) (busAllows_zero _),
    foldl_romHead]

theorem Healthy.afterReset {s : State} (h : Healthy s) : Healthy s.afterReset :=
  { h with dt := rfl, fr := by rw [State.afterReset, Phase.after_append, h.fr]; rfl }

/-- `SEQ_PC` names the entry at which the loop ends, by an error (R162) or at the entry that stops it. -/
theorem runRom_pcRange (es : List RomEntry) (s : State) (h : s.seqPc.toNat + es.length ≤ 37) :
    (runRom (es ++ [.stop]) s).seqPc.toNat ≤ 37 := by
  induction es generalizing s with
  | nil => exact h
  | cons e es ih =>
    rw [List.length_cons] at h
    by_cases he : e = .stop
    · subst he; show s.seqPc.toNat ≤ 37; omega
    · rw [List.cons_append, runRom_next _ _ _ he]
      have hp := orderly_perform e s
      cases hr : perform e s with
      | done u =>
        rw [hr] at hp
        have hpc : u.seqPc = s.seqPc := Extends.pc (Passes.toExtends hp)
        refine ih _ ?_
        have hone : (1 : BitVec 6).toNat = 1 := rfl
        simp only [State.setPc, hpc, BitVec.toNat_add, hone]
        omega
      | raised u =>
        rw [hr] at hp
        have hpc : u.seqPc = s.seqPc := Extends.pc (Stops.toExtends hp)
        show u.seqPc.toNat ≤ 37
        rw [hpc]; omega
      | fault _ => exact Nat.zero_le _
      | refused _ => exact Nat.zero_le _

/-- After the clearing (R165) every byte of `FB` holds a value. -/
theorem fbFull_clearFb (s : State) : (clearFb s).fbFull := by
  have hr := readBytes_writeBytes_zero s.fb s.cfg.nbytes
  intro a ha
  simpa using (Memory.readBytes_isSome _ 0 _).1 (by rw [clearFb, hr]; rfl) a ha

/-- A stretch of the ROM that clears `FB` ends with every byte of it holding a value. -/
theorem runRom_fbFull {es : List RomEntry} (hc : .clearFb ∈ es) {s t : State} (hs : .stop ∉ es)
    (ht : runRom (es ++ [.stop]) s = .done t) : t.fbFull := by
  induction es generalizing s with
  | nil => cases hc
  | cons e es ih =>
    have he : e ≠ .stop := by rintro rfl; exact hs List.mem_cons_self
    rw [List.cons_append, runRom_next _ _ _ he] at ht
    by_cases hce : e = .clearFb
    · subst hce
      rw [perform, Result.bind_done] at ht
      have ho := orderly_runRom (es ++ [.stop]) ((clearFb s).setPc ((clearFb s).seqPc + 1))
      rw [ht] at ho
      exact (Passes.toExtends ho).fbFull (fbFull_clearFb s)
    · cases hr : perform e s with
      | done u =>
        rw [hr, Result.bind_done] at ht
        exact ih ((List.mem_cons.1 hc).resolve_left fun h => hce h.symm) (fun h => hs (List.mem_cons_of_mem _ h)) ht
      | raised u => rw [hr] at ht; cases ht
      | fault _ => rw [hr] at ht; cases ht
      | refused _ => rw [hr] at ht; cases ht

/-! ## INIT can only fail by the bus -/

/-- An error that was raised is a transport failure. -/
def BusOnly : Result → Prop
  | .raised t => t.fatal = true
  | _ => True

theorem BusOnly.bind {r : Result} {k : State → Result} (h : BusOnly r) (hk : ∀ t, r = .done t → BusOnly (k t)) :
    BusOnly (r.bind k) := by
  cases r with
  | done t => exact hk t rfl
  | raised t => exact h
  | fault _ => trivial
  | refused _ => trivial

theorem busOnly_transaction (m : Level) (l : List Byte) (s : State) : BusOnly (transaction m l s) := by
  rcases transaction_cases m l s with ⟨_, hr⟩ | ⟨_, hr⟩ <;> rw [hr]
  · trivial
  · rfl

theorem busOnly_dat (l : List Byte) (s : State) : BusOnly (sendData l s) := by
  rw [sendData]
  split
  · trivial
  · exact busOnly_transaction _ _ _

theorem busOnly_txs (as : List Tx) (s : State) : BusOnly (runTxs as s) := by
  induction as generalizing s with
  | nil => trivial
  | cons a as ih =>
    refine BusOnly.bind ?_ fun t _ => ih t
    cases a with
    | cmd c => exact busOnly_transaction _ _ _
    | dat l => exact busOnly_dat _ _

theorem setWindow_inRange {x0 y0 x1 y1 : Byte} {s : State} (h : (windowRegs s.cfg x0 y0 x1 y1).outOfRange = false) :
    setWindow x0 y0 x1 y1 s = sendWindow { s with x := windowRegs s.cfg x0 y0 x1 y1 } :=
  if_neg (by simp [h])

/-- The full-screen window is in range and the exchange is of the whole frame, so neither raises (R113, R147). -/
theorem busOnly_present {s : State} (hc : s.cfg.ok = true) : BusOnly (presentBody s) := by
  rw [presentBody]
  refine BusOnly.bind ?_ fun t _ => BusOnly.bind ?_ fun u _ => ?_
  · rw [setWindow_inRange (fullWindow_inRange hc), sendWindow_eq]
    exact busOnly_txs _ _
  · rw [swapBytes, if_neg (by simp)]
    split <;> trivial
  · rw [burst]
    split
    · trivial
    · rw [sendAll_eq]; exact busOnly_txs _ _

theorem busOnly_perform (e : RomEntry) {s : State} (hc : s.cfg.ok = true) : BusOnly (perform e s) := by
  cases e with
  | cmd o => exact busOnly_transaction _ _ s
  | data p => exact busOnly_dat _ s
  | presentBody => exact busOnly_present hc
  | rstAssert | rstDeassert | delay | clearFb | stop => trivial

theorem busOnly_runRom (es : List RomEntry) {s : State} (hc : s.cfg.ok = true) : BusOnly (runRom es s) := by
  induction es generalizing s with
  | nil => trivial
  | cons e es ih =>
    by_cases he : e = .stop
    · subst he; trivial
    · rw [runRom_next _ _ _ he]
      refine (busOnly_perform e hc).bind fun t ht => ih ?_
      have ho := orderly_perform e s
      rw [ht] at ho
      exact (congrArg Cfg.ok (Extends.cfg (Passes.toExtends ho))).trans hc

end Sys2Proof.Machine
end

section
/-! What a step can come to, said once: the operations by how they are run, then the actions. -/

namespace Sys2Proof.Machine

theorem runAlone_next {op : State → Result} {s t : State} (h : runAlone op s = .next t) :
    (s.fatal = true ∧ t = s.takeError .dead) ∨ (s.fatal = false ∧ (op s = .done t ∨ op s = .raised t)) := by
  rw [runAlone] at h
  split at h
  · next hf => cases h; exact .inl ⟨hf, rfl⟩
  · next hf =>
    refine .inr ⟨by simpa using hf, ?_⟩
    cases hr : op s <;> rw [hr] at h <;> cases h <;> simp

theorem request_next {body : State → Result} {s t : State} (h : request body s = .next t) :
    (s.fatal = true ∧ t = s.takeError .dead) ∨
    (s.fatal = false ∧ ((∃ u, body s.accept = .done u ∧ t = u.finish) ∨ body s.accept = .raised t)) := by
  rw [request] at h
  split at h
  · cases h
  · split at h
    · next hf => cases h; exact .inl ⟨hf, rfl⟩
    · next hf =>
      refine .inr ⟨by simpa using hf, ?_⟩
      cases hr : body s.accept <;> rw [hr] at h <;> cases h <;> simp

/-- The state in which INIT begins its sequence (R157). -/
def State.enterInit (s : State) : State := { s.accept with ctrl := .initializing, seqPc := 0 }

/-- The state in which INIT ends it (R157). -/
def State.leaveInit (s : State) : State := { s with ctrl := .ready, err := .none, busy := false }

theorem execInit_next {s t : State} (h : execInit s = .next t) :
    (s.fatal = true ∧ t = s.takeError .dead) ∨
    (s.fatal = false ∧ ((∃ u, runRom rom s.enterInit = .done u ∧ t = u.leaveInit) ∨
      runRom rom s.enterInit = .raised t)) := by
  refine (request_next h).imp id (And.imp_right ?_)
  rw [initBody, show ({ s.accept with ctrl := .initializing, seqPc := 0 } : State) = s.enterInit from rfl]
  cases hr : runRom rom s.enterInit with
  | done u => rintro (⟨v, hv, rfl⟩ | hv) <;> cases hv; exact .inl ⟨u, rfl, rfl⟩
  | raised u => rintro (⟨v, hv, rfl⟩ | hv) <;> cases hv; exact .inr rfl
  | fault _ => rintro (⟨v, hv, rfl⟩ | hv) <;> cases hv
  | refused _ => rintro (⟨v, hv, rfl⟩ | hv) <;> cases hv

/-- The laws of an operation, in any state and in a healthy one. -/
structure Sound (s : State) (r : Result) : Prop where
  orderly : Orderly s r
  lawful : Healthy s → Lawful s r

theorem Sound.bind {s : State} {r : Result} {k : State → Result} (h : Sound s r) (hk : ∀ t, Sound t (k t)) :
    Sound s (r.bind k) where
  orderly := h.orderly.bind fun t => (hk t).orderly
  lawful hs := (h.lawful hs).bind fun t ht => (hk t).lawful ht.toHealthy

/-- An operation that is refused under a condition. -/
theorem Sound.guard {s : State} {r : Result} (p : Prop) [Decidable p] (x : Refusal) (h : Sound s r) :
    Sound s (if p then .refused x else r) := by
  split
  · exact ⟨trivial, fun _ => trivial⟩
  · exact h

theorem sound_cmd (c : Byte) (s : State) : Sound s (sendCommand c s) := ⟨orderly_cmd c s, lawful_cmd c s⟩

theorem sound_wire (c : Byte) (l : List Byte) (s : State) : Sound s (sendWire c l s) :=
  ⟨orderly_wire c l s, lawful_wire c l s⟩

theorem sound_delay (n : Nat) (s : State) : Sound s (.done (s.delay n)) := ⟨passes_delay s n, lawful_delay n⟩

/-- Every operation but the two requests is run alone, by a sound operation. -/
theorem exec_alone (i : Instr) (s : State) (h1 : i ≠ .init) (h2 : i ≠ .present) :
    ∃ op, exec i s = runAlone op s ∧ Sound s (op s) := by
  cases i with
  | init => exact (h1 rfl).elim
  | present => exact (h2 rfl).elim
  | swreset =>
    rw [exec, execSwreset]
    exact ⟨_, rfl, (sound_cmd _ s).bind fun t => sound_delay _ t⟩
  | slpout =>
    rw [exec, execSlpout]
    exact ⟨_, rfl, (sound_cmd _ s).bind fun t => sound_delay _ t⟩
  | noron | invoff | dispon | sendCommand => exact ⟨_, rfl, sound_cmd _ s⟩
  | caset | raset | madctl | colmod | frmctr1 | frmctr2 | frmctr3 | invctr | pwctr1 | pwctr2 | pwctr3 | pwctr4
  | pwctr5 | vmctr1 => exact ⟨_, rfl, sound_wire _ _ s⟩
  | ramwr =>
    rw [exec, execRamwr]
    exact ⟨_, rfl, .guard _ _ <| .guard _ _ <| .guard _ _ <|
      (sound_cmd _ s).bind fun t => ⟨orderly_burst t, lawful_burst t⟩⟩
  | sendData l =>
    rw [exec, execSendData]
    exact ⟨_, rfl, .guard _ _ <| .guard _ _ ⟨orderly_dat l s, lawful_dat l s⟩⟩
  | setWindow x0 y0 x1 y1 => exact ⟨_, rfl, orderly_window _ _ _ _ s, lawful_window _ _ _ _ s⟩
  | swapBytes dst src n => exact ⟨_, rfl, orderly_swap _ _ _ s, lawful_swap _ _ _ s⟩

/-- What one action can come to. -/
inductive ComesTo (s : State) : State → Prop
  /-- A drawing primitive (R125), or one pixel (R43). -/
  | draws (d : Draw) : ComesTo s (draw d s)
  /-- The word that `FbRead` returns (R44). -/
  | reads (v : Colour) : ComesTo s { s with readData := some v }
  /-- A request that a failed block answers with `Dead` (R211). -/
  | dead (hf : s.fatal = true) : ComesTo s (s.takeError .dead)
  /-- A code that is no request (R209). -/
  | illegal (hf : s.fatal = false) : ComesTo s (s.takeError .illegalRequest)
  /-- An operation that is executed. -/
  | runs (i : Instr) (t : State) (h : exec i s = .next t) : ComesTo s t

theorem handshake_next {code : BitVec 4} {s t : State} (h : handshake code s = .next t) : ComesTo s t := by
  rw [handshake] at h
  split at h
  · cases h
  · split at h
    · next hf => cases h; exact .dead hf
    · next hf =>
      split at h
      · exact .runs _ t h
      · cases h; exact .illegal (by simpa using hf)

theorem fbRead_next {x y : Int} {s t : State} (h : fbRead x y s = .next t) : ComesTo s t := by
  rw [fbRead] at h
  split at h
  · split at h
    · cases h; exact .reads _
    · cases h
  · cases h

theorem act_next {a : Action} {s t : State} (h : act a s = .next t) : ComesTo s t := by
  cases a with
  | request code => exact handshake_next h
  | draw d =>
    rw [act] at h
    split at h
    · cases h
    · cases h; exact .draws d
  | fbWrite x y c =>
    rw [act] at h
    split at h
    · cases h
    · cases h; exact .draws (.pixel x y c)
  | fbRead x y =>
    rw [act] at h
    split at h
    · cases h
    · exact fbRead_next h
  | dispatch f bytes =>
    rw [act, dispatchBytes] at h
    split at h
    · exact .runs _ t h
    · cases h

/-- A step that answers a next state: nothing was pending, or the oldest action came to it. -/
theorem step_next {s t : State} (h : step s = .next t) : t = s ∨ ∃ r, ComesTo { s with inbox := r } t := by
  rw [step] at h
  split at h
  · rw [nextAction] at h
    split at h
    · cases h; exact .inl rfl
    · next a r _ => exact .inr ⟨r, act_next h⟩
  · cases h

end Sys2Proof.Machine
end

section
/-! What every operation and every step keeps (R11, R12, R27, R35, R102). -/

namespace Sys2Proof.Machine

theorem Passes.stops {s t : State} (h : Passes s t) : Stops s t :=
  { h with fatal := fun hs ht => absurd (h.fatal.symm.trans ht) (by simp [hs]) }

theorem runAlone_stops {op : State → Result} {s t : State} (ho : Orderly s (op s)) (h : runAlone op s = .next t) :
    Stops s t := by
  rcases runAlone_next h with ⟨_, rfl⟩ | ⟨_, hr | hr⟩
  · exact stops_takeError s _ (by decide)
  · rw [hr] at ho; exact Passes.stops ho
  · rw [hr] at ho; exact ho

/-- Taking a request and ending it write `ERR` and `BUSY` alone (R156). -/
theorem Passes.finish {s t : State} (h : Passes s.accept t) : Passes s t.finish := { h with }

theorem request_stops {body : State → Result} {s t : State} (ho : Orderly s.accept (body s.accept))
    (h : request body s = .next t) : Stops s t := by
  rcases request_next h with ⟨_, rfl⟩ | ⟨_, ⟨u, hr, rfl⟩ | hr⟩
  · exact stops_takeError s _ (by decide)
  · rw [hr] at ho; exact (Passes.finish ho).stops
  · rw [hr] at ho; exact { (show Stops s.accept t from ho) with }

/-- What an operation other than INIT does, in any state. -/
theorem exec_stops {i : Instr} {s t : State} (hi : i ≠ .init) (h : exec i s = .next t) : Stops s t := by
  by_cases hp : i = .present
  · subst hp; exact request_stops (orderly_presentRequest _) h
  · obtain ⟨op, hop, hs⟩ := exec_alone i s hi hp
    exact runAlone_stops hs.orderly (hop ▸ h)

/-- What INIT does, in any state: it writes `STATE` and `SEQ_PC` besides. -/
theorem execInit_stops {s t : State} (h : execInit s = .next t) :
    Stops { s with ctrl := t.ctrl, seqPc := t.seqPc } t ∧ (s.fatal = false → t.ctrl ≠ .uninitialized) := by
  have ho := orderly_runRom rom s.enterInit
  rcases execInit_next h with ⟨hf, rfl⟩ | ⟨_, ⟨u, hr, rfl⟩ | hr⟩
  · exact ⟨{ stops_takeError s .dead (by decide) with ctrl := rfl, pc := rfl }, by simp [hf]⟩
  · rw [hr] at ho
    have hu : Passes (s.enterInit.setPc u.seqPc) u := ho
    exact ⟨Passes.stops { hu with ctrl := rfl, pc := rfl }, fun _ => Ctrl.noConfusion⟩
  · rw [hr] at ho
    have ht : Stops (s.enterInit.setPc t.seqPc) t := ho
    exact ⟨{ ht with ctrl := rfl, pc := rfl }, fun _ => ht.ctrl ▸ Ctrl.noConfusion⟩

/-- Settles O27: a failing transaction sets FATAL, and no other update of an operation does. -/
theorem onlyTransportFailureSetsFatal : Obligations.OnlyTransportFailureSetsFatal := by
  intro i s t hs h ht
  by_cases hi : i = .init
  · subst hi; exact (execInit_stops h).1.fatal hs ht
  · exact (exec_stops hi h).fatal hs ht

theorem passes_draw (d : Draw) (s : State) : Passes s (draw d s) := by
  obtain ⟨_, _, hp⟩ := paints_draw s.cfg d
  rw [draw_frame d s]
  exact passes_fb s _ fun a => hp.keeps s a rfl

theorem Stops.writesCtrl {s t : State} (h : Stops s t) : Stops { s with ctrl := t.ctrl, seqPc := t.seqPc } t :=
  { h with ctrl := rfl, pc := rfl }

/-- What an action does, in any state: only `STATE` and `SEQ_PC` are written besides what every operation writes. -/
theorem ComesTo.stops {s t : State} (h : ComesTo s t) : Stops { s with ctrl := t.ctrl, seqPc := t.seqPc } t := by
  cases h with
  | draws d => exact (passes_draw d s).stops.writesCtrl
  | reads v => exact { passes_refl s with fatal := (passes_refl s).stops.fatal }
  | dead _ => exact (stops_takeError s _ (by decide)).writesCtrl
  | illegal _ => exact (stops_takeError s _ (by decide)).writesCtrl
  | runs i _ h =>
    by_cases hi : i = .init
    · subst hi; exact (execInit_stops h).1
    · exact (exec_stops hi h).writesCtrl

/-- Settles O57: no action writes CFG, and every one of them appends to the trace. -/
theorem stepKeepsConfigurationAndPastTrace : Obligations.StepKeepsConfigurationAndPastTrace := by
  intro s t h
  rcases step_next h with rfl | ⟨r, hc⟩
  · exact ⟨rfl, [], by simp⟩
  · exact ⟨hc.stops.cfg, hc.stops.tr⟩

/-- Of the ways in which an operation can end, a failed block has the first (R211). -/
theorem eq_dead_of_fatal {s t : State} {p : Prop} (hf : s.fatal = true)
    (h : (s.fatal = true ∧ t = s.takeError .dead) ∨ (s.fatal = false ∧ p)) : t = s.takeError .dead := by
  rcases h with ⟨_, ht⟩ | ⟨hn, _⟩
  · exact ht
  · simp [hf] at hn

theorem exec_of_fatal {i : Instr} {s t : State} (hf : s.fatal = true) (h : exec i s = .next t) :
    t = s.takeError .dead := by
  by_cases hi : i = .init
  · subst hi; exact eq_dead_of_fatal hf (request_next h)
  · by_cases hp : i = .present
    · subst hp; exact eq_dead_of_fatal hf (request_next h)
    · obtain ⟨op, hop, _⟩ := exec_alone i s hi hp
      exact eq_dead_of_fatal hf (runAlone_next (hop ▸ h))

/-- What an action can come to after a fatal error: it draws, reads back, or is answered with `Dead`. -/
theorem ComesTo.of_fatal {s t : State} (h : ComesTo s t) (hf : s.fatal = true) :
    t = { s with fb := t.fb, readData := t.readData, err := t.err } := by
  cases h with
  | draws d => rw [draw_frame d s]
  | reads v => rfl
  | dead _ => rfl
  | illegal hn => simp [hf] at hn
  | runs i _ h => rw [exec_of_fatal hf h]; rfl

/-- Settles O58: after a fatal error an action writes FB, the word read back and ERR at most. -/
theorem fatalIsFinal : Obligations.FatalIsFinal := by
  intro s t hf h
  rcases step_next h with rfl | ⟨r, hc⟩
  · exact ⟨hf, rfl, rfl, rfl, rfl, rfl⟩
  · rw [hc.of_fatal hf]
    exact ⟨hf, rfl, rfl, rfl, rfl, rfl⟩

/-- No action returns `STATE` to Uninitialized (R11). -/
theorem ComesTo.uninitialized {s t : State} (h : ComesTo s t) (ht : t.ctrl = .uninitialized) :
    s.ctrl = .uninitialized := by
  by_cases hf : s.fatal = true
  · rw [h.of_fatal hf] at ht; exact ht
  cases h with
  | draws d => exact (passes_draw d s).ctrl ▸ ht
  | reads v => exact ht
  | dead hn => exact (hf hn).elim
  | illegal _ => exact ht
  | runs i _ h =>
    by_cases hi : i = .init
    · subst hi; exact ((execInit_stops h).2 (by simpa using hf) ht).elim
    · exact (exec_stops hi h).ctrl ▸ ht

/-- Settles O59: every operation but INIT runs under a law that keeps STATE, and INIT leaves Initializing or Ready. -/
theorem onlyInitWritesTheControllerState : Obligations.OnlyInitWritesTheControllerState := by
  refine ⟨fun i s t hi h => (exec_stops hi h).ctrl, fun s t h ht => ?_⟩
  rcases step_next h with rfl | ⟨r, hc⟩
  · exact ht
  · exact hc.uninitialized ht

end Sys2Proof.Machine
end

section
/-! The invariant: it holds after construction, and every step keeps it (R20, R22, R23, R25, R103, R161, R240). -/

namespace Sys2Proof.Machine

theorem State.Inv.healthy {s : State} (h : s.Inv) (hf : s.fatal = false) : Healthy s where
  ok := h.cfgOk
  fatal := hf
  dt := h.timerIdle
  cs := h.csIdle hf
  fbWf := h.fbWf
  txWf := h.txWf
  fbW := h.fbWithin
  txW := h.txWithin
  fr := by rw [h.framed, hf]; rfl

theorem State.Inv.not_initializing {s : State} (h : s.Inv) (hf : s.fatal = false) : s.ctrl ≠ .initializing :=
  fun hc => by simp [h.initializingFatal hc] at hf

theorem State.Inv.err_of_not_fatal {s : State} (h : s.Inv) (hf : s.fatal = false) :
    ¬(s.err = .transportFailure ∨ s.err = .dead) :=
  fun he => by simp [h.fatalErr.2 he] at hf

/-- `ERR` takes a value that goes with `FATAL`. -/
theorem State.Inv.withErr {s : State} (h : s.Inv) {e : Err}
    (he : s.fatal = true ↔ (e = .transportFailure ∨ e = .dead)) : ({ s with err := e } : State).Inv :=
  { h with fatalErr := he }

/-- A healthy state between two host actions. -/
theorem Healthy.inv {s : State} (h : Healthy s) (hb : s.busy = false) (hc : s.ctrl ≠ .initializing)
    (he : ¬(s.err = .transportFailure ∨ s.err = .dead)) (hr : s.rst = .deasserted) (hp : s.seqPc.toNat ≤ 37)
    (hfull : s.ctrl = .ready → s.fbFull) : s.Inv where
  cfgOk := h.ok
  notBusy := hb
  initializingFatal hi := (hc hi).elim
  fatalErr := by simp [h.fatal, he]
  csIdle _ := h.cs
  rstIdle _ := hr
  timerIdle := h.dt
  pcRange := hp
  fbWf := h.fbWf
  txWf := h.txWf
  fbWithin := h.fbW
  txWithin := h.txW
  readyFull := hfull
  framed := by rw [h.fr, h.fatal]; rfl

/-- A state that an error left. -/
theorem Fails.inv {s t : State} (h : Fails s t) (hok : s.cfg.ok = true) (hr : s.rst = .deasserted)
    (hp : t.seqPc.toNat ≤ 37) (hc : t.ctrl = .initializing → t.fatal = true)
    (hfull : t.ctrl = .ready → t.fbFull) : t.Inv := by
  have hok' : t.cfg.ok = true := (congrArg Cfg.ok h.cfg).trans hok
  have hpins : (t.fatal = true ↔ (t.err = .transportFailure ∨ t.err = .dead)) ∧ (t.fatal = false → t.cs = 1) ∧
      (t.fatal = false → t.rst = .deasserted) ∧
      Phase.idle.after t.tr = some (if t.fatal then .opened else .idle) := by
    rcases h.how with ⟨hf, he, hfr, _⟩ | ⟨hf, he, hd, hcs, hrst, hfr⟩
    · simp [hf, he, hfr]
    · simp [hf, he, hd, hcs, hrst.trans hr, hfr]
  obtain ⟨herr, hcs, hrst, hfr⟩ := hpins
  exact { cfgOk := hok', notBusy := h.busy, initializingFatal := hc, fatalErr := herr, csIdle := hcs, rstIdle := hrst
          timerIdle := h.dt, pcRange := hp, fbWf := h.fbWf, txWf := h.txWf, fbWithin := h.fbW, txWithin := h.txW
          readyFull := hfull, framed := hfr }

/-! ## Operations -/

/-- An operation that runs to its end. -/
theorem State.Inv.completes {s t : State} (h : s.Inv) (hf : s.fatal = false) (hc : Completes s t) : t.Inv :=
  hc.toHealthy.inv (hc.busy.trans h.notBusy) (hc.ctrl ▸ h.not_initializing hf) (hc.err ▸ h.err_of_not_fatal hf)
    (hc.rst.trans (h.rstIdle hf)) (hc.pc ▸ h.pcRange) fun hr => hc.fbFull (h.readyFull (hc.ctrl ▸ hr))

/-- An operation that raises an error. -/
theorem State.Inv.fails {s t : State} (h : s.Inv) (hf : s.fatal = false) (ht : Fails s t) : t.Inv :=
  ht.inv h.cfgOk (h.rstIdle hf) (ht.pc ▸ h.pcRange) (fun hi => (h.not_initializing hf (ht.ctrl ▸ hi)).elim)
    fun hr => ht.fbFull (h.readyFull (ht.ctrl ▸ hr))

theorem State.Inv.takeError_dead {s : State} (h : s.Inv) (hf : s.fatal = true) : (s.takeError .dead).Inv :=
  h.withErr (by simp [hf])

theorem runAlone_keeps_inv {s t : State} {op : State → Result} (h : s.Inv) (hl : Healthy s → Lawful s (op s))
    (hr : runAlone op s = .next t) : t.Inv := by
  rcases runAlone_next hr with ⟨hf, rfl⟩ | ⟨hf, hop | hop⟩
  · exact h.takeError_dead hf
  · have hc := hl (h.healthy hf); rw [hop] at hc; exact h.completes hf hc
  · have hc := hl (h.healthy hf); rw [hop] at hc; exact h.fails hf hc

theorem Healthy.accept {s : State} (h : Healthy s) : Healthy s.accept := { h with }

theorem execPresent_keeps_inv {s t : State} (h : s.Inv) (hr : execPresent s = .next t) : t.Inv := by
  rcases request_next hr with ⟨hf, rfl⟩ | ⟨hf, ⟨u, hu, rfl⟩ | hu⟩
  · exact h.takeError_dead hf
  · have hc := lawful_presentRequest _ (h.healthy hf).accept
    rw [hu] at hc
    have hc : Completes s.accept u := hc
    have hidle : Completes s { u with busy := false } := { hc with busy := h.notBusy.symm }
    have hfu : u.fatal = false := hc.fatal
    exact (h.completes hf hidle).withErr (e := .none) (by simp [hfu])
  · have hc := lawful_presentRequest _ (h.healthy hf).accept
    rw [hu] at hc
    exact h.fails hf { (show Fails s.accept t from hc) with }

theorem Healthy.enterInit {s : State} (h : Healthy s) : Healthy s.enterInit := { h with }

/-- INIT ends in Ready with a full `FB`, or in Initializing with `FATAL` set (R161, R240). -/
theorem execInit_keeps_inv {s t : State} (h : s.Inv) (hr : execInit s = .next t) : t.Inv := by
  rcases execInit_next hr with ⟨hf, rfl⟩ | ⟨hf, hrun⟩
  · exact h.takeError_dead hf
  have hh : Healthy s.enterInit.afterReset := (h.healthy hf).enterInit.afterReset
  have hl := lawful_runRom _ romTail_keepsReset _ hh
  have hp : (runRom (romTail ++ [.stop]) s.enterInit.afterReset).seqPc.toNat ≤ 37 :=
    runRom_pcRange romTail s.enterInit.afterReset (by show 3 + 34 ≤ 37; omega)
  have hb := busOnly_runRom (romTail ++ [.stop]) hh.ok
  rw [runRom_rom (s := s.enterInit) h.cfgOk] at hrun
  rcases hrun with ⟨u, hu, rfl⟩ | ht
  · have hfull : u.fbFull := runRom_fbFull (by decide) (by decide) hu
    rw [hu] at hl hp
    have hc : Completes _ u := hl
    have hrst : u.rst = .deasserted := hc.rst
    have hleave : Healthy u.leaveInit := { hc.toHealthy with }
    exact hleave.inv rfl Ctrl.noConfusion (by simp [State.leaveInit]) hrst hp fun _ => hfull
  · rw [ht] at hl hp hb
    have hc : Fails _ t := hl
    have hctrl : t.ctrl = .initializing := hc.ctrl
    exact hc.inv h.cfgOk rfl hp (fun _ => hb) (by simp [hctrl])

theorem exec_keeps_inv {i : Instr} {s t : State} (h : s.Inv) (hr : exec i s = .next t) : t.Inv := by
  by_cases hi : i = .init
  · subst hi; exact execInit_keeps_inv h hr
  · by_cases hp : i = .present
    · subst hp; exact execPresent_keeps_inv h hr
    · obtain ⟨op, hop, hs⟩ := exec_alone i s hi hp
      exact runAlone_keeps_inv h hs.lawful (hop ▸ hr)

/-! ## Actions -/

theorem draw_keeps_inv {s : State} (h : s.Inv) (d : Draw) : (draw d s).Inv := by
  obtain ⟨_, _, hp⟩ := paints_draw s.cfg d
  have hwf := hp.wf s rfl h.fbWf
  have hwithin := hp.within s rfl h.fbWithin
  have hfull := fun hr => (passes_draw d s).fbFull (h.readyFull hr)
  rw [draw_frame d s] at hfull ⊢
  exact { h with fbWf := hwf, fbWithin := hwithin, readyFull := hfull }

theorem ComesTo.inv {s t : State} (hc : ComesTo s t) (h : s.Inv) : t.Inv := by
  cases hc with
  | draws d => exact draw_keeps_inv h d
  | reads v => exact { h with }
  | dead hf => exact h.takeError_dead hf
  | illegal hf => exact h.withErr (e := .illegalRequest) (by simp [hf])
  | runs i _ hr => exact exec_keeps_inv h hr

/-- Settles O56: what is pending is no part of the invariant, and every outcome of an action keeps it. -/
theorem stepKeepsTheInvariant : Obligations.StepKeepsTheInvariant := by
  intro s t h hs
  rcases step_next hs with rfl | ⟨r, hc⟩
  · exact h
  · exact hc.inv { h with }

/-- A block that is not yet asked for anything meets the invariant (R36, R239). -/
theorem inv_construct {c : Cfg} (hc : c.ok = true) : (State.construct c).Inv :=
  Healthy.inv
    { ok := hc, fatal := rfl, dt := rfl, cs := rfl, fbWf := List.Pairwise.nil, txWf := List.Pairwise.nil
      fbW := fun _ h => (nomatch h), txW := fun _ h => (nomatch h), fr := rfl }
    rfl Ctrl.noConfusion (by simp [State.construct]) rfl (by simp [State.construct]) Ctrl.noConfusion

/-- Settles O55: the memories are empty, the trace is empty, and STATE is Uninitialized. -/
theorem constructionMeetsTheInvariant : Obligations.ConstructionMeetsTheInvariant :=
  ⟨inv_construct (by decide), fun _ => inv_construct⟩

end Sys2Proof.Machine
end

section
/-! The host's access to the frame buffer, and the byte order of `FB` and `TX` (20_memory.md R41 to R48, R57). -/

namespace Sys2Proof.Machine

/-! ## The host's actions on an idle instance (R46) -/

theorem step_of_pending {s : State} {a : Action} {r : List Action} (hc : s.cfg.ok = true) (hi : s.inbox = a :: r) :
    step s = act a { s with inbox := r } := by
  rw [step_of_cfg_ok hc, nextAction, hi]

theorem act_draw {s : State} (hb : s.busy = false) (d : Draw) : act (.draw d) s = .next (draw d s) := by
  simp [act, hb]

theorem act_fbWrite {s : State} (hb : s.busy = false) (x y : Int) (c : Colour) :
    act (.fbWrite x y c) s = .next (fbWrite x y c s) := by
  simp [act, hb]

theorem act_fbRead {s : State} (hb : s.busy = false) (x y : Int) : act (.fbRead x y) s = fbRead x y s := by
  simp [act, hb]

theorem step_fbWrite {s : State} {x y : Int} {c : Colour} {r : List Action} (hc : s.cfg.ok = true)
    (hb : s.busy = false) (hi : s.inbox = .fbWrite x y c :: r) :
    step s = .next (fbWrite x y c { s with inbox := r }) := by
  rw [step_of_pending hc hi, act_fbWrite]
  exact hb

theorem step_fbRead {s : State} {x y : Int} {r : List Action} (hc : s.cfg.ok = true) (hb : s.busy = false)
    (hi : s.inbox = .fbRead x y :: r) : step s = fbRead x y { s with inbox := r } := by
  rw [step_of_pending hc hi, act_fbRead]
  exact hb

/-! ## On and off the screen (R43) -/

theorem onScreen_of_lt {c : Cfg} {px py : Nat} (hx : px < c.lw) (hy : py < c.lh) : onScreen c px py = true :=
  (onScreen_iff c px py).2 (by omega)

theorem onScreen_of_outside {c : Cfg} {x y : Int} (h : x < 0 ∨ y < 0 ∨ (c.lw : Int) ≤ x ∨ (c.lh : Int) ≤ y) :
    onScreen c x y = false := by
  rw [← Bool.not_eq_true, onScreen_iff]
  omega

theorem fbWrite_inside {s : State} {px py : Nat} (c : Colour) (hx : px < s.cfg.lw) (hy : py < s.cfg.lh) :
    fbWrite px py c s = { s with fb := s.fb.writeWord (pixelOffset s.cfg px py) c } := by
  simp [fbWrite, onScreen_of_lt hx hy]

theorem fbWrite_outside {s : State} {x y : Int} (c : Colour) (h : onScreen s.cfg x y = false) :
    fbWrite x y c s = s := by
  simp [fbWrite, h]

theorem fbRead_value {s : State} {px py : Nat} {v : Colour} (hx : px < s.cfg.lw) (hy : py < s.cfg.lh)
    (hv : s.fb.readWord (pixelOffset s.cfg px py) = some v) :
    fbRead px py s = .next { s with readData := some v } := by
  simp [fbRead, onScreen_of_lt hx hy, hv]

theorem fbRead_unwritten {s : State} {px py : Nat} (hx : px < s.cfg.lw) (hy : py < s.cfg.lh)
    (hv : s.fb.readWord (pixelOffset s.cfg px py) = none) : fbRead px py s = .fault (.unwritten .fb) := by
  simp [fbRead, onScreen_of_lt hx hy, hv]

theorem fbRead_outside {s : State} {x y : Int} (h : onScreen s.cfg x y = false) :
    fbRead x y s = .refused .readOutside := by
  simp [fbRead, h]

/-- A read that answers writes the word read back alone (R57). -/
theorem fbRead_frame {x y : Int} {s t : State} (h : fbRead x y s = .next t) :
    ∃ v, t = { s with readData := some v } := by
  rw [fbRead] at h
  split at h
  · split at h
    · next v _ => cases h; exact ⟨v, rfl⟩
    · cases h
  · cases h

/-! ## Words and their bytes (R42, R45, R48) -/

theorem Memory.readWord_of_read {m : Memory} {a : Nat} {lo hi : Byte} (hlo : m.read a = some lo)
    (hhi : m.read (a + 1) = some hi) : m.readWord a = some (hi ++ lo) := by
  simp [Memory.readWord, hlo, hhi]

theorem Memory.readWord_eq_none {m : Memory} {a : Nat} (h : m.read a = none ∨ m.read (a + 1) = none) :
    m.readWord a = none := by
  rcases h with h | h
  · simp [Memory.readWord, h]
  · cases hlo : m.read a <;> simp [Memory.readWord, h, hlo]

/-- R45: the word is the low byte plus 256 times the high byte. -/
theorem append_eq_ofNat (hi lo : Byte) : (hi ++ lo : BitVec 16) = BitVec.ofNat 16 (lo.toNat + 256 * hi.toNat) := by
  have hsum : (hi ++ lo : BitVec 16).toNat = 2 ^ 8 * hi.toNat + lo.toNat := by
    rw [BitVec.toNat_append, Nat.shiftLeft_eq, Nat.mul_comm, Nat.two_pow_add_eq_or_of_lt lo.isLt]
  have hlo := lo.isLt
  have hhi := hi.isLt
  refine BitVec.eq_of_toNat_eq ?_
  rw [hsum, BitVec.toNat_ofNat]
  omega

/-- What `SWAP_BYTES` leaves at a whole pair of bytes: the source's pair, exchanged (R146). -/
theorem Memory.read_writeBytes_swapPairs (m : Memory) {src : Memory} {n k : Nat} {l : List Byte}
    (hl : src.readBytes 0 n = some l) (hk : k < n / 2) :
    (m.writeBytes 0 (swapPairs l)).read (2 * k) = src.read (2 * k + 1) ∧
      (m.writeBytes 0 (swapPairs l)).read (2 * k + 1) = src.read (2 * k) := by
  have hlen := Memory.length_readBytes hl
  have hswap := swapPairs_length l
  obtain ⟨heven, hodd⟩ := swapPairs_getElem l k (by omega)
  constructor
  · rw [Memory.read_writeBytes, if_pos (by omega), Nat.sub_zero, heven, Memory.getElem_readBytes hl _ (by omega),
      Nat.zero_add]
  · rw [Memory.read_writeBytes, if_pos (by omega), Nat.sub_zero, hodd, Memory.getElem_readBytes hl _ (by omega),
      Nat.zero_add]

/-! ## The transcoding of the whole frame (R48, R164) -/

/-- The block's own use of `SWAP_BYTES`, on an `FB` without an unwritten byte: `TX` receives the exchanged pairs. -/
theorem exec_swapBytes_whole {s : State} {l : List Byte} (hf : s.fatal = false) (hc : s.cfg.ok = true)
    (hl : s.fb.readBytes 0 s.cfg.nbytes = some l) :
    exec (.swapBytes .tx .fb (BitVec.ofNat 18 s.cfg.nbytes)) s = .next { s with
      tx := s.tx.writeBytes 0 (swapPairs l), tlen := BitVec.ofNat 18 s.cfg.nbytes
      ti := BitVec.ofNat 18 s.cfg.nbytes } := by
  have hle := cfg_nbytes_le hc
  have hn : (BitVec.ofNat 18 s.cfg.nbytes).toNat = s.cfg.nbytes := by
    rw [BitVec.toNat_ofNat]; omega
  have heven : 2 * (s.cfg.nbytes / 2) = s.cfg.nbytes := by simp only [Cfg.nbytes]; omega
  have hswap := swapBytes_ok (s := s) (dst := .tx) (src := .fb) (l := l) (by decide) le_rfl (by rw [heven]; exact hl)
  rw [heven] at hswap
  show runAlone (swapBytes .tx .fb (BitVec.ofNat 18 s.cfg.nbytes).toNat) s = _
  rw [hn]
  exact runAlone_ok hf hswap

/-- Settles O34: the swap exchanges the bytes of every pair of FB, and FB holds every word low byte first. -/
theorem transmitBufferIsBigEndian : Obligations.TransmitBufferIsBigEndian := by
  intro s hf hc hfull
  obtain ⟨l, hl⟩ := readBytes_of_fbFull hfull
  refine ⟨_, exec_swapBytes_whole hf hc hl, fun k c hk hw => ?_⟩
  obtain ⟨hlo, hhi⟩ := Memory.read_of_readWord hw
  obtain ⟨heven, hodd⟩ := Memory.read_writeBytes_swapPairs s.tx hl (k := k) (by simp only [Cfg.nbytes]; omega)
  exact ⟨heven.trans hhi, hodd.trans hlo⟩

/-! ## FbWrite and FbRead (R43, R44) -/

/-- Settles O45: on the screen FbWrite is one word stored at the pixel's offset, off the screen it is no store. -/
theorem fbWriteStoresOnePixel : Obligations.FbWriteStoresOnePixel := by
  intro s x y c r hc hb hi
  rw [step_fbWrite hc hb hi]
  refine ⟨?_, fun hout => congrArg _ (fbWrite_outside c (onScreen_of_outside hout))⟩
  rintro px py rfl rfl hx hy
  obtain ⟨hlo, hhi⟩ := Memory.read_of_readWord (Memory.readWord_writeWord_same s.fb (pixelOffset s.cfg px py) c)
  exact ⟨_, congrArg _ (fbWrite_inside c hx hy), pixelOffset_lt hx hy, hlo, hhi,
    fun a => Memory.read_writeWord_other s.fb _ a c⟩

/-- Settles O46: FbRead on the screen, with and without a value in both bytes of the pixel, and off the screen. -/
theorem fbReadReturnsThePixel : Obligations.FbReadReturnsThePixel := by
  intro s x y r hc hb hi
  rw [step_fbRead hc hb hi]
  refine ⟨?_, ?_, fun hout => fbRead_outside (onScreen_of_outside hout)⟩
  · rintro px py lo hi rfl rfl hx hy hlo hhi
    rw [← append_eq_ofNat]
    exact fbRead_value hx hy (Memory.readWord_of_read hlo hhi)
  · rintro px py rfl rfl hx hy hnone
    exact fbRead_unwritten hx hy (Memory.readWord_eq_none hnone)

/-! ## The frame of drawing and reading back (R57, R135) -/

/-- To change nothing but `FB` and the word read back, it is enough to change them to some values. -/
theorem eq_of_frame {s t : State} {m : Memory} {v : Option Colour} (h : t = { s with fb := m, readData := v }) :
    t = { s with fb := t.fb, readData := t.readData } := by
  subst h; rfl

/-- Drawing, FbWrite and FbRead change `FB` and the word read back alone (R57, R135). -/
theorem act_silent {a : Action} {s t : State} (hd : ∀ f bytes, a ≠ .dispatch f bytes) (hq : ∀ code, a ≠ .request code)
    (h : act a s = .next t) : t = { s with fb := t.fb, readData := t.readData } := by
  rcases Bool.eq_false_or_eq_true s.busy with hb | hb
  · rw [act_of_busy hb hd] at h; cases h
  · cases a with
    | request code => exact (hq code rfl).elim
    | draw d =>
      rw [act_draw hb] at h; cases h
      exact eq_of_frame (v := s.readData) (draw_frame d s)
    | fbWrite x y c =>
      rw [act_fbWrite hb] at h; cases h
      exact eq_of_frame (v := s.readData) (draw_frame (.pixel x y c) s)
    | fbRead x y =>
      rw [act_fbRead hb] at h
      obtain ⟨v, ht⟩ := fbRead_frame h
      exact eq_of_frame (m := s.fb) ht
    | dispatch f bytes => exact (hd f bytes rfl).elim

/-- Settles O60: the step is the pending action, and an action that is no request and no dispatch is silent. -/
theorem drawingAndReadingBackAreSilent : Obligations.DrawingAndReadingBackAreSilent := by
  intro s t a r hi hd hq h
  cases hc : s.cfg.ok with
  | false => rw [step_of_cfg_not_ok hc] at h; cases h
  | true => rw [step_of_pending hc hi] at h; exact act_silent hd hq h

end Sys2Proof.Machine
end

section
/-! The two code spaces: decoding and encoding are inverse to each other (30_encoding.md R74, R82 to R84, R72). -/

namespace Sys2Proof

/-! ## Operand fields -/

theorem readBE24_bytes {n : Nat} (h : n < 2 ^ 24) :
    readBE24 (BitVec.ofNat 8 (n / 65536)) (BitVec.ofNat 8 (n / 256)) (BitVec.ofNat 8 n) = n := by
  simp only [readBE24, BitVec.toNat_ofNat]
  omega

theorem bytesBE24_readBE24 (a b c : Byte) : bytesBE24 (readBE24 a b c) = [a, b, c] := by
  have ha : BitVec.ofNat 8 (readBE24 a b c / 65536) = a := by
    simp only [readBE24]
    bv_omega
  have hb : BitVec.ofNat 8 (readBE24 a b c / 256) = b := by
    simp only [readBE24]
    bv_omega
  have hc : BitVec.ofNat 8 (readBE24 a b c) = c := by
    simp only [readBE24]
    bv_omega
  rw [bytesBE24, ha, hb, hc]

theorem decodeSpaces_eq_some_iff {b : Byte} {dst src : Space} :
    decodeSpaces b = some (dst, src) ↔ b = spacesByte dst src := by
  constructor
  · intro h
    simp only [decodeSpaces] at h
    split_ifs at h with h0 h1 h2 h3 <;> cases h <;> assumption
  · rintro rfl
    cases dst <;> cases src <;> rfl

theorem decodeSendCommand_ok_iff {r rest : List Byte} {i : Instr} :
    decodeSendCommand r = .ok i rest ↔ ∃ c, i = .sendCommand c ∧ r = c :: rest := by
  constructor
  · intro h
    cases r with
    | nil => cases h
    | cons c r => cases h; exact ⟨c, rfl, rfl⟩
  · rintro ⟨c, rfl, rfl⟩
    rfl

theorem decodeSetWindow_ok_iff {r rest : List Byte} {i : Instr} :
    decodeSetWindow r = .ok i rest ↔
      ∃ x0 y0 x1 y1, i = .setWindow x0 y0 x1 y1 ∧ r = x0 :: y0 :: x1 :: y1 :: rest := by
  constructor
  · intro h
    rw [decodeSetWindow.eq_def] at h
    split at h
    · next x0 y0 x1 y1 r => cases h; exact ⟨x0, y0, x1, y1, rfl, rfl⟩
    · cases h
  · rintro ⟨x0, y0, x1, y1, rfl, rfl⟩
    rfl

theorem wf_sendData_iff (s : List Byte) : (Instr.sendData s).wf = true ↔ 1 ≤ s.length ∧ s.length < 2 ^ 18 := by
  simp [Instr.wf]

theorem decodeSendData_ok_iff {r rest : List Byte} {i : Instr} :
    decodeSendData r = .ok i rest ↔
      ∃ s, i = .sendData s ∧ i.wf = true ∧ r = bytesBE24 (s.length - 1) ++ s ++ rest := by
  constructor
  · intro h
    rw [decodeSendData.eq_def] at h
    split at h
    · next l2 l1 l0 r =>
      split_ifs at h with hbound hlen
      cases h
      have htake : (r.take (readBE24 l2 l1 l0 + 1)).length = readBE24 l2 l1 l0 + 1 := by
        rw [List.length_take]; omega
      refine ⟨_, rfl, (wf_sendData_iff _).2 (by omega), ?_⟩
      rw [htake, Nat.add_sub_cancel, bytesBE24_readBE24, List.append_assoc, List.take_append_drop]
      rfl
    · cases h
  · rintro ⟨s, rfl, hwf, rfl⟩
    obtain ⟨hpos, hlt⟩ := (wf_sendData_iff s).1 hwf
    have hread := readBE24_bytes (n := s.length - 1) (by omega)
    rw [bytesBE24]
    simp only [List.cons_append, List.nil_append, decodeSendData, hread, Nat.sub_add_cancel hpos]
    rw [if_neg (by omega), if_neg (by simp), List.take_left, List.drop_left]

theorem decodeSwapBytes_ok_iff {r rest : List Byte} {i : Instr} :
    decodeSwapBytes r = .ok i rest ↔
      ∃ dst src n, i = .swapBytes dst src n ∧ r = spacesByte dst src :: bytesBE24 n.toNat ++ rest := by
  constructor
  · intro h
    rw [decodeSwapBytes.eq_def] at h
    split at h
    · next sp n2 n1 n0 r =>
      split at h
      · cases h
      · next dst src hsp =>
        split_ifs at h with hbound
        cases h
        have hn : (BitVec.ofNat 18 (readBE24 n2 n1 n0)).toNat = readBE24 n2 n1 n0 := by
          rw [BitVec.toNat_ofNat]; omega
        refine ⟨dst, src, _, rfl, ?_⟩
        rw [hn, bytesBE24_readBE24, decodeSpaces_eq_some_iff.1 hsp]
        rfl
    · cases h
  · rintro ⟨dst, src, n, rfl, rfl⟩
    have hn := n.isLt
    have hread := readBE24_bytes (n := n.toNat) (by omega)
    rw [bytesBE24]
    simp only [List.cons_append, List.nil_append, decodeSwapBytes, decodeSpaces_eq_some_iff.2 rfl, hread]
    rw [if_neg (by omega), BitVec.ofNat_toNat, BitVec.setWidth_eq]

/-! ## The two tables -/

/-- R74: the rows of the opcode map are the wire commands under their codes. -/
theorem mem_wireTable_iff {b : Byte} {i : Instr} : (b, i) ∈ wireTable ↔ i.format = .wire ∧ i.code = b := by
  constructor
  · have hrows : ∀ row ∈ wireTable, row.2.format = .wire ∧ row.2.code = row.1 := by decide
    exact hrows (b, i)
  · rintro ⟨hf, rfl⟩
    cases i with
    | init | present | sendCommand | sendData | setWindow | swapBytes => cases hf
    | _ => decide

/-- R74, R84: the opcode map read as a function. -/
theorem decodeWire_eq_some_iff {b : Byte} {i : Instr} : decodeWire b = some i ↔ i.format = .wire ∧ i.code = b := by
  rw [← mem_wireTable_iff]
  constructor
  · intro h
    obtain ⟨row, hrow, rfl⟩ := Option.map_eq_some_iff.1 h
    have hb : row.1 = b := by simpa using List.find?_some hrow
    exact hb ▸ List.mem_of_find?_eq_some hrow
  · have hrows : ∀ row ∈ wireTable, decodeWire row.1 = some row.2 := by decide
    exact hrows (b, i)

/-- R82, R83: what the request decoder gives is an operation of its code space, under its own code, with its operands
in front of the rest. -/
theorem decodeReq_ok_iff {code : Byte} {r rest : List Byte} {i : Instr} :
    decodeReq code r = .ok i rest ↔
      i.wf = true ∧ i.format = .req ∧ code = i.code ∧ r = i.operandBytes ++ rest := by
  constructor
  · intro h
    rw [decodeReq] at h
    split_ifs at h with h1 h2 hC hD hE hF
    · cases h; exact ⟨rfl, rfl, h1, rfl⟩
    · cases h; exact ⟨rfl, rfl, h2, rfl⟩
    · obtain ⟨c, rfl, rfl⟩ := decodeSendCommand_ok_iff.1 h
      exact ⟨rfl, rfl, hC, rfl⟩
    · obtain ⟨s, rfl, hwf, rfl⟩ := decodeSendData_ok_iff.1 h
      exact ⟨hwf, rfl, hD, rfl⟩
    · obtain ⟨x0, y0, x1, y1, rfl, rfl⟩ := decodeSetWindow_ok_iff.1 h
      exact ⟨rfl, rfl, hE, rfl⟩
    · obtain ⟨dst, src, n, rfl, rfl⟩ := decodeSwapBytes_ok_iff.1 h
      exact ⟨rfl, rfl, hF, rfl⟩
  · rintro ⟨hwf, hf, rfl, rfl⟩
    cases i with
    | init | present | sendCommand | setWindow => rfl
    | sendData s => exact decodeSendData_ok_iff.2 ⟨s, rfl, hwf, rfl⟩
    | swapBytes dst src n => exact decodeSwapBytes_ok_iff.2 ⟨dst, src, n, rfl, rfl⟩
    | _ => cases hf

/-! ## The decoder and the encoder -/

theorem wf_of_format_wire {i : Instr} (h : i.format = .wire) : i.wf = true := by
  cases i with
  | sendData => cases h
  | _ => rfl

theorem operandBytes_of_format_wire {i : Instr} (h : i.format = .wire) : i.operandBytes = [] := by
  cases i with
  | sendCommand | sendData | setWindow | swapBytes => cases h
  | _ => rfl

/-- Decoding succeeds exactly on the encodings of the well-formed operations of its code space. -/
theorem decode_ok_iff {f : Format} {bytes rest : List Byte} {i : Instr} :
    decode f bytes = .ok i rest ↔ i.wf = true ∧ i.format = f ∧ bytes = encode i ++ rest := by
  cases bytes with
  | nil => cases f <;> simp [decode, encode]
  | cons b r =>
    rw [encode, List.cons_append, List.cons_eq_cons]
    cases f with
    | req => exact decodeReq_ok_iff
    | wire =>
      rw [decode]
      constructor
      · intro h
        split at h
        · next j hj =>
          cases h
          obtain ⟨hf, hcode⟩ := decodeWire_eq_some_iff.1 hj
          exact ⟨wf_of_format_wire hf, hf, hcode.symm, by rw [operandBytes_of_format_wire hf]; rfl⟩
        · cases h
      · rintro ⟨-, hf, rfl, rfl⟩
        rw [decodeWire_eq_some_iff.2 ⟨hf, rfl⟩, operandBytes_of_format_wire hf]
        rfl

/-- Settles O8: the encoding of a well-formed operation is among the strings that decode to it. -/
theorem decodeOfEncode : Obligations.DecodeOfEncode :=
  fun _ _ hwf => decode_ok_iff.2 ⟨hwf, rfl, rfl⟩

/-- Settles O9: no other string decodes to it. -/
theorem decodedBytesAreTheEncoding : Obligations.DecodedBytesAreTheEncoding :=
  fun _ _ _ _ => decode_ok_iff.1

/-- Settles O10: the words of R74 and R82, decoded one by one. -/
theorem tableWordsDecode : Obligations.TableWordsDecode := by
  unfold Obligations.TableWordsDecode
  decide

end Sys2Proof
end

section
/-! The MADCTL value (30_encoding.md R80, R9). -/

namespace Sys2Proof

/-- R80: the table's base, with the colour order in bit 3. -/
theorem Cfg.madctlVal_eq (c : Cfg) :
    c.madctlVal = c.madctlBase ||| (if c.colorOrder = .bgr then 0x08 else 0x00) := by
  cases h : c.colorOrder with
  | rgb => simp [Cfg.madctlVal, h]
  | bgr => simp [Cfg.madctlVal, h]

/-- R80: the base of an effective rotation. -/
def rotationBase (r : Nat) : Byte :=
  if r = 90 then 0x60 else if r = 180 then 0x00 else if r = 270 then 0xA0 else 0xC0

theorem Cfg.madctlBase_eq (c : Cfg) : c.madctlBase = rotationBase c.rotEff := rfl

/-- One row of R80: the base as it is for RGB, and with bit 3 set for BGR. -/
theorem Cfg.madctlVal_of_rotEff {c : Cfg} {r : Nat} (h : c.rotEff = r) :
    c.madctlVal = if c.colorOrder = .bgr then rotationBase r ||| 0x08 else rotationBase r := by
  rw [c.madctlVal_eq, c.madctlBase_eq, h]
  split
  · rfl
  · exact BitVec.or_zero

theorem Cfg.madctlVal_of_valid {c : Cfg} {r : Nat} (h : c.rotation = r)
    (hr : r = 0 ∨ r = 90 ∨ r = 180 ∨ r = 270) :
    c.madctlVal = if c.colorOrder = .bgr then rotationBase r ||| 0x08 else rotationBase r :=
  Cfg.madctlVal_of_rotEff ((Cfg.rotEff_of_valid (h ▸ hr)).trans h)

/-- Settles O4: every row of R80 is the row of the effective rotation. -/
theorem madctlLookupTable : Obligations.MadctlLookupTable := by
  refine fun c => ⟨fun h => ?_, fun h => ?_, fun h => ?_, fun h => ?_, fun h0 h90 h180 h270 => ?_, c.madctlVal_eq⟩
  · exact Cfg.madctlVal_of_valid h (by decide)
  · exact Cfg.madctlVal_of_valid h (by decide)
  · exact Cfg.madctlVal_of_valid h (by decide)
  · exact Cfg.madctlVal_of_valid h (by decide)
  · exact Cfg.madctlVal_of_rotEff (Cfg.rotEff_of_invalid (by omega))

end Sys2Proof
end

section
/-! The step runs the operation that the pending bytes decode to (30_encoding.md R82). -/

namespace Sys2Proof

theorem decodeTableWord_eq_some {nbits w : Nat} {i : Instr} (h : decodeTableWord nbits w = some i) :
    ∃ rest, decode (tableFormat nbits w) (tableBytes nbits w) = .ok i rest := by
  rw [decodeTableWord] at h
  split at h
  · next j rest hj => cases h; exact ⟨rest, hj⟩
  · cases h

namespace Machine

theorem dispatchBytes_of_decode {f : Format} {bytes rest : List Byte} {i : Instr} (h : decode f bytes = .ok i rest)
    (s : State) : dispatchBytes f bytes s = exec i s := by
  rw [dispatchBytes, h]

theorem step_dispatch {s : State} {f : Format} {bytes rest : List Byte} {i : Instr} {r : List Action}
    (hc : s.cfg.ok = true) (hi : s.inbox = .dispatch f bytes :: r) (h : decode f bytes = .ok i rest) :
    step s = exec i { s with inbox := r } :=
  (step_of_pending hc hi).trans (dispatchBytes_of_decode h _)

/-- Settles O11: placing a table word is pending its dispatch, and a dispatch decodes and executes. -/
theorem stepRunsDecodedInstruction : Obligations.StepRunsDecodedInstruction := by
  refine fun s hc => ⟨fun f bytes rest i r => step_dispatch hc, fun nbits w i h => ?_⟩
  obtain ⟨rest, hrest⟩ := decodeTableWord_eq_some h
  exact step_dispatch (s := s.withFetchWord nbits w) hc rfl hrest

end Machine

end Sys2Proof
end

section
/-! PRESENT sends the whole frame, pixel by pixel (30_encoding.md R77, 44_display_controller.md R163, R164). -/

namespace Sys2Proof.Machine

/-- R163, R164: PRESENT in Ready, with a full `FB` and on a bus that does not fail in it. -/
theorem exec_present_ok {s : State} {l : List Byte} (hc : s.cfg.ok = true) (hb : s.busy = false)
    (hf : s.fatal = false) (hr : s.ctrl = .ready) (hbus : s.busOk (5 + s.cfg.burstCount) = true)
    (hl : s.fb.readBytes 0 s.cfg.nbytes = some l) :
    exec .present s = .next { s with
      err := .none, busy := false, x := fullWindow s.cfg
      ti := BitVec.ofNat 18 s.cfg.nbytes, tlen := BitVec.ofNat 18 s.cfg.nbytes
      bi := BitVec.ofNat 18 s.cfg.lastChunk, tx := s.tx.writeBytes 0 (swapPairs l), cs := 1, dc := 1
      tr := s.tr ++ presentEvents s.cfg (swapPairs l), bus := s.busAfter (5 + s.cfg.burstCount) } := by
  have hbody : presentRequest s.accept = presentBody s.accept := if_pos hr
  exact request_ok hb hf (hbody.trans (presentBody_ok (s := s.accept) (n := 0) hc hl hbus))

/-- A byte string written from offset 0 on reads back byte by byte. -/
theorem Memory.read_writeBytes_zero (m : Memory) (l : List Byte) {a : Nat} (ha : a < l.length) :
    (m.writeBytes 0 l).read a = l[a]? := by
  rw [Memory.read_writeBytes, if_pos (by omega), Nat.sub_zero]

/-- R77: the more significant byte of a pixel of `FB` comes first in the transcoded frame. -/
theorem swapPairs_pixel {s : State} {l : List Byte} (hl : s.fb.readBytes 0 s.cfg.nbytes = some l) {x y : Nat}
    {c : Colour} (hx : x < s.cfg.lw) (hy : y < s.cfg.lh) (hp : s.pixel x y = some c) :
    (swapPairs l)[pixelOffset s.cfg x y]? = some (c.extractLsb' 8 8) ∧
      (swapPairs l)[pixelOffset s.cfg x y + 1]? = some (c.extractLsb' 0 8) := by
  have hlt := pixelOffset_lt hx hy
  have hlen := Memory.length_readBytes hl
  have hbyte : ∀ a, a < s.cfg.nbytes → l[a]? = s.fb.read a := fun a ha => by
    rw [Memory.getElem_readBytes hl a ha, Nat.zero_add]
  obtain ⟨hlo, hhi⟩ := Memory.read_of_readWord hp
  obtain ⟨hfirst, hsecond⟩ := swapPairs_getElem l (y * s.cfg.lw + x) (by rw [pixelOffset] at hlt; omega)
  exact ⟨hfirst.trans ((hbyte _ hlt).trans hhi), hsecond.trans ((hbyte _ (Nat.lt_of_succ_lt hlt)).trans hlo)⟩

/-- Settles O36: the burst of a present is the transcoded frame. -/
theorem presentSendsEveryPixelBigEndian : Obligations.PresentSendsEveryPixelBigEndian := by
  intro s hc hb hf hr hfull hbus
  obtain ⟨l, hl⟩ := readBytes_of_fbFull hfull
  have hlen := length_swapPairs_full hl
  refine ⟨_, swapPairs l, exec_present_ok hc hb hf hr hbus hl, rfl, ?_, hlen, dataBytes_burstEvents _ _, ?_,
    fun x y c => swapPairs_pixel hl⟩
  · rw [List.append_assoc]; rfl
  · exact fun a ha => Memory.read_writeBytes_zero s.tx (swapPairs l) (by rwa [hlen])

end Sys2Proof.Machine
end

section
/-! The command channel: SEND_COMMAND and SEND_DATA as one transaction each (40_command_channel.md R100 to R102), a
transport failure inside PRESENT (R163, R206), and the instance that met a fatal error (R211). -/

namespace Sys2Proof.Machine

/-! ## How an operation is run -/

/-- A micro-operation or wire command of an instance that met no fatal error ends as the operation does. -/
theorem runAlone_alive (op : State → Result) {s : State} (hf : s.fatal = false) :
    runAlone op s = (op s).toOutcome :=
  if_neg (by simp [hf])

/-- R163: PRESENT in Ready whose body raises an error ends with it. -/
theorem exec_present_raised {s t : State} (hb : s.busy = false) (hf : s.fatal = false) (hr : s.ctrl = .ready)
    (h : presentBody s.accept = .raised t) : exec .present s = .next t :=
  request_raised hb hf ((if_pos hr).trans h)

/-- R100: SEND_COMMAND is refused on no ground. -/
theorem exec_sendCommand {s : State} (c : Byte) (hf : s.fatal = false) :
    exec (.sendCommand c) s = (sendCommand c s).toOutcome :=
  runAlone_alive _ hf

/-- A string in no burst, or in one into an ordered window, does not meet R119. -/
theorem not_unorderedBurst {s : State} {l : List Byte} (ho : s.inBurst = false ∨ s.unordered = false) :
    ¬(l ≠ [] ∧ s.inBurst = true ∧ s.unordered = true) := by
  rintro ⟨-, hb, hu⟩
  simp [hb, hu] at ho

/-- R119: a burst after a window with unordered bounds (log 30). -/
theorem exec_sendData_unordered {s : State} {l : List Byte} (hf : s.fatal = false) (hl : l ≠ [])
    (hb : s.inBurst = true) (hu : s.unordered = true) : exec (.sendData l) s = .refused .unorderedWindow := by
  rw [exec, execSendData, runAlone_alive _ hf, if_pos ⟨hl, hb, hu⟩]
  rfl

/-- R247: a burst of another length than the window demands (log 31). -/
theorem exec_sendData_misfit {s : State} {l : List Byte} (hf : s.fatal = false) (hl : l ≠ [])
    (ho : s.inBurst = false ∨ s.unordered = false) (hm : s.burstFits l.length = false) :
    exec (.sendData l) s = .refused .burstLength := by
  rw [exec, execSendData, runAlone_alive _ hf, if_neg (not_unorderedBurst ho), if_pos ⟨hl, hm⟩]
  rfl

/-- R101: SEND_DATA of a string that no burst forbids. -/
theorem exec_sendData_fits {s : State} {l : List Byte} (hf : s.fatal = false)
    (ho : s.inBurst = false ∨ s.unordered = false) (hm : s.burstFits l.length = true) :
    exec (.sendData l) s = (sendData l s).toOutcome := by
  rw [exec, execSendData, runAlone_alive _ hf, if_neg (not_unorderedBurst ho), if_neg fun h => by simp [hm] at h]

/-- R72: a string of no byte is refused, in a burst or not. -/
theorem exec_sendData_nil {s : State} (hf : s.fatal = false) :
    exec (.sendData []) s = .refused .emptyData := by
  rw [exec, execSendData, runAlone_alive _ hf, if_neg fun h => h.1 rfl, if_neg fun h => h.1 rfl, sendData_nil]
  rfl

/-! ## The transaction that fails (R102, R206) -/

/-- What a transport failure leaves, the events `e` having gone out. -/
def State.failed (s : State) (e : List Event) : State :=
  ({ s with tr := s.tr ++ e } : State).takeError .transportFailure

/-- A transaction that the bus fails after `k` bytes. -/
theorem transaction_failed {s : State} {k : Nat} (m : Level) (l : List Byte) (h : s.bus = some ⟨0, k⟩) :
    transaction m l s = .raised (s.failed ([.cs 0, .dc m] ++ (l.take k).map .byte)) := by
  have hout : l.take (s.bytesOut l.length) = l.take k := by
    rw [State.bytesOut, h]
    exact (List.take_eq_take_min ..).symm
  rw [transaction_fail m l (by simp [State.busFails, h]), hout]
  rfl

theorem sendCommand_failed {s : State} {k : Nat} (c : Byte) (h : s.bus = some ⟨0, k⟩) :
    sendCommand c s = .raised (s.failed ([.cs 0, .dc 0] ++ ([c].take k).map .byte)) :=
  transaction_failed 0 [c] h

theorem sendData_failed {s : State} {k : Nat} {l : List Byte} (hl : l ≠ []) (h : s.bus = some ⟨0, k⟩) :
    sendData l s = .raised (({ s with bi := BitVec.ofNat 18 (min k l.length) } : State).failed
      ([.cs 0, .dc 1] ++ (l.take k).map .byte)) := by
  have hout : s.bytesOut l.length = min k l.length := by simp [State.bytesOut, h]
  rw [sendData, if_neg hl, hout]
  exact transaction_failed 1 l h

/-! ## The statements -/

/-- Settles O43: a present that the bus fails in raises the error inside its body, which `presentBody_fail` cuts. -/
theorem failureInsidePresent : Obligations.FailureInsidePresent := by
  intro s k j l hc hb hf hr hl hbus hk
  obtain ⟨t, ht, herr, hfatal, hbusy, hctrl, hrest⟩ := presentBody_fail (s := s.accept) hc hl k j hbus hk
  exact ⟨t, exec_present_raised hb hf hr ht, herr, hfatal, hbusy, hctrl.trans hr, hrest⟩

/-- Settles O24: the one transaction of SEND_COMMAND, on a bus that lets it through. -/
theorem sendCommandEvents : Obligations.SendCommandEvents := by
  intro s c hf hbus
  rw [exec_sendCommand c hf, sendCommand_ok (n := 0) c hbus]
  rfl

/-- Settles O25: the two refusals of a burst, the one transaction of SEND_DATA, and the refusal of R72. -/
theorem sendDataEvents : Obligations.SendDataEvents := by
  refine fun s hf => ⟨fun l hl => exec_sendData_unordered hf hl, fun l hl => exec_sendData_misfit hf hl,
    fun l hl ho hm hbus => ?_, exec_sendData_nil hf⟩
  rw [exec_sendData_fits hf ho hm, sendData_ok (n := 0) l hl hbus, datEvents]
  simp only [Result.toOutcome, List.append_assoc]

/-- Settles O26: the one transaction of SEND_COMMAND and of SEND_DATA, on a bus that fails it. -/
theorem failedTransactionIsFatal : Obligations.FailedTransactionIsFatal := by
  refine fun s k hf hbus => ⟨fun c => ?_, fun l hl ho hm => ?_⟩
  · rw [exec_sendCommand c hf, sendCommand_failed c hbus, List.append_assoc]
    rfl
  · rw [exec_sendData_fits hf ho hm, sendData_failed hl hbus, List.append_assoc]
    rfl

/-- Settles O28: a request is answered with `Dead` at its handshake, any other operation where it is run alone. -/
theorem deadInstanceRunsNothing : Obligations.DeadInstanceRunsNothing := by
  intro i s hf hb
  by_cases hinit : i = .init
  · subst hinit; exact request_dead initBody hb hf
  by_cases hpresent : i = .present
  · subst hpresent; exact request_dead presentRequest hb hf
  obtain ⟨op, hop, -⟩ := exec_alone i s hinit hpresent
  rw [hop, runAlone_dead op hf]

end Sys2Proof.Machine
end

section
/-! SET_WINDOW: the sums that its working registers hold, the bounds that it sends, and what may follow them
(41_address_window.md R112 to R115, R119, R120, R187, R247). -/

namespace Sys2Proof.Machine

/-! ## The sums (R112, R113) -/

/-- Nine bits hold the sum of two bytes. -/
theorem toNat_windowSum (a o : Byte) : (a.setWidth 9 + o.setWidth 9).toNat = a.toNat + o.toNat := by
  rw [BitVec.toNat_add, BitVec.toNat_setWidth, BitVec.toNat_setWidth]
  omega

theorem windowSum_eq_ofNat (a o : Byte) : a.setWidth 9 + o.setWidth 9 = BitVec.ofNat 9 (a.toNat + o.toNat) := by
  rw [← toNat_windowSum, BitVec.ofNat_toNat, BitVec.setWidth_eq]

/-- R112: the working registers as the numbers they hold. -/
theorem windowRegs_eq (c : Cfg) (x0 y0 x1 y1 : Byte) :
    windowRegs c x0 y0 x1 y1 = {
      wx0 := BitVec.ofNat 9 (x0.toNat + c.oxEff.toNat), wy0 := BitVec.ofNat 9 (y0.toNat + c.oyEff.toNat)
      wx1 := BitVec.ofNat 9 (x1.toNat + c.oxEff.toNat), wy1 := BitVec.ofNat 9 (y1.toNat + c.oyEff.toNat)
      ox := BitVec.ofNat 9 c.oxEff.toNat, oy := BitVec.ofNat 9 c.oyEff.toNat } := by
  simp only [windowRegs, windowSum_eq_ofNat, BitVec.ofNat_toNat]

/-- R113: what the range check asks of the four sums. -/
theorem windowRegs_outOfRange_iff (c : Cfg) (x0 y0 x1 y1 : Byte) :
    (windowRegs c x0 y0 x1 y1).outOfRange = true ↔
      255 < x0.toNat + c.oxEff.toNat ∨ 255 < x1.toNat + c.oxEff.toNat ∨
      255 < y0.toNat + c.oyEff.toNat ∨ 255 < y1.toNat + c.oyEff.toNat := by
  simp only [windowRegs, WinRegs.outOfRange, toNat_windowSum, Bool.or_eq_true, decide_eq_true_eq]
  omega

/-! ## SET_WINDOW run alone -/

theorem exec_setWindow_ok {s : State} {x0 y0 x1 y1 : Byte} (hf : s.fatal = false) (hbus : s.busOk 5 = true)
    (hr : (windowRegs s.cfg x0 y0 x1 y1).outOfRange = false) :
    exec (.setWindow x0 y0 x1 y1) s = .next { s with
      x := windowRegs s.cfg x0 y0 x1 y1, cs := 1, dc := 0, bi := 4
      tr := s.tr ++ windowEvents (windowRegs s.cfg x0 y0 x1 y1), bus := s.busAfter 5 } :=
  runAlone_ok hf (setWindow_ok (n := 0) x0 y0 x1 y1 hr hbus)

theorem exec_setWindow_range {s : State} {x0 y0 x1 y1 : Byte} (hf : s.fatal = false)
    (hr : (windowRegs s.cfg x0 y0 x1 y1).outOfRange = true) :
    exec (.setWindow x0 y0 x1 y1) s = .next { s with
      x := windowRegs s.cfg x0 y0 x1 y1, err := .windowRange, busy := false } :=
  runAlone_raised hf (setWindow_range x0 y0 x1 y1 hr)

/-- Settles O30: the range check finds the sum above 255, and the registers keep all four. -/
theorem windowOutOfRangeEmitsNothing : Obligations.WindowOutOfRangeEmitsNothing := by
  intro s x0 y0 x1 y1 hf hr
  rw [exec_setWindow_range hf ((windowRegs_outOfRange_iff s.cfg x0 y0 x1 y1).2 hr), windowRegs_eq]

/-! ## The bounds that are sent (R75, R76, R120) -/

/-- The low byte of a working register, as the payloads take it. -/
theorem windowSum_setWidth_eight (a o : Byte) :
    (a.setWidth 9 + o.setWidth 9).setWidth 8 = BitVec.ofNat 8 (a.toNat + o.toNat) := by
  rw [← toNat_windowSum, BitVec.ofNat_toNat]

theorem windowEvents_windowRegs (c : Cfg) (x0 y0 x1 y1 : Byte) :
    windowEvents (windowRegs c x0 y0 x1 y1) =
      wireEvents 0x2A [0x00, BitVec.ofNat 8 (x0.toNat + c.oxEff.toNat),
        0x00, BitVec.ofNat 8 (x1.toNat + c.oxEff.toNat)] ++
      wireEvents 0x2B [0x00, BitVec.ofNat 8 (y0.toNat + c.oyEff.toNat),
        0x00, BitVec.ofNat 8 (y1.toNat + c.oyEff.toNat)] ++
      cmdEvents 0x2C := by
  simp only [windowEvents, casetPayload, rasetPayload, windowRegs, windowSum_setWidth_eight]

/-- A sum in range is sent as it is (R75, R113). -/
theorem windowSum_mod_of_inRange {a o : Byte} (h : a.toNat + o.toNat ≤ 255) :
    (a.setWidth 9 + o.setWidth 9).toNat % 256 = a.toNat + o.toNat := by
  rw [toNat_windowSum, Nat.mod_eq_of_lt (by omega)]

/-! ## RAMWR run alone (R119, R187) -/

theorem exec_ramwr_unordered {s : State} (hf : s.fatal = false) (hu : s.unordered = true) :
    exec .ramwr s = .refused .unorderedWindow := by
  rw [exec, execRamwr, runAlone_alive _ hf, if_pos hu]
  rfl

theorem exec_ramwr_noWindow {s : State} (hf : s.fatal = false) (hu : s.unordered = false)
    (hw : s.afterWindow = false) : exec .ramwr s = .refused .noWindow := by
  rw [exec, execRamwr, runAlone_alive _ hf, if_neg (by simp [hu]), if_pos hw]
  rfl

/-! ## What may follow a window whose sums are in range -/

section
variable {t : State} {tr : List Event} {c : Cfg} {x0 y0 x1 y1 : Byte}
  (htr : t.tr = tr ++ windowEvents (windowRegs c x0 y0 x1 y1))
  (hx0 : x0.toNat + c.oxEff.toNat ≤ 255) (hx1 : x1.toNat + c.oxEff.toNat ≤ 255)
  (hy0 : y0.toNat + c.oyEff.toNat ≤ 255) (hy1 : y1.toNat + c.oyEff.toNat ≤ 255)
include htr hx0 hx1 hy0 hy1

/-- R119: the offsets do not change the order of the operands. -/
theorem unordered_after_setWindow : t.unordered = true ↔ x1 < x0 ∨ y1 < y0 := by
  rw [unordered_window htr]
  simp only [windowRegs, windowSum_mod_of_inRange hx0, windowSum_mod_of_inRange hx1, windowSum_mod_of_inRange hy0,
    windowSum_mod_of_inRange hy1, BitVec.lt_def, Nat.add_lt_add_iff_right]

/-- R115: the offsets do not change the size of the window. -/
theorem windowBytes_after_setWindow (hx : x0 ≤ x1) (hy : y0 ≤ y1) :
    t.windowBytes = some (2 * ((x1.toNat - x0.toNat + 1) * (y1.toNat - y0.toNat + 1))) := by
  rw [BitVec.le_def] at hx hy
  have hb := windowBytes_window htr
  simp only [windowRegs, windowSum_mod_of_inRange hx0, windowSum_mod_of_inRange hx1, windowSum_mod_of_inRange hy0,
    windowSum_mod_of_inRange hy1, Nat.add_le_add_iff_right, Nat.add_sub_add_right] at hb
  exact hb hx hy

end

/-- R247: directly after a window its whole burst fits in one data transaction, and nothing longer does. -/
theorem burstFits_after_window {s : State} {tr : List Event} {x : WinRegs} {m : Nat}
    (htr : s.tr = tr ++ windowEvents x) (hm : s.windowBytes = some m) :
    s.burstFits m = true ∧ ∀ n, m < n → s.burstFits n = false := by
  refine ⟨?_, fun n hn => ?_⟩
  · rw [burstFits_window htr hm]
    simp
  · have hne : n ≠ m := by omega
    have hle : ¬n ≤ m := by omega
    rw [burstFits_window htr hm, decide_eq_false hne, decide_eq_false hle, ite_self]

/-- Settles O29: the sums are in range, so that the window is sent, and what may follow it is read from its events. -/
theorem setWindowSendsCorrectedBounds : Obligations.SetWindowSendsCorrectedBounds := by
  intro s x0 y0 x1 y1 hf hbus hx0 hx1 hy0 hy1
  have hr : (windowRegs s.cfg x0 y0 x1 y1).outOfRange = false := by
    rw [← Bool.not_eq_true, windowRegs_outOfRange_iff]
    omega
  have hexec := exec_setWindow_ok hf hbus hr
  refine ⟨fun t ht => ?_, ?_⟩
  · obtain ⟨hft, htr⟩ : t.fatal = false ∧ t.tr = s.tr ++ windowEvents (windowRegs s.cfg x0 y0 x1 y1) := by
      cases hexec.symm.trans ht
      exact ⟨hf, rfl⟩
    refine ⟨fun ho => ?_, fun hx hy => ?_⟩
    · have hu := (unordered_after_setWindow htr hx0 hx1 hy0 hy1).2 ho
      exact ⟨exec_ramwr_unordered hft hu, fun l hl => exec_sendData_unordered hft hl (inBurst_window htr) hu⟩
    · have hw := windowBytes_after_setWindow htr hx0 hx1 hy0 hy1 hx hy
      have hu := (unordered_of_windowBytes hw).1
      exact ⟨hu, exec_ramwr_noWindow hft hu (afterWindow_window htr), hw, burstFits_after_window htr hw⟩
  · rw [hexec, windowEvents_windowRegs, windowRegs_eq]
    simp only [wireEvents, List.append_assoc]

end Sys2Proof.Machine
end

section
/-! The drawing primitives: which pixels each of them paints (42_framebuffer.md R125 to R132, R135, R136). -/

namespace Sys2Proof.Machine

/-! ## From what is painted to the pixels read back -/

namespace Paints

variable {cfg : Cfg} {op op' : State → State} {hit hit' : Nat → Nat → Prop} {c : Colour} {s : State} {px py : Nat}

/-- A pixel of the screen after a painting operation. -/
theorem pixel_eq (h : Paints cfg op hit c) (hs : s.cfg = cfg) (hx : px < cfg.lw) (hy : py < cfg.lh)
    [Decidable (hit px py)] : (op s).pixel px py = if hit px py then some c else s.pixel px py := by
  split
  · next hp => exact h.hits s px py hs hx hy hp
  · next hp => exact h.misses s px py hs hx hy hp

/-- Two operations that agree on whether they paint a pixel, and on the colour, leave the same there. -/
theorem pixel_congr (h : Paints cfg op hit c) (h' : Paints cfg op' hit' c) (hs : s.cfg = cfg) (hx : px < cfg.lw)
    (hy : py < cfg.lh) (hh : hit px py ↔ hit' px py) : (op s).pixel px py = (op' s).pixel px py := by
  by_cases hp : hit px py
  · rw [h.hits s px py hs hx hy hp, h'.hits s px py hs hx hy (hh.1 hp)]
  · rw [h.misses s px py hs hx hy hp, h'.misses s px py hs hx hy fun hp' => hp (hh.2 hp')]

end Paints

/-- Settles O47: the step is the primitive, and every primitive paints pixels of the screen and does nothing else. -/
theorem drawingChangesOnlyTheFrameBuffer : Obligations.DrawingChangesOnlyTheFrameBuffer := by
  intro s d r hc hb hi
  obtain ⟨_, _, hp⟩ := paints_draw s.cfg d
  refine ⟨(draw d { s with inbox := r }).fb, ?_, rfl, fun a ha => hp.beyond { s with inbox := r } a rfl ha⟩
  rw [step_of_pending hc hi, act_draw (by exact hb)]
  exact congrArg _ (draw_frame d { s with inbox := r })

/-- R41: every word of `FB` is a pixel of the screen. -/
theorem exists_pixel_of_word {cfg : Cfg} {k : Nat} (hk : k < cfg.npix) :
    ∃ px py, px < cfg.lw ∧ py < cfg.lh ∧ pixelOffset cfg px py = 2 * k := by
  rw [← cfg_lw_mul_lh] at hk
  have hlw : 0 < cfg.lw := Nat.pos_of_mul_pos_right (Nat.zero_lt_of_lt hk)
  refine ⟨k % cfg.lw, k / cfg.lw, Nat.mod_lt k hlw, Nat.div_lt_of_lt_mul hk, ?_⟩
  rw [pixelOffset, Nat.div_add_mod']

/-- Settles O48: every word of FB is a pixel of the screen, and fill paints them all. -/
theorem fillPaintsEveryPixel : Obligations.FillPaintsEveryPixel := by
  intro s c k hk
  obtain ⟨px, py, hx, hy, hoff⟩ := exists_pixel_of_word hk
  have hp := paints_fill s.cfg c
  have hread := hp.hits s px py rfl hx hy trivial
  rw [State.pixel, hp.cfgEq rfl, hoff] at hread
  exact Memory.read_of_readWord hread

/-- Settles O49: what FbWrite and its two loops paint. -/
theorem runsPaintTheirPixels : Obligations.RunsPaintTheirPixels := by
  intro s x y w c px py hx hy
  exact ⟨(paints_fbWrite s.cfg x y c).pixel_eq rfl hx hy, (paints_hline s.cfg x y w c).pixel_eq rfl hx hy,
    (paints_vline s.cfg x y w c).pixel_eq rfl hx hy⟩

/-- Settles O50: a run in every row. -/
theorem fillRectPaintsTheClippedRectangle : Obligations.FillRectPaintsTheClippedRectangle := by
  intro s x y w h c px py hx hy
  exact (paints_fillRect s.cfg x y w h c).pixel_eq rfl hx hy

/-- Settles O51: four runs, or nothing in the degenerate sizes. -/
theorem rectPaintsTheBorder : Obligations.RectPaintsTheBorder := by
  intro s x y w h c px py hx hy
  exact (paints_rect s.cfg x y w h c).pixel_eq rfl hx hy

/-- Settles O53: the characters in order, each with its set pixels. -/
theorem textPaintsTheSetPixels : Obligations.TextPaintsTheSetPixels := by
  intro s str x y c px py hx hy
  have hp := paints_text s.cfg str x y c
  refine ⟨hp.hits s px py rfl hx hy, fun hclear => hp.misses s px py rfl hx hy ?_⟩
  rintro ⟨k, ch, r, q, hch, hr, hq, hfont, hpos⟩
  exact hclear k ch r q hch hr hq hfont hpos

end Sys2Proof.Machine
end

section
/-! The line of R130, in the variant of D30 (log 20): the points that its loop visits. The loop is read by what is
still ahead of it, `cols` columns and `rows` rows up to the end point: its error term is a function of the two, and
a step takes one off either or both. -/

namespace Sys2Proof.Machine

/-! ## The visited points -/

/-- What the loop of a line does not change: `dx`, `dy`, the directions `sx` and `sy`, and the end point. -/
structure Line where
  dx : Int
  dy : Int
  sx : Int
  sy : Int
  x1 : Int
  y1 : Int
  sx_unit : sx = 1 ∨ sx = -1
  sy_unit : sy = 1 ∨ sy = -1

/-- What the loop of a line changes: the point that it visits and the error term. -/
structure LinePoint where
  x : Int
  y : Int
  err : Int

namespace Line

/-- The loop's variables at the next visited point. -/
def next (l : Line) (p : LinePoint) : LinePoint where
  x := if l.dy ≤ 2 * p.err then p.x + l.sx else p.x
  y := if 2 * p.err ≤ l.dx then p.y + l.sy else p.y
  err := p.err + (if l.dy ≤ 2 * p.err then l.dy else 0) + (if 2 * p.err ≤ l.dx then l.dx else 0)

/-- The points visited from `p` on, in order. -/
def visits (l : Line) : Nat → LinePoint → List LinePoint
  | 0, _ => []
  | fuel + 1, p => p :: if p.x = l.x1 ∧ p.y = l.y1 then [] else l.visits fuel (l.next p)

variable {l : Line} {fuel : Nat} {p q : LinePoint}

theorem visits_of_ended (he : p.x = l.x1 ∧ p.y = l.y1) : l.visits (fuel + 1) p = [p] := by
  rw [visits, if_pos he]

theorem visits_of_not_ended (he : ¬(p.x = l.x1 ∧ p.y = l.y1)) :
    l.visits (fuel + 1) p = p :: l.visits fuel (l.next p) := by
  rw [visits, if_neg he]

theorem lineLoop_of_ended (c : Colour) (s : State) (he : p.x = l.x1 ∧ p.y = l.y1) :
    lineLoop l.dx l.dy l.sx l.sy l.x1 l.y1 c (fuel + 1) p.x p.y p.err s = fbWrite p.x p.y c s := by
  rw [lineLoop]; exact if_pos he

theorem lineLoop_of_not_ended (c : Colour) (s : State) (he : ¬(p.x = l.x1 ∧ p.y = l.y1)) :
    lineLoop l.dx l.dy l.sx l.sy l.x1 l.y1 c (fuel + 1) p.x p.y p.err s =
      lineLoop l.dx l.dy l.sx l.sy l.x1 l.y1 c fuel (l.next p).x (l.next p).y (l.next p).err
        (fbWrite p.x p.y c s) := by
  rw [lineLoop, if_neg he]
  simp only [next, decide_eq_true_eq]
  congr 1
  split <;> split <;> omega

/-- The loop of a line is one `FbWrite` at each visited point. -/
theorem lineLoop_eq_foldl (l : Line) (c : Colour) (fuel : Nat) (p : LinePoint) (s : State) :
    lineLoop l.dx l.dy l.sx l.sy l.x1 l.y1 c fuel p.x p.y p.err s =
      (l.visits fuel p).foldl (fun t q => fbWrite q.x q.y c t) s := by
  induction fuel generalizing p s with
  | zero => rfl
  | succ fuel ih =>
    by_cases he : p.x = l.x1 ∧ p.y = l.y1
    · rw [lineLoop_of_ended c s he, visits_of_ended he]; rfl
    · rw [lineLoop_of_not_ended c s he, ih, visits_of_not_ended he]; rfl

/-! ## What is still ahead -/

/-- The columns still to go. -/
def cols (l : Line) (p : LinePoint) : Int := l.sx * (l.x1 - p.x)

/-- The rows still to go. -/
def rows (l : Line) (p : LinePoint) : Int := l.sy * (l.y1 - p.y)

theorem cols_eq_zero_iff : l.cols p = 0 ↔ p.x = l.x1 := by
  rcases l.sx_unit with h | h <;> rw [cols, h] <;> omega

theorem rows_eq_zero_iff : l.rows p = 0 ↔ p.y = l.y1 := by
  rcases l.sy_unit with h | h <;> rw [rows, h] <;> omega

theorem cols_next (l : Line) (p : LinePoint) :
    l.cols (l.next p) = if l.dy ≤ 2 * p.err then l.cols p - 1 else l.cols p := by
  simp only [cols, next]
  rcases l.sx_unit with h | h <;> rw [h] <;> split <;> omega

theorem rows_next (l : Line) (p : LinePoint) :
    l.rows (l.next p) = if 2 * p.err ≤ l.dx then l.rows p - 1 else l.rows p := by
  simp only [rows, next]
  rcases l.sy_unit with h | h <;> rw [h] <;> split <;> omega

/-- The loop at a point that it visits, with `fuel` points left: the error term follows from what is ahead, and
keeps the longer direction in step, which the loop therefore takes every time and which the fuel suffices for. -/
structure Ahead (l : Line) (fuel : Nat) (p : LinePoint) : Prop where
  cols_nonneg : 0 ≤ l.cols p
  cols_le : l.cols p ≤ l.dx
  rows_nonneg : 0 ≤ l.rows p
  rows_le : l.rows p ≤ -l.dy
  err_eq : p.err = l.dx * (1 - l.rows p) + l.dy * (1 - l.cols p)
  wide : -l.dy ≤ l.dx → l.dy ≤ 2 * p.err ∧ l.cols p < fuel
  tall : l.dx ≤ -l.dy → 2 * p.err ≤ l.dx ∧ l.rows p < fuel

namespace Ahead

/-- The loop steps to the next column only while a column is ahead. -/
theorem cols_pos (h : l.Ahead fuel p) (he : ¬(p.x = l.x1 ∧ p.y = l.y1)) (hstep : l.dy ≤ 2 * p.err) :
    0 < l.cols p := by
  rw [← cols_eq_zero_iff, ← rows_eq_zero_iff] at he
  obtain ⟨hc0, hc, hr0, hr, herr, -, -⟩ := h
  by_contra hneg
  have hzero : l.cols p = 0 := by omega
  have hdx : l.dx * (1 - l.rows p) ≤ 0 := mul_nonpos_of_nonneg_of_nonpos (by omega) (by omega)
  rw [hzero] at herr
  omega

/-- The loop steps to the next row only while a row is ahead. -/
theorem rows_pos (h : l.Ahead fuel p) (he : ¬(p.x = l.x1 ∧ p.y = l.y1)) (hstep : 2 * p.err ≤ l.dx) :
    0 < l.rows p := by
  rw [← cols_eq_zero_iff, ← rows_eq_zero_iff] at he
  obtain ⟨hc0, hc, hr0, hr, herr, -, -⟩ := h
  by_contra hneg
  have hzero : l.rows p = 0 := by omega
  have hdy : 0 ≤ l.dy * (1 - l.cols p) := mul_nonneg_of_nonpos_of_nonpos (by omega) (by omega)
  rw [hzero] at herr
  omega

/-- A step keeps the invariant. -/
theorem next (h : l.Ahead (fuel + 1) p) (he : ¬(p.x = l.x1 ∧ p.y = l.y1)) : l.Ahead fuel (l.next p) where
  cols_nonneg := by
    rw [cols_next]
    split
    · next hs => have := h.cols_pos he hs; omega
    · exact h.cols_nonneg
  cols_le := by
    have := h.cols_le
    rw [cols_next]
    split <;> omega
  rows_nonneg := by
    rw [rows_next]
    split
    · next hs => have := h.rows_pos he hs; omega
    · exact h.rows_nonneg
  rows_le := by
    have := h.rows_le
    rw [rows_next]
    split <;> omega
  err_eq := by
    rw [cols_next, rows_next]
    simp only [Line.next]
    split <;> split <;> linear_combination h.err_eq
  wide hw := by
    obtain ⟨hx, hfuel⟩ := h.wide hw
    rw [cols_next, if_pos hx]
    simp only [Line.next, if_pos hx]
    split <;> omega
  tall ht := by
    obtain ⟨hy, hfuel⟩ := h.tall ht
    rw [rows_next, if_pos hy]
    simp only [Line.next, if_pos hy]
    split <;> omega

theorem fuel_pos (h : l.Ahead fuel p) : 0 < fuel := by
  rcases le_total (-l.dy) l.dx with hw | ht
  · have := (h.wide hw).2
    have := h.cols_nonneg
    omega
  · have := (h.tall ht).2
    have := h.rows_nonneg
    omega

theorem self_mem_visits (h : l.Ahead fuel p) : p ∈ l.visits fuel p := by
  obtain ⟨n, rfl⟩ := Nat.exists_eq_add_one_of_ne_zero h.fuel_pos.ne'
  exact List.mem_cons_self

/-- The invariant holds at every visited point. -/
theorem of_mem_visits (h : l.Ahead fuel p) (hq : q ∈ l.visits fuel p) : ∃ n, l.Ahead n q := by
  induction fuel generalizing p with
  | zero => cases hq
  | succ fuel ih =>
    by_cases he : p.x = l.x1 ∧ p.y = l.y1
    · rw [visits_of_ended he, List.mem_singleton] at hq
      exact ⟨_, hq ▸ h⟩
    · rw [visits_of_not_ended he] at hq
      rcases List.mem_cons.1 hq with rfl | hq
      · exact ⟨_, h⟩
      · exact ih (h.next he) hq

/-- A measure of what is ahead that a step lowers by at most one, and that is used up at the end point, takes all
its values in between at visited points. -/
theorem exists_visit (h : l.Ahead fuel p) {f : LinePoint → Int} (hstep : ∀ q, f q - 1 ≤ f (l.next q))
    (hend : ∀ q, q.x = l.x1 ∧ q.y = l.y1 → f q = 0) {k : Int} (hk : 0 ≤ k) (hle : k ≤ f p) :
    ∃ q ∈ l.visits fuel p, f q = k := by
  induction fuel generalizing p with
  | zero => exact absurd h.fuel_pos (Nat.lt_irrefl 0)
  | succ fuel ih =>
    by_cases hp : f p = k
    · exact ⟨p, h.self_mem_visits, hp⟩
    · have he : ¬(p.x = l.x1 ∧ p.y = l.y1) := fun he => hp (by have := hend p he; omega)
      have := hstep p
      obtain ⟨q, hq, hfq⟩ := ih (h.next he) (by omega)
      exact ⟨q, visits_of_not_ended he ▸ List.mem_cons_of_mem _ hq, hfq⟩

theorem exists_visit_cols (h : l.Ahead fuel p) {k : Int} (hk : 0 ≤ k) (hle : k ≤ l.cols p) :
    ∃ q ∈ l.visits fuel p, l.cols q = k := by
  refine h.exists_visit (fun q => ?_) (fun q hq => cols_eq_zero_iff.2 hq.1) hk hle
  rw [cols_next]
  split <;> omega

theorem exists_visit_rows (h : l.Ahead fuel p) {k : Int} (hk : 0 ≤ k) (hle : k ≤ l.rows p) :
    ∃ q ∈ l.visits fuel p, l.rows q = k := by
  refine h.exists_visit (fun q => ?_) (fun q hq => rows_eq_zero_iff.2 hq.2) hk hle
  rw [rows_next]
  split <;> omega

/-- The end point is visited: where the longer direction is used up, so is the other. -/
theorem exists_visit_end (h : l.Ahead fuel p) : ∃ q ∈ l.visits fuel p, q.x = l.x1 ∧ q.y = l.y1 := by
  rcases le_total (-l.dy) l.dx with hw | ht
  · obtain ⟨q, hq, hzero⟩ := h.exists_visit_cols le_rfl h.cols_nonneg
    obtain ⟨n, hn⟩ := h.of_mem_visits hq
    exact ⟨q, hq, by_contra fun he => (hn.cols_pos he (hn.wide hw).1).ne' hzero⟩
  · obtain ⟨q, hq, hzero⟩ := h.exists_visit_rows le_rfl h.rows_nonneg
    obtain ⟨n, hn⟩ := h.of_mem_visits hq
    exact ⟨q, hq, by_contra fun he => (hn.rows_pos he (hn.tall ht).1).ne' hzero⟩

end Ahead

/-! ## The line between two points -/

/-- The line that `drawLine` runs. -/
def between (x0 y0 x1 y1 : Int) : Line where
  dx := (x1 - x0).natAbs
  dy := -((y1 - y0).natAbs : Int)
  sx := if x0 < x1 then 1 else -1
  sy := if y0 < y1 then 1 else -1
  x1 := x1
  y1 := y1
  sx_unit := by split <;> decide
  sy_unit := by split <;> decide

end Line

/-- The first point that the loop of `drawLine` visits. -/
def lineStart (x0 y0 x1 y1 : Int) : LinePoint where
  x := x0
  y := y0
  err := (x1 - x0).natAbs + -((y1 - y0).natAbs : Int)

/-- The points that `line(x0, y0, x1, y1, c)` visits. -/
def lineVisits (x0 y0 x1 y1 : Int) : List LinePoint :=
  (Line.between x0 y0 x1 y1).visits (max (x1 - x0).natAbs (y1 - y0).natAbs + 1) (lineStart x0 y0 x1 y1)

/-- R130: a line paints the points that it visits. -/
theorem paints_line (cfg : Cfg) (x0 y0 x1 y1 : Int) (c : Colour) :
    Paints cfg (drawLine x0 y0 x1 y1 c) (fun px py => ∃ q ∈ lineVisits x0 y0 x1 y1, q.x = px ∧ q.y = py) c :=
  (Paints.foldl (lineVisits x0 y0 x1 y1) fun q _ => paints_fbWrite cfg q.x q.y c).congr
    (fun s _ => (Line.between x0 y0 x1 y1).lineLoop_eq_foldl c _ (lineStart x0 y0 x1 y1) s) fun _ _ _ _ => Iff.rfl

section
variable {x0 y0 x1 y1 : Int}

theorem cols_between (p : LinePoint) :
    (Line.between x0 y0 x1 y1).cols p = if x0 < x1 then x1 - p.x else p.x - x1 := by
  simp only [Line.cols, Line.between]
  split <;> omega

theorem rows_between (p : LinePoint) :
    (Line.between x0 y0 x1 y1).rows p = if y0 < y1 then y1 - p.y else p.y - y1 := by
  simp only [Line.rows, Line.between]
  split <;> omega

theorem cols_lineStart : (Line.between x0 y0 x1 y1).cols (lineStart x0 y0 x1 y1) = (x1 - x0).natAbs := by
  rw [cols_between, lineStart]
  split <;> dsimp only <;> omega

theorem rows_lineStart : (Line.between x0 y0 x1 y1).rows (lineStart x0 y0 x1 y1) = (y1 - y0).natAbs := by
  rw [rows_between, lineStart]
  split <;> dsimp only <;> omega

/-- At the first point the whole line is ahead. -/
theorem ahead_lineStart : (Line.between x0 y0 x1 y1).Ahead (max (x1 - x0).natAbs (y1 - y0).natAbs + 1)
    (lineStart x0 y0 x1 y1) where
  cols_nonneg := by rw [cols_lineStart]; omega
  cols_le := cols_lineStart.le
  rows_nonneg := by rw [rows_lineStart]; omega
  rows_le := (rows_lineStart.trans (neg_neg _).symm).le
  err_eq := by rw [cols_lineStart, rows_lineStart, lineStart, Line.between]; ring
  wide hw := by
    rw [cols_lineStart, lineStart]
    dsimp only [Line.between] at hw ⊢
    omega
  tall ht := by
    rw [rows_lineStart, lineStart]
    dsimp only [Line.between] at ht ⊢
    omega

/-- The first end point is visited. -/
theorem exists_lineVisit_start : ∃ q ∈ lineVisits x0 y0 x1 y1, q.x = x0 ∧ q.y = y0 :=
  ⟨_, ahead_lineStart.self_mem_visits, rfl, rfl⟩

/-- The second end point is visited. -/
theorem exists_lineVisit_end : ∃ q ∈ lineVisits x0 y0 x1 y1, q.x = x1 ∧ q.y = y1 :=
  ahead_lineStart.exists_visit_end

/-- Every visited point lies in the box of the end points. -/
theorem lineVisits_in_box {q : LinePoint} (hq : q ∈ lineVisits x0 y0 x1 y1) :
    (min x0 x1 ≤ q.x ∧ q.x ≤ max x0 x1) ∧ min y0 y1 ≤ q.y ∧ q.y ≤ max y0 y1 := by
  obtain ⟨n, hc0, hc, hr0, hr, -⟩ := ahead_lineStart.of_mem_visits hq
  rw [cols_between] at hc0 hc
  rw [rows_between] at hr0 hr
  simp only [Line.between] at hc hr
  split at hc <;> split at hr <;> omega

/-- Every column between the end points is visited. -/
theorem exists_lineVisit_column {u : Int} (hmin : min x0 x1 ≤ u) (hmax : u ≤ max x0 x1) :
    ∃ q ∈ lineVisits x0 y0 x1 y1, q.x = u := by
  obtain ⟨q, hq, hk⟩ := (ahead_lineStart (x0 := x0) (y0 := y0) (x1 := x1) (y1 := y1)).exists_visit_cols
    (k := if x0 < x1 then x1 - u else u - x1) (by split <;> omega) (by rw [cols_lineStart]; split <;> omega)
  rw [cols_between] at hk
  exact ⟨q, hq, by split at hk <;> omega⟩

/-- Every row between the end points is visited. -/
theorem exists_lineVisit_row {v : Int} (hmin : min y0 y1 ≤ v) (hmax : v ≤ max y0 y1) :
    ∃ q ∈ lineVisits x0 y0 x1 y1, q.y = v := by
  obtain ⟨q, hq, hk⟩ := (ahead_lineStart (x0 := x0) (y0 := y0) (x1 := x1) (y1 := y1)).exists_visit_rows
    (k := if y0 < y1 then y1 - v else v - y1) (by split <;> omega) (by rw [rows_lineStart]; split <;> omega)
  rw [rows_between] at hk
  exact ⟨q, hq, by split at hk <;> omega⟩

/-- A horizontal line visits the points of the horizontal run. -/
theorem lineVisits_horizontal (hy : y0 = y1) (u v : Int) :
    (∃ q ∈ lineVisits x0 y0 x1 y1, q.x = u ∧ q.y = v) ↔
      y0 = v ∧ min x0 x1 ≤ u ∧ u < min x0 x1 + ((x1 - x0).natAbs + 1) := by
  constructor
  · rintro ⟨q, hq, rfl, rfl⟩
    have := lineVisits_in_box hq
    omega
  · rintro ⟨rfl, hmin, hlt⟩
    obtain ⟨q, hq, hqx⟩ := exists_lineVisit_column (y0 := y0) (y1 := y1) hmin (by omega)
    have := lineVisits_in_box hq
    exact ⟨q, hq, hqx, by omega⟩

/-- A vertical line visits the points of the vertical run. -/
theorem lineVisits_vertical (hx : x0 = x1) (u v : Int) :
    (∃ q ∈ lineVisits x0 y0 x1 y1, q.x = u ∧ q.y = v) ↔
      x0 = u ∧ min y0 y1 ≤ v ∧ v < min y0 y1 + ((y1 - y0).natAbs + 1) := by
  constructor
  · rintro ⟨q, hq, rfl, rfl⟩
    have := lineVisits_in_box hq
    omega
  · rintro ⟨rfl, hmin, hlt⟩
    obtain ⟨q, hq, hqy⟩ := exists_lineVisit_row (x0 := x0) (x1 := x1) hmin (by omega)
    have := lineVisits_in_box hq
    exact ⟨q, hq, by omega, hqy⟩

end

/-- Settles O52: the visited points include both end points and every column and row in between, and stay in the
box. -/
theorem lineEndPointsRunsAndBox : Obligations.LineEndPointsRunsAndBox := by
  intro s x0 y0 x1 y1 c px py hx hy
  have hp := paints_line s.cfg x0 y0 x1 y1 c
  refine ⟨?_, ?_, fun h => ?_, fun h => ?_, fun hout => hp.misses s px py rfl hx hy ?_⟩
  · rintro rfl rfl
    exact hp.hits s px py rfl hx hy exists_lineVisit_start
  · rintro rfl rfl
    exact hp.hits s px py rfl hx hy exists_lineVisit_end
  · exact hp.pixel_congr (paints_hline s.cfg _ y0 _ c) rfl hx hy (lineVisits_horizontal h px py)
  · exact hp.pixel_congr (paints_vline s.cfg x0 _ _ c) rfl hx hy (lineVisits_vertical h px py)
  · rintro ⟨q, hq, hqx, hqy⟩
    have := lineVisits_in_box hq
    omega

end Sys2Proof.Machine
end

section
/-! SWAP_BYTES: what it leaves in the two arrays, and what stops it (43_transcoder.md R146, R147, R149). -/

namespace Sys2Proof.Machine

/-! ## Memories whose pairs of bytes are exchanged (R146, R149) -/

/-- A statement about every byte of `k` whole pairs, told pair by pair. -/
theorem forall_lt_two_mul_iff {p : Nat → Prop} {k : Nat} :
    (∀ a, a < 2 * k → p a) ↔ ∀ i, i < k → p (2 * i) ∧ p (2 * i + 1) := by
  refine ⟨fun h i hi => ⟨h _ (by omega), h _ (by omega)⟩, fun h a ha => ?_⟩
  obtain ⟨i, rfl | rfl⟩ := Nat.even_or_odd' a
  · exact (h i (by omega)).1
  · exact (h i (by omega)).2

/-- R146: the first `k` pairs of `m'` are those of `m`, the two bytes of each exchanged. -/
def PairsExchanged (m m' : Memory) (k : Nat) : Prop :=
  ∀ i, i < k → m'.read (2 * i) = m.read (2 * i + 1) ∧ m'.read (2 * i + 1) = m.read (2 * i)

namespace PairsExchanged

variable {m m' m'' : Memory} {k : Nat}

/-- An exchange of bytes with a value leaves bytes with a value. -/
theorem isSome (h : PairsExchanged m m' k) (hm : ∀ a, a < 2 * k → (m.read a).isSome = true) :
    ∀ a, a < 2 * k → (m'.read a).isSome = true := by
  rw [forall_lt_two_mul_iff] at hm ⊢
  intro i hi
  obtain ⟨heven, hodd⟩ := h i hi
  rw [heven, hodd]
  exact (hm i hi).symm

/-- Exchanged twice, the bytes of a pair are back in their places (R149). -/
theorem read_eq_of_twice (h : PairsExchanged m m' k) (h' : PairsExchanged m' m'' k) :
    ∀ a, a < 2 * k → m''.read a = m.read a := by
  refine forall_lt_two_mul_iff.2 fun i hi => ?_
  obtain ⟨heven, hodd⟩ := h i hi
  obtain ⟨heven', hodd'⟩ := h' i hi
  exact ⟨heven'.trans hodd, hodd'.trans heven⟩

end PairsExchanged

/-- The byte string that the exchange writes (R146). -/
theorem pairsExchanged_writeBytes (m : Memory) {src : Memory} {n : Nat} {l : List Byte}
    (hl : src.readBytes 0 (2 * (n / 2)) = some l) : PairsExchanged src (m.writeBytes 0 (swapPairs l)) (n / 2) :=
  fun _ hi => Memory.read_writeBytes_swapPairs m hl (by omega)

/-- A lone last byte and everything after it is not written (R148). -/
theorem read_writeBytes_swapPairs_beyond (m : Memory) {src : Memory} {n : Nat} {l : List Byte}
    (hl : src.readBytes 0 n = some l) {a : Nat} (ha : n ≤ a) :
    (m.writeBytes 0 (swapPairs l)).read a = m.read a := by
  have hlen := Memory.length_readBytes hl
  have hswap := swapPairs_length l
  rw [Memory.read_writeBytes, if_neg (by omega)]

/-! ## The state after the exchange -/

/-- R146: the state that SWAP_BYTES answers, with `m` in its destination. -/
def State.swapped (s : State) (dst : Space) (m : Memory) (n : BitVec 18) : State :=
  { s.setMem dst m with tlen := n, ti := BitVec.ofNat 18 (2 * (n.toNat / 2)) }

@[simp] theorem State.swapped_mem (s : State) (dst : Space) (m : Memory) (n : BitVec 18) :
    (s.swapped dst m n).mem dst = m := by
  cases dst <;> rfl

@[simp] theorem State.swapped_cfg (s : State) (dst : Space) (m : Memory) (n : BitVec 18) :
    (s.swapped dst m n).cfg = s.cfg :=
  s.setMem_cfg dst m

@[simp] theorem State.swapped_fatal (s : State) (dst : Space) (m : Memory) (n : BitVec 18) :
    (s.swapped dst m n).fatal = s.fatal :=
  s.setMem_fatal dst m

/-! ## SWAP_BYTES run alone -/

section
variable {s : State} {dst src : Space} {n : BitVec 18} (hf : s.fatal = false)
include hf

theorem exec_swapBytes_bad (h : dst = src ∨ s.cfg.nbytes < n.toNat) :
    exec (.swapBytes dst src n) s = .next { s with err := .badSwap, busy := false } :=
  runAlone_raised hf (swapBytes_bad h)

variable (hd : dst ≠ src) (hn : n.toNat ≤ s.cfg.nbytes)
include hd hn

theorem exec_swapBytes_unwritten {a : Nat} (ha : a < 2 * (n.toNat / 2)) (h : (s.mem src).read a = none) :
    exec (.swapBytes dst src n) s = .fault (.unwritten src) := by
  show runAlone (swapBytes dst src n.toNat) s = _
  rw [runAlone_alive _ hf, swapBytes_unwritten hd hn ha h]
  rfl

/-- SWAP_BYTES answers where every byte that it reads holds a value. -/
theorem exec_swapBytes_ok (hall : ∀ a, a < 2 * (n.toNat / 2) → ((s.mem src).read a).isSome = true) :
    ∃ m : Memory, exec (.swapBytes dst src n) s = .next (s.swapped dst m n) ∧
      PairsExchanged (s.mem src) m (n.toNat / 2) ∧
      ∀ a, 2 * (n.toNat / 2) ≤ a → m.read a = (s.mem dst).read a := by
  obtain ⟨l, hl⟩ := Option.isSome_iff_exists.1
    ((Memory.readBytes_isSome (s.mem src) 0 _).2 fun a ha => (Nat.zero_add a).symm ▸ hall a ha)
  refine ⟨_, runAlone_ok hf ?_, pairsExchanged_writeBytes (s.mem dst) hl,
    fun _ => read_writeBytes_swapPairs_beyond (s.mem dst) hl⟩
  rw [swapBytes_ok hd hn hl, BitVec.ofNat_toNat, BitVec.setWidth_eq]
  rfl

end

/-! ## The obligations -/

/-- Settles O31: the exchange answers with the pairs exchanged and the rest kept, or a byte without a value
stops it. -/
theorem swapBytesExchangesPairs : Obligations.SwapBytesExchangesPairs := by
  intro s dst src n hf hd hn
  refine ⟨fun hall => ?_, fun a => exec_swapBytes_unwritten hf hd hn⟩
  obtain ⟨m, hexec, hpairs, hrest⟩ := exec_swapBytes_ok hf hd hn hall
  refine ⟨_, hexec, ?_⟩
  rw [State.swapped_mem]
  exact ⟨rfl, hpairs, hrest⟩

/-- Settles O33: the first exchange leaves values in all the bytes that the second one reads, and the two of them
put every byte back. -/
theorem swapBytesIsAnInvolution : Obligations.SwapBytesIsAnInvolution := by
  intro s dst src n hf hd hn hall
  obtain ⟨m, hexec, hpairs, -⟩ := exec_swapBytes_ok hf hd hn hall
  refine ⟨_, hexec, fun u hmem hcfg hfatal => ?_⟩
  rw [State.swapped_mem] at hmem
  rw [State.swapped_cfg] at hcfg
  rw [State.swapped_fatal] at hfatal
  subst hmem
  obtain ⟨m', hexec', hpairs', -⟩ :=
    exec_swapBytes_ok (hfatal.trans hf) hd.symm (hcfg ▸ hn) (hpairs.isSome hall)
  refine ⟨_, hexec', ?_⟩
  rw [State.swapped_mem]
  exact hpairs.read_eq_of_twice hpairs'

/-- Settles O32: the precondition is checked before anything is read or written. -/
theorem badSwapWritesNothing : Obligations.BadSwapWritesNothing :=
  fun _ _ _ _ hf => exec_swapBytes_bad hf

end Sys2Proof.Machine
end

section
/-! The requests INIT and PRESENT at the handshake, and what a present on a bus without failure emits
(44_display_controller.md R156, R163, R164, R134). -/

namespace Sys2Proof.Machine

/-- R156: an assigned request code runs its operation. -/
theorem step_request {s : State} {code : BitVec 4} {i : Instr} {r : List Action} (hc : s.cfg.ok = true)
    (hb : s.busy = false) (hf : s.fatal = false) (hd : decodeRequest code = some i)
    (hi : s.inbox = .request code :: r) : step s = exec i { s with inbox := r } := by
  rw [step_of_pending hc hi]
  simp [act, handshake, hb, hf, hd]

/-- Settles O12: both codes pass the handshake of an idle instance that met no fatal error. -/
theorem requestCodesRunInitAndPresent : Obligations.RequestCodesRunInitAndPresent :=
  fun _ _ hc hb hf => ⟨step_request hc hb hf rfl, step_request hc hb hf rfl⟩

theorem request_fault {body : State → Result} {s : State} {f : Fault} (hb : s.busy = false) (hf : s.fatal = false)
    (h : body s.accept = .fault f) : request body s = .fault f := by
  simp [request, hb, hf, h, Result.endRequest]

/-- R36: a byte of `FB` that nothing has written stops the present once its window has gone out. -/
theorem presentBody_unwritten {s : State} {a : Nat} (hc : s.cfg.ok = true) (ha : a < s.cfg.nbytes)
    (h : s.fb.read a = none) (hbus : s.busOk 5 = true) : presentBody s = .fault (.unwritten .fb) := by
  have heven : 2 * (s.cfg.nbytes / 2) = s.cfg.nbytes := by simp [Cfg.nbytes]
  rw [presentBody, setWindow_ok (n := 0) _ _ _ _ (fullWindow_inRange hc) hbus, Result.bind_done,
    swapBytes_unwritten (a := a) (by decide) le_rfl (by exact heven.symm ▸ ha) (by exact h)]
  rfl

theorem exec_present_unwritten {s : State} {a : Nat} (hc : s.cfg.ok = true) (hb : s.busy = false)
    (hf : s.fatal = false) (hr : s.ctrl = .ready) (ha : a < s.cfg.nbytes) (h : s.fb.read a = none)
    (hbus : s.busOk 5 = true) : exec .present s = .fault (.unwritten .fb) :=
  request_fault hb hf ((if_pos hr).trans (presentBody_unwritten (s := s.accept) hc ha h hbus))

/-- Settles O35: a readable frame is sent whole, an unwritten byte stops the transcoding. -/
theorem presentSendsTheWholeFrame : Obligations.PresentSendsTheWholeFrame :=
  fun _ hc hb hf hr => ⟨fun _ => exec_present_ok hc hb hf hr, fun _ => exec_present_unwritten hc hb hf hr⟩

theorem presentEvents_ne_nil (c : Cfg) (l : List Byte) : presentEvents c l ≠ [] := by
  simp [presentEvents, windowEvents, wireEvents, cmdEvents]

/-- Settles O38: the first present leaves `FB`, the configuration and the controller state, on which the events
of the second depend, and a schedule that lets the second through. -/
theorem repeatedPresentsAreIdentical : Obligations.RepeatedPresentsAreIdentical := by
  intro s hc hb hf hr hfull hbus
  rw [Nat.two_mul] at hbus
  obtain ⟨l, hl⟩ := readBytes_of_fbFull hfull
  exact ⟨_, _, _, exec_present_ok hc hb hf hr (busAllows_mono hbus (Nat.le_add_left _ _)) hl,
    exec_present_ok (by exact hc) rfl hf hr (busAllows_drop hbus) hl, presentEvents_ne_nil _ _, rfl, rfl⟩

end Sys2Proof.Machine
end

section
/-! How the burst is cut into data transactions (44_display_controller.md R166, R167). -/

namespace Sys2Proof.Machine

/-- R167: piece `i` is the `n` bytes from offset `i * n` on, or what is left of them. -/
theorem cutChunks_getElem? {fuel n i : Nat} {s d : List Byte} (h : (cutChunks fuel n s)[i]? = some d) :
    i * n < s.length ∧ d = (s.drop (i * n)).take n := by
  induction fuel generalizing s i with
  | zero => simp [cutChunks] at h
  | succ fuel ih =>
    rw [cutChunks] at h
    split at h
    · simp at h
    · next hs =>
      cases i with
      | zero =>
        rw [List.getElem?_cons_zero, Option.some_inj] at h
        simpa using ⟨List.length_pos_iff.2 hs, h.symm⟩
      | succ i =>
        obtain ⟨hlt, hd⟩ := ih h
        rw [List.length_drop] at hlt
        rw [List.drop_drop, Nat.add_comm, ← Nat.succ_mul] at hd
        exact ⟨by rw [Nat.succ_mul]; omega, hd⟩

/-- R167: a piece with another one after it is full. -/
theorem length_of_cutChunks_getElem? {fuel n i : Nat} {s d : List Byte} (hn : 0 < n)
    (h : (cutChunks fuel n s)[i]? = some d) :
    1 ≤ d.length ∧ d.length ≤ n ∧ (i + 1 < (cutChunks fuel n s).length → d.length = n) := by
  obtain ⟨hlt, rfl⟩ := cutChunks_getElem? h
  rw [List.length_take, List.length_drop]
  refine ⟨by omega, by omega, fun hnext => ?_⟩
  obtain ⟨hfull, -⟩ := cutChunks_getElem? (List.getElem?_eq_getElem hnext)
  rw [Nat.succ_mul] at hfull
  omega

theorem burstChunks_of_pos {n : Nat} (hn : 0 < n) (s : List Byte) : burstChunks n s = cutChunks s.length n s :=
  if_neg hn.ne'

/-- Settles O37: one piece with BURST_CHUNK 0, and else the pieces at the multiples of BURST_CHUNK. -/
theorem burstIsCutIntoChunks : Obligations.BurstIsCutIntoChunks := by
  intro c l hl
  refine ⟨burstChunks_flatten _ l, fun h0 => if_pos h0, fun hn => ?_⟩
  rw [burstChunks_of_pos hn, length_cutChunks _ _ _ hn le_rfl, hl]
  refine ⟨rfl, fun i d hd => ?_⟩
  have hlen := length_of_cutChunks_getElem? hn hd
  rwa [length_cutChunks _ _ _ hn hl.le, hl] at hlen

end Sys2Proof.Machine
end

section
/-! INIT from its first entry to its end, and where a failing bus stops it (44_display_controller.md R157 to R162,
R165, R170). -/

namespace Sys2Proof.Machine

/-- The state in which the closing present, entry 36, begins when entry 0 begins in `s`. -/
def State.beforeClosing (s : State) : State :=
  { s with
    rst := .deasserted, dt := 0, cs := 1, dc := 0, bi := 1, tr := s.tr ++ setupEvents s.cfg, bus := busDrop s.bus 29
    fb := s.fb.writeBytes 0 (List.replicate s.cfg.nbytes 0x00), seqPc := s.seqPc + 35 + 1 }

/-- R157: on a bus that lets entries 0 to 34 through, the sequence ends as its closing present does. -/
theorem runRom_rom_closing {s : State} (hc : s.cfg.ok = true) (hbus : busAllows s.bus 29 = true) :
    runRom rom s = (presentBody s.beforeClosing).bind fun t => .done (t.setPc (t.seqPc + 1)) := by
  rw [rom_eq, runRom_plain hc romSetup_plain hbus, romSetup_apply]
  rfl

theorem initBody_accept (s : State) :
    initBody s.accept = (runRom rom s.enterInit).bind fun t => .done { t with ctrl := .ready } :=
  rfl

theorem exec_init_done {s t : State} (hb : s.busy = false) (hf : s.fatal = false)
    (h : runRom rom s.enterInit = .done t) : exec .init s = .next t.leaveInit :=
  request_ok (t := { t with ctrl := .ready }) hb hf (by rw [initBody_accept, h]; rfl)

theorem exec_init_raised {s t : State} (hb : s.busy = false) (hf : s.fatal = false)
    (h : runRom rom s.enterInit = .raised t) : exec .init s = .next t :=
  request_raised hb hf (by rw [initBody_accept, h]; rfl)

/-- R165: the closing present reads the cleared frame. -/
theorem readBytes_beforeClosing (s : State) :
    s.beforeClosing.fb.readBytes 0 s.cfg.nbytes = some (List.replicate s.cfg.nbytes 0x00) :=
  readBytes_writeBytes_zero s.fb s.cfg.nbytes

/-- The cleared frame is its own transcoding. -/
theorem swapPairs_black (c : Cfg) : swapPairs (List.replicate c.nbytes 0x00) = List.replicate c.nbytes 0x00 :=
  swapPairs_zero c.npix

/-- Settles O40: entries 0 to 34 in one stretch, then the present of the cleared frame. -/
theorem initRunsTheWholeSequence : Obligations.InitRunsTheWholeSequence := by
  intro s hc hb hf _ hbus
  have hsetup : busAllows s.bus 29 = true := busAllows_mono hbus (by omega)
  have hclosing : busAllows (busDrop s.bus 29) (5 + s.cfg.burstCount + 0) = true :=
    busAllows_drop (busAllows_mono hbus (by omega))
  have hrun := runRom_rom_closing (s := s.enterInit) hc hsetup
  rw [presentBody_ok (s := s.enterInit.beforeClosing) (n := 0) hc (readBytes_beforeClosing s.enterInit) hclosing,
    Result.bind_done] at hrun
  rw [exec_init_done hb hf hrun]
  have hdrop : busDrop (busDrop s.bus 29) (5 + s.cfg.burstCount) = busDrop s.bus (34 + s.cfg.burstCount) := by
    rw [busDrop_drop, ← Nat.add_assoc]
  simp only [State.leaveInit, State.setPc, State.beforeClosing, State.enterInit, State.accept, State.busAfter,
    swapPairs_black, hdrop, initEvents, List.append_assoc]
  rfl

/-- R102: a failure behind the 29 transactions of entries 0 to 34 cuts the closing present. -/
theorem cutEvents_initEvents (c : Cfg) (k j : Nat) :
    cutEvents (29 + k) j (initEvents c) =
      setupEvents c ++ cutEvents k j (presentEvents c (List.replicate c.nbytes 0x00)) := by
  rw [initEvents, ← romSetup_events, ← romSetup_transactions, cutEvents_romEvents c romSetup romSetup_plain]

/-- Settles O44: transactions 0 to 28 are those of entries 0 to 34, the rest those of the closing present. -/
theorem failureInsideInit : Obligations.FailureInsideInit := by
  intro s k j hc hb hf _ hbus hk
  by_cases hsetup : k < 29
  · obtain ⟨t, ht, herr, hfatal, hbusy, hctrl, hfb, hcfg, hpc, htr⟩ :=
      runRom_plain_fail (s := s.enterInit) (r := [.clearFb, .presentBody, .stop]) hc romSetup_plain k j
        (presentEvents s.cfg (List.replicate s.cfg.nbytes 0x00)) hbus hsetup
    refine ⟨t, exec_init_raised hb hf ht, herr, hfatal, hbusy, hctrl, hcfg, ?_, ?_, ?_⟩
    · rw [hpc, romFailure_setup k hsetup]
      exact BitVec.zero_add _
    · rw [hfb, if_pos hsetup]; rfl
    · rw [htr, romSetup_events]; rfl
  · obtain ⟨m, rfl⟩ := Nat.exists_eq_add_of_le (Nat.le_of_not_lt hsetup)
    have hdrop : busDrop s.bus 29 = some ⟨m, j⟩ := by simp [busDrop, hbus]
    obtain ⟨t, ht, herr, hfatal, hbusy, hctrl, hfb, hcfg, hpc, -, htr⟩ :=
      presentBody_fail (s := s.enterInit.beforeClosing) hc (readBytes_beforeClosing s.enterInit) m j hdrop
        (show m < 5 + s.cfg.burstCount by omega)
    have hrun : runRom rom s.enterInit = .raised t := by
      rw [runRom_rom_closing (s := s.enterInit) hc (by simp [State.enterInit, State.accept, busAllows, hbus]), ht]
      rfl
    refine ⟨t, exec_init_raised hb hf hrun, herr, hfatal, hbusy, hctrl, hcfg, ?_, ?_, ?_⟩
    · rw [hpc, entryOfTransaction, if_neg (by omega), if_neg (by omega), if_neg hsetup]
      rfl
    · rw [hfb, if_neg hsetup]; rfl
    · rw [htr, swapPairs_black, cutEvents_initEvents, ← List.append_assoc]; rfl

end Sys2Proof.Machine
end

section
/-! A filled rectangle on a black frame, from the host's call to the wire (44_display_controller.md R171). -/

namespace Sys2Proof.Machine

/-- A pixel of the screen whose bytes are both zero. -/
theorem pixel_of_black {s : State} (hblack : ∀ a, a < s.cfg.nbytes → s.fb.read a = some 0x00) {px py : Nat}
    (hx : px < s.cfg.lw) (hy : py < s.cfg.lh) : s.pixel px py = some 0 :=
  have hlt := pixelOffset_lt hx hy
  Memory.readWord_of_read (hblack _ (Nat.lt_of_succ_lt hlt)) (hblack _ hlt)

/-- Settles O54: the rectangle's pixels are its colour and the others black (R132), and PRESENT sends the frame
pixel by pixel (R77). -/
theorem filledRectangleReachesTheWire : Obligations.FilledRectangleReachesTheWire := by
  intro s x y w h c hc hb hf hr hblack hbus
  have hpaint := paints_fillRect s.cfg x y w h c
  have hframe := draw_frame (.fillRect x y w h c) s
  have hfull : ∀ a, a < s.cfg.nbytes → ((draw (.fillRect x y w h c) s).fb.read a).isSome = true :=
    fun a ha => hpaint.keeps s a rfl (by rw [hblack a ha]; rfl)
  have hpixel := fillRectPaintsTheClippedRectangle s x y w h c
  generalize (draw (.fillRect x y w h c) s).fb = m at hframe hfull
  rw [hframe] at hpixel ⊢
  obtain ⟨t, b, hexec, -, htr, hlen, -, -, hwire⟩ :=
    presentSendsEveryPixelBigEndian { s with fb := m } hc hb hf hr hfull hbus
  refine ⟨t, b, hexec, htr, hlen, fun px py hx hy => ?_⟩
  have hword := hwire px py _ hx hy ((hpixel px py hx hy).trans (by rw [pixel_of_black hblack hx hy, ← apply_ite]))
  rwa [apply_ite (BitVec.extractLsb' 8 8), apply_ite (BitVec.extractLsb' 0 8)] at hword

end Sys2Proof.Machine
end

section
/-! The commands that INIT and PRESENT send, in order (45_wire_commands.md R200). -/

namespace Sys2Proof.Machine

/-- R158, R200: the command bytes of a complete INIT, stretch of the ROM by stretch of the ROM. -/
theorem commandBytes_initEvents (c : Cfg) :
    commandBytes (initEvents c) =
      [0x01, 0x11, 0xB1, 0xB2, 0xB3, 0xB4, 0xC0, 0xC1, 0xC2, 0xC3, 0xC4, 0xC5, 0x20, 0x36, 0x3A,
        c.opcNoron, 0x29, 0x2A, 0x2B, 0x2C] := by
  simp only [commandBytes, initEvents, setupEvents, List.append_assoc, commandBytes_reset, commandBytes_frame,
    commandBytes_power, commandBytes_mode, commandBytes_present, List.cons_append, List.nil_append]

/-- Settles O42: the events are those of O35 and O40, and their command bytes the ones of the window and of the
ROM. -/
theorem commandsOfInitAndPresent : Obligations.CommandsOfInitAndPresent := by
  refine fun s hc hb hf => ⟨fun hr hfull hbus => ?_, fun hi hbus => ?_⟩
  · obtain ⟨l, hl⟩ := readBytes_of_fbFull hfull
    exact ⟨_, _, exec_present_ok hc hb hf hr hbus hl, rfl, commandBytes_present s.cfg 1 (swapPairs l)⟩
  · exact ⟨_, _, initRunsTheWholeSequence s hc hb hf hi hbus, rfl, commandBytes_initEvents s.cfg⟩

end Sys2Proof.Machine
end

section
/-! The wire commands run alone: the opcode, then the settle delay or the payload (45_wire_commands.md R180 to R186,
R188 to R199). -/

namespace Sys2Proof.Machine

section
variable {s : State} (hf : s.fatal = false)
include hf

/-- R100: a command of its opcode alone. -/
theorem runAlone_sendCommand (c : Byte) (hbus : s.busOk 1 = true) :
    runAlone (sendCommand c) s = .next { s with
      cs := 1, dc := 0, tr := s.tr ++ cmdEvents c, bus := s.busAfter 1 } :=
  runAlone_ok hf (sendCommand_ok (n := 0) c hbus)

/-- R180, R181, R250: a command that the settle delay `d` of the configuration follows. -/
theorem runAlone_sendCommand_delay (c : Byte) (d : Cfg → Nat) (hbus : s.busOk 1 = true) :
    runAlone (fun t => (sendCommand c t).bind fun u => .done (u.delay (d u.cfg))) s = .next { s with
      cs := 1, dc := 0, dt := 0, tr := s.tr ++ cmdEvents c ++ [.delay (d s.cfg)], bus := s.busAfter 1 } :=
  runAlone_ok hf (by rw [sendCommand_ok (n := 0) c hbus]; rfl)

/-- R73: a command with its payload. -/
theorem runAlone_sendWire (c : Byte) {l : List Byte} (hl : l ≠ []) (hbus : s.busOk 2 = true) :
    runAlone (sendWire c l) s = .next { s with
      cs := 1, dc := 1, bi := BitVec.ofNat 18 l.length, tr := s.tr ++ cmdEvents c ++ datEvents l
      bus := s.busAfter 2 } :=
  runAlone_ok hf (by rw [sendWire_ok (n := 0) c l hl hbus, wireEvents, List.append_assoc])

/-- R73: a command with one payload byte. -/
theorem runAlone_sendWire_byte (c b : Byte) (hbus : s.busOk 2 = true) :
    runAlone (sendWire c [b]) s = .next { s with
      cs := 1, dc := 1, bi := 1, tr := s.tr ++ cmdEvents c ++ datEvents [b], bus := s.busAfter 2 } :=
  runAlone_sendWire hf c (List.cons_ne_nil b []) hbus

end

/-- R75: the low bytes of the column bounds. -/
theorem casetPayload_eq_extract (x : WinRegs) :
    casetPayload x = [0x00, x.wx0.extractLsb' 0 8, 0x00, x.wx1.extractLsb' 0 8] := by
  rw [casetPayload, BitVec.setWidth_eq_extractLsb' (by decide), BitVec.setWidth_eq_extractLsb' (by decide)]

/-- R76: the low bytes of the row bounds. -/
theorem rasetPayload_eq_extract (x : WinRegs) :
    rasetPayload x = [0x00, x.wy0.extractLsb' 0 8, 0x00, x.wy1.extractLsb' 0 8] := by
  rw [rasetPayload, BitVec.setWidth_eq_extractLsb' (by decide), BitVec.setWidth_eq_extractLsb' (by decide)]

/-- Settles O16: each is its opcode and the delay that the configuration gives it. -/
theorem resetAndWakeThenSettleDelay : Obligations.ResetAndWakeThenSettleDelay :=
  fun _ hf hbus => ⟨runAlone_sendCommand_delay hf 0x01 Cfg.tSwreset hbus,
    runAlone_sendCommand_delay hf 0x11 Cfg.tSlpout hbus⟩

/-- Settles O17: each is one command transaction. -/
theorem plainCommandsSendTheirOpcode : Obligations.PlainCommandsSendTheirOpcode :=
  fun s hf hbus => ⟨runAlone_sendCommand hf s.cfg.opcNoron hbus, runAlone_sendCommand hf 0x20 hbus,
    runAlone_sendCommand hf 0x29 hbus⟩

/-- Settles O18: each is its opcode and the payload that the configuration gives it. -/
theorem frameRateCommandsSendTheirPayload : Obligations.FrameRateCommandsSendTheirPayload :=
  fun _ hf hbus => ⟨fun hl => runAlone_sendWire hf 0xB1 hl hbus, fun hl => runAlone_sendWire hf 0xB2 hl hbus,
    fun hl => runAlone_sendWire hf 0xB3 hl hbus⟩

/-- Settles O19: each is its opcode and the payload that the configuration gives it. -/
theorem powerCommandsSendTheirPayload : Obligations.PowerCommandsSendTheirPayload :=
  fun _ hf hbus => ⟨fun hl => runAlone_sendWire hf 0xC0 hl hbus, fun hl => runAlone_sendWire hf 0xC1 hl hbus,
    fun hl => runAlone_sendWire hf 0xC2 hl hbus, fun hl => runAlone_sendWire hf 0xC3 hl hbus,
    fun hl => runAlone_sendWire hf 0xC4 hl hbus⟩

/-- Settles O20: the payload of each is the one byte of its parameter. -/
theorem oneByteCommandsSendTheirPayload : Obligations.OneByteCommandsSendTheirPayload := by
  refine fun s b hf hbus => ⟨fun hb => ?_, fun hb => ?_⟩
  · rw [exec, execInvctr, hb, runAlone_sendWire_byte hf 0xB4 b hbus]
  · rw [exec, execVmctr1, hb, runAlone_sendWire_byte hf 0xC5 b hbus]

/-- Settles O21: the payloads are the one byte looked up and the fixed one. -/
theorem orientationAndColourModeCommands : Obligations.OrientationAndColourModeCommands :=
  fun s hf hbus => ⟨runAlone_sendWire_byte hf 0x36 s.cfg.madctlVal hbus, runAlone_sendWire_byte hf 0x3A 0x05 hbus⟩

/-- Settles O22: each payload is the low bytes of two working registers. -/
theorem windowBoundCommandsSendTheRegisters : Obligations.WindowBoundCommandsSendTheRegisters := by
  intro s hf hbus
  rw [← casetPayload_eq_extract, ← rasetPayload_eq_extract]
  exact ⟨runAlone_sendWire hf 0x2A (casetPayload_ne_nil s.x) hbus,
    runAlone_sendWire hf 0x2B (rasetPayload_ne_nil s.x) hbus⟩

end Sys2Proof.Machine
end

section
/-! RAMWR run alone: the window of another length that it is refused after, the burst that it sends, and the unwritten
byte that stops it (45_wire_commands.md R187, 44_display_controller.md R166, 10_state.md R36). -/

namespace Sys2Proof.Machine

/-- R247: a window that demands a burst of another length than `NBYTES` (log 31). -/
theorem exec_ramwr_burstLength {s : State} (hf : s.fatal = false) (hu : s.unordered = false)
    (hw : s.afterWindow = true) (hn : s.windowBytes ≠ some s.cfg.nbytes) :
    exec .ramwr s = .refused .burstLength := by
  rw [exec, execRamwr, runAlone_alive _ hf, if_neg (by simp [hu]), if_neg (by simp [hw]), if_pos hn]
  rfl

/-- The state in which the command `c` has gone out. -/
def State.afterCommand (s : State) (c : Byte) : State :=
  { s with cs := 1, dc := 0, tr := s.tr ++ cmdEvents c, bus := s.busAfter 1 }

/-- R187: directly after CASET and RASET whose window demands `NBYTES` bytes, RAMWR is its opcode, then the burst. -/
theorem exec_ramwr_fits {s : State} (hf : s.fatal = false) (hw : s.afterWindow = true)
    (hn : s.windowBytes = some s.cfg.nbytes) (hbus : s.busOk 1 = true) :
    exec .ramwr s = (burst (s.afterCommand 0x2C)).toOutcome := by
  obtain ⟨hu, -⟩ := unordered_of_windowBytes hn
  rw [exec, execRamwr, runAlone_alive _ hf, if_neg (by simp [hu]), if_neg (by simp [hw]), if_neg (not_not_intro hn),
    sendCommand_ok (n := 0) 0x2C hbus]
  rfl

/-- R187, R166: RAMWR with `TX` written, on a bus that does not fail in it. -/
theorem exec_ramwr_ok {s : State} {l : List Byte} (hf : s.fatal = false) (hw : s.afterWindow = true)
    (hn : s.windowBytes = some s.cfg.nbytes) (hbus : s.busOk (1 + s.cfg.burstCount) = true)
    (hl : s.tx.readBytes 0 s.cfg.nbytes = some l) :
    exec .ramwr s = .next { s with
      cs := 1, dc := 1, bi := BitVec.ofNat 18 s.cfg.lastChunk
      tr := s.tr ++ cmdEvents 0x2C ++ burstEvents s.cfg l, bus := s.busAfter (1 + s.cfg.burstCount) } := by
  obtain ⟨-, hpos⟩ := unordered_of_windowBytes hn
  have hcommand : s.busOk 1 = true := busAllows_mono hbus (Nat.le_add_right _ _)
  have hburst : (s.afterCommand 0x2C).busOk (s.cfg.burstCount + 0) = true := busAllows_drop hbus
  rw [exec_ramwr_fits hf hw hn hcommand, burst_ok (s := s.afterCommand 0x2C) hl hpos hburst]
  simp only [Result.toOutcome, State.afterCommand, State.busAfter, busDrop_drop]

/-- R36: RAMWR stops at a byte of `TX` that nothing has written. -/
theorem exec_ramwr_unwritten {s : State} {a : Nat} (hf : s.fatal = false) (hw : s.afterWindow = true)
    (hn : s.windowBytes = some s.cfg.nbytes) (ha : a < s.cfg.nbytes) (h : s.tx.read a = none)
    (hbus : s.busOk 1 = true) : exec .ramwr s = .fault (.unwritten .tx) := by
  rw [exec_ramwr_fits hf hw hn hbus, burst_unwritten (s := s.afterCommand 0x2C) ha h]
  rfl

/-- Settles O23: the three refusals, the whole burst, and the stop at an unwritten byte. -/
theorem ramwrSendsTheTransmitBuffer : Obligations.RamwrSendsTheTransmitBuffer :=
  fun _ hf => ⟨exec_ramwr_unordered hf, exec_ramwr_noWindow hf, exec_ramwr_burstLength hf,
    fun _ => exec_ramwr_ok hf, fun _ => exec_ramwr_unwritten hf⟩

end Sys2Proof.Machine
end

section
/-! The three refusals that change nothing but `ERR`: `NOT_READY`, `ILLEGAL_REQUEST` and `DEAD`
(60_exceptions.md R207, R209, R211, R216). -/

namespace Sys2Proof.Machine

/-- R207: the refused present ends the request it was accepted as, so that an idle instance is idle again. -/
theorem State.accept_takeError_notReady {s : State} (hb : s.busy = false) :
    s.accept.takeError .notReady = { s with err := .notReady } := by
  rw [hb]
  rfl

/-- R163: PRESENT tests `STATE` before it does anything. -/
theorem presentRequest_notReady {s : State} (h : s.ctrl ≠ .ready) :
    presentRequest s = .raised (s.takeError .notReady) := if_neg h

/-- Settles O39: the accepted request raises `NotReady`, which takes `BUSY` back. -/
theorem presentBeforeReadyFailsFast : Obligations.PresentBeforeReadyFailsFast := by
  intro s hb hf hr
  rw [← State.accept_takeError_notReady hb]
  exact request_raised hb hf (presentRequest_notReady hr)

/-- R82: two codes request an operation. -/
theorem decodeRequest_eq_none {code : BitVec 4} (hinit : code ≠ 0x1) (hpresent : code ≠ 0x2) :
    decodeRequest code = none := by
  rw [decodeRequest, if_neg hinit, if_neg hpresent]

/-- R216 (1): `Dead` is decided before the code is looked at. -/
theorem handshake_dead {s : State} (code : BitVec 4) (hb : s.busy = false) (hf : s.fatal = true) :
    handshake code s = .next { s with err := .dead } := by
  simp [handshake, hb, hf, State.takeError]

/-- R83, R209: a code that requests no operation. -/
theorem handshake_illegal {s : State} {code : BitVec 4} (hb : s.busy = false) (hf : s.fatal = false)
    (hd : decodeRequest code = none) : handshake code s = .next { s with err := .illegalRequest } := by
  simp [handshake, hb, hf, hd, State.takeError]

/-- Settles O13: the step is the handshake, and the code requests no operation. -/
theorem illegalRequestChangesOnlyErr : Obligations.IllegalRequestChangesOnlyErr := by
  intro s code r hc hb hf hi hinit hpresent
  rw [step_of_pending hc hi]
  exact handshake_illegal (s := { s with inbox := r }) hb hf (decodeRequest_eq_none hinit hpresent)

/-- Settles O14: the step is the handshake, which finds `FATAL` set. -/
theorem deadInstanceAnswersDead : Obligations.DeadInstanceAnswersDead := by
  intro s code r hc hb hf hi
  rw [step_of_pending hc hi]
  exact handshake_dead (s := { s with inbox := r }) code hb hf

end Sys2Proof.Machine
end

section
/-! An instance that is asked for nothing, and what a successful INIT establishes (70_reset_and_hazards.md R237,
R240). -/

namespace Sys2Proof.Machine

/-- R155, R237: with no action pending there is nothing to take. -/
theorem nextAction_of_inbox_nil {s : State} (hi : s.inbox = []) : nextAction s = .next s := by
  rw [nextAction, hi]

/-- Settles O7: a well-formed instance takes the next action, and there is none. -/
theorem nothingHappensUnasked : Obligations.NothingHappensUnasked :=
  fun _ hc hi => (step_of_cfg_ok hc).trans (nextAction_of_inbox_nil hi)

/-- A byte inside a zeroed stretch that starts at offset 0. -/
theorem Memory.read_writeBytes_replicate_zero (m : Memory) {n a : Nat} (ha : a < n) :
    (m.writeBytes 0 (List.replicate n 0x00)).read a = some 0x00 := by
  rw [Memory.read_writeBytes_zero m _ (by rwa [List.length_replicate]), List.getElem?_replicate_of_lt ha]

/-- Settles O41: INIT runs its whole sequence, which leaves `NBYTES` zeroes in `FB` and in `TX`. -/
theorem initEstablishesABlackFrame : Obligations.InitEstablishesABlackFrame := by
  intro s hc hb hf hi hbus
  exact ⟨_, initRunsTheWholeSequence s hc hb hf hi hbus, rfl, rfl, hf,
    fun _ ha => ⟨s.fb.read_writeBytes_replicate_zero ha, s.tx.read_writeBytes_replicate_zero ha⟩,
    fun _ _ => pixel_of_black fun _ => s.fb.read_writeBytes_replicate_zero⟩

end Sys2Proof.Machine
end
